-- ==== Sys2Proof/Word.lean ====
section
/-! DEFINITION. The named constants of 00_scope.md R5, and the machine word, the byte and the index types they give the sizes
of. The types hold the sizes as numerals, which keeps arithmetic over them plain; Laws/Operands.lean says that the numerals are
the constants. -/

namespace Sys2Proof

/-! ## Named constants (00_scope.md R5, "fixed"; unaudited literals, 93_implementation_defined.md U3, log 22) -/

/-- NUM_SLOTS. -/
abbrev Config.numSlots : Nat := 8

/-- NUM_BASE. -/
abbrev Config.numBase : Nat := 16

/-- WORD, in bits. -/
abbrev Config.wordBits : Nat := 32

/-- OPCODE_WIDTH, in bits. -/
abbrev Config.opcodeWidth : Nat := 4

/-- The lowest bit of the opcode field, and the greatest legal P. -/
abbrev Config.opcodeLow : Nat := 28

/-! ## Types -/

/-- A 32-bit word: instruction words, data and byte addresses alike (00_scope.md R5 WORD). Arithmetic is modulo 2^32 (R7). -/
abbrev Word := BitVec 32

/-- One byte of memory. -/
abbrev Byte := BitVec 8

/-- The index of a sequence slot, 0..7 (10_state.md R21). -/
abbrev SlotId := Fin 8

/-- An index into the base-address table, 0..15 (10_state.md R35). -/
abbrev BaseIndex := Fin 16

/-- A mask over the eight slots: bit `i` stands for slot `i` (00_scope.md R7). -/
abbrev SlotMask := BitVec 8

/-- A set of the ten interrupt conditions: bits 7:0 SEQDONE, bit 8 SEQABORTED, bit 9 BUSERROR (10_state.md R40). -/
abbrev Conditions := BitVec 10

end Sys2Proof
end

