-- ==== Sys2Proof/Syntax.lean ====
section
/-! DEFINITION. The instruction set: one constructor per row of spec/opcode_table.json (30_encoding.md R87), with the named
alternatives of the ext field (R88), and the layout that places the fields (R80). -/

namespace Sys2Proof

/-- The sixteen opcodes, in the order of the table (30_encoding.md R87). -/
inductive Opcode where
  | write | writeNoInc | mov | movNoInc | moveBlock | and | xor | or
  | delay | waitForReg | waitForSig | jump | setTrig | skipCond | endSeqOrNop | reserved
deriving DecidableEq, Repr

/-- The eight comparison predicates (43_wait.md R160, R161). -/
inductive Predicate where
  | allSet | anySet | allClear | anyClear | eqA | neqA | eqB | neqB
deriving DecidableEq, Repr

/-- Delay: a threshold on the shared counter, or a count of ticks (30_encoding.md R88). -/
inductive DelayMode where
  | absolute | relative
deriving DecidableEq, Repr

/-- Jump: relative to `pc + 8`, or absolute (30_encoding.md R88). -/
inductive JumpMode where
  | relative | absolute
deriving DecidableEq, Repr

/-- SetTrig's four operations (30_encoding.md R88). -/
inductive TrigOp where
  | write | set | clear | toggle
deriving DecidableEq, Repr

/-- SkipCond's sixteen variants (30_encoding.md R88). -/
inductive SkipCondition where
  | reg (p : Predicate)
  | sig (p : Predicate)
deriving DecidableEq, Repr

/-- EndSeqOrNop's two alternatives (30_encoding.md R88). -/
inductive EndOp where
  | nop | endSeq
deriving DecidableEq, Repr

/-- An instruction word, decoded. `base` and `offset` name the target address; the opcodes that do not use it keep both
fields, so no bit of a word is dropped (30_encoding.md R82, R90). `length` is the ext field of opcodes 0..7 (R86).
The inline words that follow in memory are read when the instruction executes and are no part of it (R91, R113). -/
inductive Instr where
  | write (base : BaseIndex) (offset length : Nat)
  | writeNoInc (base : BaseIndex) (offset length : Nat)
  | mov (base : BaseIndex) (offset length : Nat)
  | movNoInc (base : BaseIndex) (offset length : Nat)
  | moveBlock (base : BaseIndex) (offset length : Nat)
  | and (base : BaseIndex) (offset length : Nat)
  | xor (base : BaseIndex) (offset length : Nat)
  | or (base : BaseIndex) (offset length : Nat)
  | delay (mode : DelayMode) (base : BaseIndex) (offset : Nat)
  | waitForReg (pred : Predicate) (base : BaseIndex) (offset : Nat)
  | waitForSig (pred : Predicate) (base : BaseIndex) (offset : Nat)
  | jump (mode : JumpMode) (base : BaseIndex) (offset : Nat)
  | setTrig (op : TrigOp) (base : BaseIndex) (offset : Nat)
  | skipCond (cond : SkipCondition) (base : BaseIndex) (offset : Nat)
  | endSeqOrNop (op : EndOp) (base : BaseIndex) (offset : Nat)
  /-- Opcode 0xF. Its other 28 bits are no fields (44_control.md R200); they are kept for the fault record's word. -/
  | reserved (payload : BitVec 28)
deriving DecidableEq, Repr

/-- The two pivots of the instruction word: O = CONTWRITEPOS and P = BASEPOS (30_encoding.md R80, R81). -/
structure Layout where
  o : Nat
  p : Nat
deriving DecidableEq, Repr

end Sys2Proof
end

