-- ==== Sys2Proof/Config.lean ====
section
/-! DEFINITION. What an implementation fixes: the parameters of 00_scope.md R5, the platform's bus as plain data, and the free
values (opaque constants, no body). The named constants of R5 stand in Word.lean. -/

namespace Sys2Proof

/-! ## The host's registers -/

/-- The registers of the host surface, by name (10_state.md R40). -/
inductive HostReg where
  | en | cmd | status | seqAddr | config | eqMaskA | eqMaskB | busErrAddr | ifReg | ien | seqIf | seqIen
  | baseAddr (k : BaseIndex)
  | seqStart (i : SlotId)
  | seqCfg (i : SlotId)
deriving DecidableEq, Repr

/-! ## The platform's bus as plain data (20_memory.md R61: BUS is an OPEN parameter; log 5) -/

/-- One access of the core to the bus, as the trace keeps it (20_memory.md R62, R66). -/
inductive BusAccess where
  /-- A read of `addr`; `none` is a bus error. -/
  | read (addr : Word) (result : Option Word)
  /-- A write of `value` at `addr`; `ok = false` is a bus error. -/
  | write (addr value : Word) (ok : Bool)
deriving DecidableEq, Repr

/-- What lies behind a region of the bus. Addresses outside every region are plain memory. -/
inductive RegionKind where
  /-- Plain memory, but the marked directions answer error. -/
  | failing (onRead onWrite : Bool)
  /-- A peripheral: its answers are free values (log 10). -/
  | device
deriving DecidableEq, Repr

/-- A region: `size` bytes from `base`, modulo 2^32. -/
structure BusRegion where
  base : Word
  size : Nat
  kind : RegionKind
deriving DecidableEq, Repr

/-- What plain memory does on a misaligned word access (20_memory.md R64, 93_implementation_defined.md U16; log 8). -/
inductive MisalignedAnswer where
  /-- The word of the four bytes from that address. -/
  | bytes
  /-- A bus error. -/
  | error
  /-- The platform gives no answer: the model refuses the access. -/
  | noAnswer
deriving DecidableEq, Repr

/-- BYTE_ORDER (20_memory.md R65). -/
inductive ByteOrder where
  | little | big
deriving DecidableEq, Repr

/-! ## The parameters of 00_scope.md R5 -/

/-- EQ_PRED_FORM (92_eei_decisions.md D10): `(v & M) = (d & M)`, or `(v & M) = d`. -/
inductive EqPredForm where
  | maskBoth | maskValue
deriving DecidableEq, Repr

/-- START_NON_IDLE (45_sequencer.md R214, D21). -/
inductive StartNonIdle where
  | fault | ignore
deriving DecidableEq, Repr

/-- EN_POLICY (45_sequencer.md R214, D22). -/
inductive EnPolicy where
  | fault | ignore | none
deriving DecidableEq, Repr

/-- COUNTDOWN_MODEL (60_exceptions.md R261, R274, D15). -/
inductive CountdownModel where
  | eventCounted | free
deriving DecidableEq, Repr

/-- REL_DELAY_ZERO (60_exceptions.md R264, D14). -/
inductive RelDelayZero where
  | fault | nextTick
deriving DecidableEq, Repr

/-- OPCODE_MAP and EXT_MAP (92_eei_decisions.md D1, D2; log 4). `opcodes` is the opcode of each value of bits 31:28. The other
fields list, for an opcode whose ext field is an extended opcode, each legal ext value with the alternative it selects. -/
structure Config.EncodingMaps where
  opcodes : Vector Opcode 16
  delay : List (Nat × DelayMode)
  waitForReg : List (Nat × Predicate)
  waitForSig : List (Nat × Predicate)
  jump : List (Nat × JumpMode)
  setTrig : List (Nat × TrigOp)
  skipCond : List (Nat × SkipCondition)
  endSeqOrNop : List (Nat × EndOp)
deriving DecidableEq, Repr

/-- The parameters that R5 gives a default and alternatives, and the platform's bus. The state carries one value of it, which
no step writes, so a statement about every state holds for every choice (log 3). -/
structure Config.Params where
  maps : Config.EncodingMaps
  eqPredForm : EqPredForm
  atomicRun : Bool
  startNonIdle : StartNonIdle
  enPolicy : EnPolicy
  arbitrateOnAbort : Bool
  busErrorAbortFlags : Bool
  countdownModel : CountdownModel
  relDelayZero : RelDelayZero
  absCounterLimit : Nat
  regmap : List (Word × HostReg)
  byteOrder : ByteOrder
  misaligned : MisalignedAnswer
  /-- The first region that holds an address decides. -/
  regions : List BusRegion
  /-- Where the block's own register window lies on the bus the core sees, if it lies there (20_memory.md R67, R68; log 9). -/
  window : Option Word
deriving DecidableEq, Repr

/-! ## Free values -/

/-- CC_EVENT_ID, OPEN: the event identifier of a capture-compare channel (60_exceptions.md R272; log 12). -/
opaque Config.ccEventId : Nat → BitVec 8

/-- What SEQADDR reads while no slot is active: "any 32-bit value" (10_state.md R46), one for each draw (log 13). -/
opaque Config.seqAddrIdle : Nat → Word

/-- A peripheral's answer to a read, given the core's accesses so far: a word, or `none` for a bus error (20_memory.md R61; log 10). -/
opaque Config.deviceRead : List BusAccess → Word → Option Word

/-- Whether a peripheral takes a write, given the core's accesses so far; `false` is a bus error (20_memory.md R61; log 10). -/
opaque Config.deviceWrite : List BusAccess → Word → Word → Bool

end Sys2Proof
end

