-- ==== Sys2Proof/Decode.lean ====
section
/-! DEFINITION. The decoder of 30_encoding.md R93, total on any word under any layout and any OPCODE_MAP and EXT_MAP and
rejecting by name, and the encoder of R94 written from the same maps (00_scope.md R5, 92_eei_decisions.md D1, D2; log 4). -/

namespace Sys2Proof

/-! ## The layout -/

/-- `0 <= O <= P <= 28` (30_encoding.md R83). -/
def Layout.legal (l : Layout) : Bool := decide (l.o ≤ l.p) && decide (l.p ≤ Config.opcodeLow)

/-- L, the width of the ext field (30_encoding.md R81). -/
def Layout.extWidth (l : Layout) : Nat := l.p - l.o

/-- B, the width of the base-index field (30_encoding.md R81). -/
def Layout.baseWidth (l : Layout) : Nat := Config.opcodeLow - l.p

/-! ## OPCODE_MAP and EXT_MAP -/

/-- The predicate codes at the default of EXT_MAP (43_wait.md R161). -/
def Config.predicateCodes : List (Nat × Predicate) :=
  [(0, .allSet), (1, .anySet), (2, .allClear), (3, .anyClear), (4, .eqA), (5, .neqA), (6, .eqB), (7, .neqB)]

/-- The defaults of OPCODE_MAP, the table order (30_encoding.md R87), and of EXT_MAP, the order of mention (R88). -/
def Config.EncodingMaps.default : Config.EncodingMaps where
  opcodes := #v[.write, .writeNoInc, .mov, .movNoInc, .moveBlock, .and, .xor, .or, .delay, .waitForReg, .waitForSig, .jump,
    .setTrig, .skipCond, .endSeqOrNop, .reserved]
  delay := [(0, .absolute), (1, .relative)]
  waitForReg := Config.predicateCodes
  waitForSig := Config.predicateCodes
  jump := [(0, .relative), (1, .absolute)]
  setTrig := [(0, .write), (1, .set), (2, .clear), (3, .toggle)]
  skipCond := Config.predicateCodes.map (fun r => (r.1, .reg r.2)) ++ Config.predicateCodes.map (fun r => (8 + r.1, .sig r.2))
  endSeqOrNop := [(0, .nop), (1, .endSeq)]

/-- OPCODE_MAP: the opcode of a value of bits 31:28 (30_encoding.md R87). -/
def opcodeOf (m : Config.EncodingMaps) (n : Nat) : Opcode := m.opcodes.toList.getD n .reserved

/-- OPCODE_MAP, read the other way: the least value of the opcode, or 16 where it has none (30_encoding.md R87). -/
def opcodeValue (m : Config.EncodingMaps) (op : Opcode) : Nat := m.opcodes.toList.idxOf op

/-- EXT_MAP: the alternative an ext value selects, if the value is legal (30_encoding.md R88, R89). -/
def alternativeOf {α : Type} (rows : List (Nat × α)) (ext : Nat) : Option α := rows.lookup ext

/-- EXT_MAP, read the other way: the ext value of an alternative, if it has one (30_encoding.md R88). -/
def codeOf {α : Type} [DecidableEq α] (rows : List (Nat × α)) (a : α) : Option Nat := (rows.find? fun r => r.2 = a).map (·.1)

/-- No ext value and no alternative stands twice. -/
def rowsOneToOne {α : Type} [DecidableEq α] (rows : List (Nat × α)) : Bool :=
  decide (rows.map (·.1)).Nodup && decide (rows.map (·.2)).Nodup

/-- The maps assign numbers: one opcode a value and one value an opcode, and the same for the alternatives of each opcode. The
values of the parameters OPCODE_MAP and EXT_MAP are such maps (00_scope.md R5; log 4). -/
def Config.EncodingMaps.oneToOne (m : Config.EncodingMaps) : Bool :=
  decide m.opcodes.toList.Nodup && rowsOneToOne m.delay && rowsOneToOne m.waitForReg && rowsOneToOne m.waitForSig
    && rowsOneToOne m.jump && rowsOneToOne m.setTrig && rowsOneToOne m.skipCond && rowsOneToOne m.endSeqOrNop

/-- The ext field of an instruction: its length, or the code of its alternative, which a map may leave without one
(30_encoding.md R86, R88). -/
def Instr.ext (m : Config.EncodingMaps) : Instr → Option Nat
  | .write _ _ n | .writeNoInc _ _ n | .mov _ _ n | .movNoInc _ _ n | .moveBlock _ _ n
  | .and _ _ n | .xor _ _ n | .or _ _ n => some n
  | .delay mode _ _ => codeOf m.delay mode
  | .waitForReg p _ _ => codeOf m.waitForReg p
  | .waitForSig p _ _ => codeOf m.waitForSig p
  | .jump mode _ _ => codeOf m.jump mode
  | .setTrig op _ _ => codeOf m.setTrig op
  | .skipCond c _ _ => codeOf m.skipCond c
  | .endSeqOrNop op _ _ => codeOf m.endSeqOrNop op
  | .reserved _ => some 0

/-- The base-index field of an instruction. -/
def Instr.base : Instr → Nat
  | .write b _ _ | .writeNoInc b _ _ | .mov b _ _ | .movNoInc b _ _ | .moveBlock b _ _
  | .and b _ _ | .xor b _ _ | .or b _ _
  | .delay _ b _ | .waitForReg _ b _ | .waitForSig _ b _ | .jump _ b _ | .setTrig _ b _
  | .skipCond _ b _ | .endSeqOrNop _ b _ => b.val
  | .reserved _ => 0

/-- The offset field of an instruction. -/
def Instr.offset : Instr → Nat
  | .write _ f _ | .writeNoInc _ f _ | .mov _ f _ | .movNoInc _ f _ | .moveBlock _ f _
  | .and _ f _ | .xor _ f _ | .or _ f _
  | .delay _ _ f | .waitForReg _ _ f | .waitForSig _ _ f | .jump _ _ f | .setTrig _ _ f
  | .skipCond _ _ f | .endSeqOrNop _ _ f => f
  | .reserved _ => 0

/-! ## Fields of a word -/

/-- `w[lo+width-1 : lo]` as an unsigned number; a field of width 0 has value 0 (00_scope.md R7). -/
def field (w : Word) (lo width : Nat) : Nat := w.toNat / 2 ^ lo % 2 ^ width

/-- The opcode field, bits 31:28 (30_encoding.md R81). -/
def opcodeField (w : Word) : Nat := field w Config.opcodeLow Config.opcodeWidth

/-- The base-index field, bits 27:P (30_encoding.md R81). -/
def baseField (l : Layout) (w : Word) : Nat := field w l.p l.baseWidth

/-- The ext field, bits P-1:O (30_encoding.md R81). -/
def extField (l : Layout) (w : Word) : Nat := field w l.o l.extWidth

/-- The offset field, bits O-1:0 (30_encoding.md R81). -/
def offsetField (l : Layout) (w : Word) : Nat := field w 0 l.o

/-! ## The decoder -/

/-- Why a word is no instruction (30_encoding.md R92). The reserved opcode, 0xF at the default map, is the instruction Reserved, whose meaning faults. -/
inductive DecodeReject where
  | badLayout | baseIndexRange | invalidExt
deriving DecidableEq, Repr

/-- An ext value that must name an alternative (30_encoding.md R89). -/
def requireExt {α : Type} (x : Option α) (mk : α → Instr) : Except DecodeReject Instr :=
  match x with
  | some a => .ok (mk a)
  | none => .error .invalidExt

/-- The instruction of an opcode with its three fields (30_encoding.md R86, R88). -/
def instrOf (m : Config.EncodingMaps) (op : Opcode) (base : BaseIndex) (ext offset : Nat) (w : Word) : Except DecodeReject Instr :=
  match op with
  | .write => .ok (.write base offset ext)
  | .writeNoInc => .ok (.writeNoInc base offset ext)
  | .mov => .ok (.mov base offset ext)
  | .movNoInc => .ok (.movNoInc base offset ext)
  | .moveBlock => .ok (.moveBlock base offset ext)
  | .and => .ok (.and base offset ext)
  | .xor => .ok (.xor base offset ext)
  | .or => .ok (.or base offset ext)
  | .delay => requireExt (alternativeOf m.delay ext) (.delay · base offset)
  | .waitForReg => requireExt (alternativeOf m.waitForReg ext) (.waitForReg · base offset)
  | .waitForSig => requireExt (alternativeOf m.waitForSig ext) (.waitForSig · base offset)
  | .jump => requireExt (alternativeOf m.jump ext) (.jump · base offset)
  | .setTrig => requireExt (alternativeOf m.setTrig ext) (.setTrig · base offset)
  | .skipCond => requireExt (alternativeOf m.skipCond ext) (.skipCond · base offset)
  | .endSeqOrNop => requireExt (alternativeOf m.endSeqOrNop ext) (.endSeqOrNop · base offset)
  | .reserved => .ok (.reserved (w.setWidth 28))

/-- Decode, in the order of 30_encoding.md R93: Reserved first, then the layout, the base index, the ext value. -/
def decode (m : Config.EncodingMaps) (l : Layout) (w : Word) : Except DecodeReject Instr :=
  if opcodeOf m (opcodeField w) = .reserved then .ok (.reserved (w.setWidth 28))
  else if l.legal = false then .error .badLayout
  else if h : baseField l w < Config.numBase then
    instrOf m (opcodeOf m (opcodeField w)) ⟨baseField l w, h⟩ (extField l w) (offsetField l w) w
  else .error .baseIndexRange

/-! ## The encoder -/

/-- The opcode of an instruction. -/
def Instr.opcode : Instr → Opcode
  | .write .. => .write | .writeNoInc .. => .writeNoInc | .mov .. => .mov | .movNoInc .. => .movNoInc
  | .moveBlock .. => .moveBlock | .and .. => .and | .xor .. => .xor | .or .. => .or
  | .delay .. => .delay | .waitForReg .. => .waitForReg | .waitForSig .. => .waitForSig | .jump .. => .jump
  | .setTrig .. => .setTrig | .skipCond .. => .skipCond | .endSeqOrNop .. => .endSeqOrNop | .reserved .. => .reserved

/-- The four fields side by side: `opcode ++ baseIndex ++ ext ++ offset` (30_encoding.md R82, R94). For fields that fit, the
sum is the bitwise OR of R94. -/
def packFields (l : Layout) (opcode base ext offset : Nat) : Word :=
  BitVec.ofNat 32 (opcode * 2 ^ Config.opcodeLow + base * 2 ^ l.p + ext * 2 ^ l.o + offset)

/-- The word of an instruction under the maps and a layout (30_encoding.md R94); it is the instruction's encoding when the
instruction is well formed under them. -/
def encode (m : Config.EncodingMaps) (l : Layout) (i : Instr) : Word :=
  match i with
  | .reserved payload => BitVec.ofNat 32 (opcodeValue m .reserved * 2 ^ Config.opcodeLow + payload.toNat)
  | i => packFields l (opcodeValue m i.opcode) i.base ((i.ext m).getD 0) i.offset

/-- The words an instruction occupies, its inline words included (30_encoding.md R90, R91). -/
def Instr.wordCount : Instr → Nat
  | .write _ _ n | .writeNoInc _ _ n | .mov _ _ n | .movNoInc _ _ n | .and _ _ n | .xor _ _ n | .or _ _ n => 1 + n
  | .moveBlock .. | .delay .. | .waitForReg .. | .waitForSig .. | .jump .. | .setTrig .. | .skipCond .. => 2
  | .endSeqOrNop .. | .reserved .. => 1

/-! ## The host's question about one word of the opcode table -/

/-- The layout under which a word of the opcode table is read when no CONFIG is given: O = P = 28 (legal, E4 of
95_test_vectors.md). The table fixes bits 31:28 only; under this layout every other bit is the offset, so that every word of a
row decodes to the row's instruction (log 19). -/
def tableLayout : Layout := ⟨28, 28⟩

/-- The instruction the decoder reads from the bits `w` of an opcode-table row, under the default maps, which are the table's
(log 19). A row is one 32-bit word. -/
def decodeTableWord (nbits w : Nat) : Option Instr :=
  match decode .default tableLayout (BitVec.ofNat Config.wordBits (w % 2 ^ min nbits Config.wordBits)) with
  | .ok i => some i
  | .error _ => none

end Sys2Proof
end

