-- ==== Sys2Proof/Machine/Defaults.lean ====
section
/-! DEFINITION. The defaults of the parameters of 00_scope.md R5. -/

namespace Sys2Proof

/-- The reference layout REGMAP: offset and register (10_state.md R40). -/
def Config.referenceRegmap : List (Word × HostReg) :=
  [(0x000, .en), (0x004, .cmd), (0x008, .status), (0x00C, .seqAddr), (0x010, .config), (0x014, .eqMaskA), (0x018, .eqMaskB),
   (0x01C, .busErrAddr), (0x020, .ifReg), (0x024, .ien), (0x028, .seqIf), (0x02C, .seqIen)]
  ++ (List.finRange Config.numBase).map (fun k => (BitVec.ofNat 32 (0x040 + 4 * k.val), HostReg.baseAddr k))
  ++ (List.finRange Config.numSlots).map (fun i => (BitVec.ofNat 32 (0x080 + 8 * i.val), HostReg.seqStart i))
  ++ (List.finRange Config.numSlots).map (fun i => (BitVec.ofNat 32 (0x084 + 8 * i.val), HostReg.seqCfg i))

/-- The defaults of 00_scope.md R5. The bus part is the set-up of 95_test_vectors.md, "BUS is plain memory that answers every
address": DESIGN CHOICE, unsafe (logs 5, 8, 9). `byteOrder := .little` is PRESUMED (G1 of 93_implementation_defined.md; log 7). -/
def Config.Params.default : Config.Params where
  maps := .default
  eqPredForm := .maskBoth
  atomicRun := false
  startNonIdle := .fault
  enPolicy := .fault
  arbitrateOnAbort := false
  busErrorAbortFlags := true
  countdownModel := .eventCounted
  relDelayZero := .fault
  absCounterLimit := 2 ^ 32 - 1
  regmap := Config.referenceRegmap
  byteOrder := .little
  misaligned := .bytes
  regions := []
  window := none

end Sys2Proof
end

