-- ==== Sys2Proof/Machine/State.lean ====
section
/-! DEFINITION. The state of the block and of what stands around it, as plain data (10_state.md R20 to R48), the reasons a step
can stop, and the state right after reset (70_reset_and_hazards.md R300). -/

namespace Sys2Proof.Machine

/-! ## Slots -/

/-- The six values of a slot's `state` (10_state.md R21, R31). -/
inductive SlotState where
  | idle | pending | running | inDelay | waitingForSignal | waitingForReg
deriving DecidableEq, Repr

/-- A slot record, with the field names of 10_state.md R21. The done flags and enables stand in IF, IEN, SEQIF, SEQIEN. -/
structure Slot where
  state : SlotState
  currentAddress : Word
  startAddress : Word
  hardwareStartSelect : BitVec 8
  hardwareTriggerMode : BitVec 2
  disableAbsoluteDelayReset : Bool
  movSwapAddresses : Bool
  delayRemainingTicksOrTopValue : Word
  delayIsRelative : Bool
  waitSigPred : Predicate
  waitSigData : Word
deriving DecidableEq, Repr

/-- A slot after reset: Idle, every field 0 (10_state.md R48). -/
def Slot.reset : Slot where
  state := .idle
  currentAddress := 0
  startAddress := 0
  hardwareStartSelect := 0
  hardwareTriggerMode := 0
  disableAbsoluteDelayReset := false
  movSwapAddresses := false
  delayRemainingTicksOrTopValue := 0
  delayIsRelative := false
  waitSigPred := .allSet
  waitSigData := 0

/-! ## The timer -/

/-- CONFIG.TIMEBASE (10_state.md R38). -/
inductive TimeBase where
  | clock | preCountOverflow | baseCountOverflow | wrapCountOverflow
deriving DecidableEq, Repr

/-- The source of a tick (10_state.md R43 `tb`; 60_exceptions.md R261). -/
inductive TickSource where
  | preCountOverflow | baseCountOverflow | wrapCountOverflow | pollTick
deriving DecidableEq, Repr

/-- The timer's start reason (10_state.md R43). -/
inductive StartReason where
  | deferredStart | delay | pollRetry
deriving DecidableEq, Repr

/-- The countdown timer (10_state.md R43). -/
structure Timer where
  armed : Bool
  reason : StartReason
  slot : SlotId
  tb : TickSource
  remaining : Nat
deriving DecidableEq, Repr

/-- The timer after reset; `reason`, `slot` and `tb` are the values 10_state.md R43 tells a model to set (log 20). -/
def Timer.reset : Timer where
  armed := false
  reason := .deferredStart
  slot := 0
  tb := .preCountOverflow
  remaining := 0

/-! ## The fault record -/

/-- The fault kinds of 60_exceptions.md R252. -/
inductive FaultKind where
  | reservedOpcode | invalidExt | clockTimeBase | delayThresholdPassed | resumeInvariant | badLayout
  | baseIndexRange | zeroRelativeDelay | startNonIdle | startWhileDisabled | counterOverflow
deriving DecidableEq, Repr

/-- The fault record's contents (10_state.md R44); `none` in a field is the spec's "none". -/
structure FaultRecord where
  kind : FaultKind
  slot : Option SlotId
  address : Option Word
  word : Option Word
deriving DecidableEq, Repr

/-! ## Turns of the agents -/

/-- The width of a host access (10_state.md R40). -/
inductive AccessWidth where
  | byte | half | word
deriving DecidableEq, Repr

/-- A turn of one agent (00_scope.md R6, 60_exceptions.md R271). -/
inductive Turn where
  /-- The executor (40_execution_cycle.md R110). -/
  | executor
  /-- A host read of its register surface (10_state.md R46). -/
  | hostRead (width : AccessWidth) (offset : Word)
  /-- A host write of its register surface (10_state.md R47). -/
  | hostWrite (width : AccessWidth) (offset value : Word)
  /-- Another bus master writes a word of memory (20_memory.md R72, R75). -/
  | masterWrite (addr value : Word)
  /-- Another bus master writes one byte of memory (20_memory.md R65). -/
  | masterWriteByte (addr : Word) (value : Byte)
  /-- PreAccrue (60_exceptions.md R270). -/
  | preAccrue
  /-- PreOverflow (60_exceptions.md R270). -/
  | preOverflow
  /-- BaseOverflow(n) (60_exceptions.md R270). -/
  | baseOverflow (n : Nat)
  /-- WrapOverflow(n) (60_exceptions.md R270). -/
  | wrapOverflow (n : Nat)
  /-- CaptureCompare(c) (60_exceptions.md R272). -/
  | captureCompare (channel : Nat)
  /-- HwEvent(e) on another hardware line (45_sequencer.md R220). -/
  | hwEvent (e : BitVec 8)
  /-- PollTick (60_exceptions.md R275). -/
  | pollTick
  /-- Expire as an environment event, under COUNTDOWN_MODEL = Free (60_exceptions.md R274). -/
  | timerExpire
  /-- SignalSet(m) (43_wait.md R176). -/
  | signalSet (m : Word)
  /-- SignalClear(m) (43_wait.md R177). -/
  | signalClear (m : Word)
  /-- Reset (70_reset_and_hazards.md R300). -/
  | reset
deriving DecidableEq, Repr

/-! ## The state -/

/-- Memory: the bytes that do not read as `Memory.unlisted`, in the canonical form `Memory.wf` (20_memory.md R60; log 6). -/
abbrev Memory := List Host.Cell

/-- The state. INVENTORY.md lists every field with its rule. -/
structure State where
  /-- The eight slot records (10_state.md R21). -/
  slots : Vector Slot 8
  /-- 10_state.md R32. -/
  absoluteDelayCounter : Nat
  /-- 10_state.md R33. -/
  signalBitmask : Word
  /-- 10_state.md R34. -/
  triggerBitmask : Word
  /-- 10_state.md R35. -/
  baseAddress : Vector Word 16
  /-- CONFIG.CONTWRITEPOS, the pivot O (10_state.md R36). -/
  contWritePos : BitVec 5
  /-- CONFIG.BASEPOS, the pivot P (10_state.md R36). -/
  basePos : BitVec 5
  /-- EN (10_state.md R37). -/
  en : Bool
  /-- CONFIG.TIMEBASE (10_state.md R38). -/
  timeBase : TimeBase
  /-- EQMASKA (10_state.md R39). -/
  eqMaskA : Word
  /-- EQMASKB (10_state.md R39). -/
  eqMaskB : Word
  /-- BUSERRADDR (10_state.md R41). -/
  busErrAddr : Word
  /-- IF (10_state.md R42). -/
  ifReg : Conditions
  /-- IEN (10_state.md R42). -/
  ien : Conditions
  /-- SEQIF (10_state.md R42). -/
  seqIf : Conditions
  /-- SEQIEN (10_state.md R42). -/
  seqIen : Conditions
  /-- 10_state.md R43. -/
  timer : Timer
  /-- The line irq_host (10_state.md R45). -/
  irqHost : Bool
  /-- The line irq_seq (10_state.md R45). -/
  irqSeq : Bool
  /-- The fault record (10_state.md R44). -/
  fault : Option FaultRecord
  /-- Environment: pre-count overflows not yet delivered (60_exceptions.md R270). -/
  preOutstanding : Nat
  /-- Environment: the memory behind the bus (20_memory.md R61). -/
  mem : Memory
  /-- The model's own: the core's bus accesses, newest first (20_memory.md R66; log 11). -/
  trace : List BusAccess
  /-- The model's own: what the last host read returned (10_state.md R46; log 18). -/
  hostReadData : Word
  /-- The model's own: how many free values SEQADDR has drawn (10_state.md R46; log 13). -/
  freeDraws : Nat
  /-- The model's own: the turns to come; after the last of them the executor has every turn (log 1). -/
  schedule : List Turn
  /-- The parameters of 00_scope.md R5, written by no step (log 3). -/
  params : Config.Params
deriving DecidableEq, Repr

/-! ## Why a step stops -/

/-- Faults of the step function. -/
inductive Fault where
  /-- The block is in the fault state with this record, so no step of any agent is enabled (60_exceptions.md R255). Raised by
  `step` alone; ENTERING the fault state is a next state (log 14). Safe: it is what the spec says. -/
  | faultState (r : FaultRecord)
deriving DecidableEq, Repr

/-- Refusals: behaviour the spec says a model refuses. -/
inductive Refusal where
  /-- The arm of an instruction without a meaning; no arm of this model answers it. Safe. -/
  | notModelled (mnemonic : String)
  /-- The core accesses the block's own register window: "has no meaning in this spec ... A model refuses it" (20_memory.md
  R68). Raised by `memRead` and `memWrite`, and by another master's memory write there. Safe. -/
  | ownWindow (addr : Word)
  /-- A misaligned word where the platform gives no answer (20_memory.md R64, only under `MisalignedAnswer.noAnswer`). Raised
  by `memRead` and `memWrite`. Safe. -/
  | misaligned (addr : Word)
  /-- A host access at an offset that is no register's (10_state.md R40). Raised by the host's turns. Safe. -/
  | unmappedOffset (offset : Word)
  /-- A host access that is not 32 bits wide (10_state.md R40). Raised by the host's turns. Safe. -/
  | hostWidth (width : AccessWidth)
  /-- `exec` asked for where no executor step is enabled (40_execution_cycle.md R110). Raised by every meaning; `step` never
  asks (log 16). Safe. -/
  | executorNotEnabled
deriving DecidableEq, Repr

/-! ## Reset -/

/-- The machine right after reset (70_reset_and_hazards.md R300, 10_state.md R48): nothing is running and nothing is pending.
The model's own fields are empty and the parameters are the defaults of 00_scope.md R5 (logs 1, 3, 11, 13, 18). -/
def State.reset : State where
  slots := Vector.replicate Config.numSlots Slot.reset
  absoluteDelayCounter := 0
  signalBitmask := 0
  triggerBitmask := 0
  baseAddress := Vector.replicate Config.numBase 0
  contWritePos := 0
  basePos := 0
  en := false
  timeBase := .clock
  eqMaskA := 0
  eqMaskB := 0
  busErrAddr := 0
  ifReg := 0
  ien := 0
  seqIf := 0
  seqIen := 0
  timer := Timer.reset
  irqHost := false
  irqSeq := false
  fault := none
  preOutstanding := 0
  mem := []
  trace := []
  hostReadData := 0
  freeDraws := 0
  schedule := []
  params := Config.Params.default

end Sys2Proof.Machine
end

