-- ==== Sys2Proof/Machine/Flags.lean ====
section
/-! DEFINITION. Conditions and lines: the predicate family of 43_wait.md R162, the ten condition bits, and the interrupt lines
of 60_exceptions.md R282. The block stores no condition code (10_state.md R20). -/

namespace Sys2Proof.Machine

/-- The equality test under a mask, in the form EQ_PRED_FORM (43_wait.md R162, 92_eei_decisions.md D10). -/
def eqUnderMask (form : EqPredForm) (mask v d : Word) : Bool :=
  match form with
  | .maskBoth => v &&& mask == d &&& mask
  | .maskValue => v &&& mask == d

/-- `Pred(code, v, d)`: `v` the observed value, `d` the data/mask word, the equality masks as they stand (43_wait.md R162). -/
def State.pred (s : State) (p : Predicate) (v d : Word) : Bool :=
  match p with
  | .allSet => v &&& d == d
  | .anySet => v &&& d != 0
  | .allClear => v &&& d == 0
  | .anyClear => v &&& d != d
  | .eqA => eqUnderMask s.params.eqPredForm s.eqMaskA v d
  | .neqA => !eqUnderMask s.params.eqPredForm s.eqMaskA v d
  | .eqB => eqUnderMask s.params.eqPredForm s.eqMaskB v d
  | .neqB => !eqUnderMask s.params.eqPredForm s.eqMaskB v d

/-- The condition bit SEQDONE[i] (10_state.md R40). -/
def seqDoneBit (i : SlotId) : Conditions := 1#10 <<< i.val

/-- The condition bit SEQABORTED (10_state.md R40). -/
def seqAbortedBit : Conditions := 0x100

/-- The condition bit BUSERROR (10_state.md R40). -/
def busErrorBit : Conditions := 0x200

/-- A line: the OR over the ten bits of flag AND enable (60_exceptions.md R282). -/
def lineOf (flags enables : Conditions) : Bool := flags &&& enables != 0

/-- Recompute both lines (60_exceptions.md R282). -/
def State.recompute (s : State) : State :=
  { s with irqHost := lineOf s.ifReg s.ien, irqSeq := lineOf s.seqIf s.seqIen }

/-- Raise a condition: both flags of its pair, whatever the enables (60_exceptions.md R280, R281). -/
def State.raiseFlags (s : State) (c : Conditions) : State :=
  { s with ifReg := s.ifReg ||| c, seqIf := s.seqIf ||| c }

/-- The output port trigger_out, driven by the trigger bitmask (10_state.md R34). -/
def State.triggerOut (s : State) : Word := s.triggerBitmask

end Sys2Proof.Machine
end

