-- ==== Sys2Proof/Machine/Memory.lean ====
section
/-! DEFINITION. The memory behind the bus: bytes in canonical form, and words made of four bytes in the platform's byte order
(20_memory.md R60, R65; logs 6, 7). -/

namespace Sys2Proof.Machine

/-- What an address that is not listed reads as: the ONE definition of it. "Memory not listed is 0" (95_test_vectors.md part 3);
DESIGN CHOICE, unsafe (log 6). -/
def Memory.unlisted : Byte := 0

/-- Every address listed is at least `lo` and they rise strictly. -/
def Memory.sortedFrom : Nat → Memory → Bool
  | _, [] => true
  | lo, (a, _) :: m => decide (lo ≤ a) && Memory.sortedFrom (a + 1) m

/-- The canonical form: addresses strictly rising and below 2^32, no entry equal to what an unlisted address reads as. -/
def Memory.wf (m : Memory) : Bool :=
  Memory.sortedFrom 0 m && m.all fun c => decide (c.1 < 2 ^ 32) && decide (c.2 ≠ Memory.unlisted)

/-- The byte at an address. -/
def Memory.get : Memory → Nat → Byte
  | [], _ => Memory.unlisted
  | (k, v) :: m, a => if k = a then v else Memory.get m a

/-- An entry, unless it is what an unlisted address reads as. -/
def Memory.cons (a : Nat) (b : Byte) (m : Memory) : Memory :=
  if b = Memory.unlisted then m else (a, b) :: m

/-- Write one byte, keeping the canonical form. -/
def Memory.set : Memory → Nat → Byte → Memory
  | [], a, b => Memory.cons a b []
  | (k, v) :: m, a, b =>
    if a < k then Memory.cons a b ((k, v) :: m)
    else if k = a then Memory.cons a b m
    else (k, v) :: Memory.set m a b

/-- The byte at a 32-bit address. -/
def Memory.byteAt (m : Memory) (a : Word) : Byte := m.get a.toNat

/-- Write the byte at a 32-bit address. -/
def Memory.setByteAt (m : Memory) (a : Word) (b : Byte) : Memory := m.set a.toNat b

/-- The four bytes of a word, that of the lowest address first (20_memory.md R65). -/
def wordBytes (order : ByteOrder) (v : Word) : Byte × Byte × Byte × Byte :=
  match order with
  | .little => (v.extractLsb' 0 8, v.extractLsb' 8 8, v.extractLsb' 16 8, v.extractLsb' 24 8)
  | .big => (v.extractLsb' 24 8, v.extractLsb' 16 8, v.extractLsb' 8 8, v.extractLsb' 0 8)

/-- The word of four bytes, that of the lowest address first (20_memory.md R65). -/
def bytesWord (order : ByteOrder) (b0 b1 b2 b3 : Byte) : Word :=
  match order with
  | .little => b3 ++ b2 ++ b1 ++ b0
  | .big => b0 ++ b1 ++ b2 ++ b3

/-- The word at a byte address, aligned or not; addresses wrap modulo 2^32 (20_memory.md R60, R76). -/
def Memory.readWord (order : ByteOrder) (m : Memory) (a : Word) : Word :=
  bytesWord order (m.byteAt a) (m.byteAt (a + 1)) (m.byteAt (a + 2)) (m.byteAt (a + 3))

/-- Write a word at a byte address, aligned or not. -/
def Memory.writeWord (order : ByteOrder) (m : Memory) (a v : Word) : Memory :=
  let (b0, b1, b2, b3) := wordBytes order v
  (((m.setByteAt a b0).setByteAt (a + 1) b1).setByteAt (a + 2) b2).setByteAt (a + 3) b3

end Sys2Proof.Machine
end

