-- ==== Sys2Proof/Machine/Operands.lean ====
section
/-! DEFINITION. What an instruction's fields and a host's words stand for: the layout in force, the target address, the inline
words, slot masks, codes of the configuration fields. -/

namespace Sys2Proof.Machine

/-- The layout in force: O and P as CONFIG holds them now (30_encoding.md R80). -/
def State.layout (s : State) : Layout := ⟨s.contWritePos.toNat, s.basePos.toNat⟩

/-- The target address `baseAddress[baseIndex] + offset`, modulo 2^32 (30_encoding.md R85). -/
def State.target (s : State) (base : BaseIndex) (offset : Nat) : Word :=
  s.baseAddress[base] + BitVec.ofNat 32 offset

/-- The address of the k-th word of a block that starts at `a` (20_memory.md R76). -/
def wordAddr (a : Word) (k : Nat) : Word := a + BitVec.ofNat 32 (4 * k)

/-- Whether a byte address is a multiple of 4 (20_memory.md R64). -/
def aligned (a : Word) : Bool := a.extractLsb' 0 2 == 0

/-! ## Slots and masks -/

/-- The eight slot indices, rising. -/
def allSlots : List SlotId := [0, 1, 2, 3, 4, 5, 6, 7]

/-- `min S` of the slots that satisfy `p`, if there is one (00_scope.md R7). -/
def lowest (p : SlotId → Bool) : Option SlotId := allSlots.find? p

/-- Whether a slot is in a mask (00_scope.md R7). -/
def inMask (m : SlotMask) (i : SlotId) : Bool := m.getLsbD i.val

/-- The mask of the slots that satisfy `p` (00_scope.md R7). -/
def maskOf (p : SlotId → Bool) : SlotMask := BitVec.ofFnLE p

/-- The four active states (10_state.md R22). -/
def SlotState.active : SlotState → Bool
  | .running | .inDelay | .waitingForSignal | .waitingForReg => true
  | .idle | .pending => false

/-- A slot record. -/
def State.slot (s : State) (i : SlotId) : Slot := s.slots[i]

/-- The slot that is active, if one is; the lowest, in a state the block never reaches in which several are (10_state.md R22;
log 26). -/
def State.activeSlot (s : State) : Option SlotId := lowest fun i => (s.slot i).state.active

/-- The deferral of a start is still armed (45_sequencer.md R212). -/
def State.deferralArmed (s : State) : Bool := s.timer.armed && s.timer.reason == .deferredStart

/-- The slot whose instruction the executor may execute now: the condition of 40_execution_cycle.md R110. -/
def State.executor (s : State) : Option SlotId :=
  match s.activeSlot with
  | none => none
  | some a =>
    if s.fault.isNone && (s.slot a).state == .running && !s.deferralArmed then some a else none

/-- `pc` of a slot (00_scope.md R8). -/
def State.pc (s : State) (a : SlotId) : Word := (s.slot a).currentAddress

/-! ## Codes of the configuration fields -/

/-- CONFIG.TIMEBASE's value (10_state.md R38). -/
def TimeBase.code : TimeBase → BitVec 2
  | .clock => 0 | .preCountOverflow => 1 | .baseCountOverflow => 2 | .wrapCountOverflow => 3

/-- The time base of a CONFIG.TIMEBASE value (10_state.md R38). -/
def timeBaseOf (v : BitVec 2) : TimeBase :=
  match v.toNat with
  | 0 => .clock | 1 => .preCountOverflow | 2 => .baseCountOverflow | _ => .wrapCountOverflow

/-- The ticks a time base counts; Clock counts none (60_exceptions.md R267, R264). -/
def TimeBase.source : TimeBase → Option TickSource
  | .clock => none
  | .preCountOverflow => some .preCountOverflow
  | .baseCountOverflow => some .baseCountOverflow
  | .wrapCountOverflow => some .wrapCountOverflow

/-- The numeric code of a fault kind (60_exceptions.md R252). -/
def FaultKind.code : FaultKind → Nat
  | .reservedOpcode => 1 | .invalidExt => 2 | .clockTimeBase => 3 | .delayThresholdPassed => 4
  | .resumeInvariant => 5 | .badLayout => 6 | .baseIndexRange => 7 | .zeroRelativeDelay => 8
  | .startNonIdle => 9 | .startWhileDisabled => 10 | .counterOverflow => 11

/-- The fault kind of a decode that fails (30_encoding.md R92). -/
def decodeFaultKind : DecodeReject → FaultKind
  | .badLayout => .badLayout
  | .baseIndexRange => .baseIndexRange
  | .invalidExt => .invalidExt

end Sys2Proof.Machine
end

