-- ==== Sys2Proof/Machine/Ops.lean ====
section
/-! DEFINITION. The named operations over slots, the timer and the bus; the two exceptional events, a fault
(60_exceptions.md R251) and a bus error (R256), each ONE shared operation; and the bus accesses that may raise the second. The
block has no return from either (R258): a fault is terminal, and after a bus error the host starts sequences again. -/

namespace Sys2Proof.Machine

/-- The outcome of a step of this machine. -/
abbrev Outcome := Host.Outcome State Fault Refusal

/-! ## Slots -/

/-- Update one slot record. -/
def State.updateSlot (s : State) (i : SlotId) (f : Slot → Slot) : State :=
  { s with slots := s.slots.set i (f s.slots[i]) }

/-- Update every slot record. -/
def State.mapSlots (s : State) (f : SlotId → Slot → Slot) : State :=
  { s with slots := Vector.ofFn fun i => f i s.slots[i] }

/-- `slot[i].state <- st`. -/
def State.setSlotState (s : State) (i : SlotId) (st : SlotState) : State :=
  s.updateSlot i fun x => { x with state := st }

/-- `pc <- target` (00_scope.md R8). -/
def State.setPc (s : State) (i : SlotId) (target : Word) : State :=
  s.updateSlot i fun x => { x with currentAddress := target }

/-- The fields of a slot's Delay after the delay is over or given up (60_exceptions.md R265, 45_sequencer.md R230). -/
def Slot.clearDelay (x : Slot) : Slot :=
  { x with delayRemainingTicksOrTopValue := 0, delayIsRelative := false }

/-- A slot forced to Idle by an abort or a bus error; `currentAddress` stays (45_sequencer.md R230, 60_exceptions.md R256). -/
def Slot.aborted (x : Slot) : Slot := { x.clearDelay with state := .idle }

/-- Force the slots of `T` to Idle. -/
def State.abortSlots (s : State) (T : SlotId → Bool) : State :=
  s.mapSlots fun i x => if T i then x.aborted else x

/-! ## The countdown timer -/

/-- `Arm(reason, i, tb, n)` (60_exceptions.md R262). -/
def State.arm (s : State) (reason : StartReason) (i : SlotId) (tb : TickSource) (n : Nat) : State :=
  { s with timer := { armed := true, reason := reason, slot := i, tb := tb, remaining := n } }

/-- `Disarm()`: the other fields keep their values (60_exceptions.md R263). -/
def State.disarm (s : State) : State := { s with timer := { s.timer with armed := false } }

/-! ## Faults -/

/-- `raise Fatal`: the block enters the fault state (60_exceptions.md R251). The state it is applied to is the one at the start
of the step, with the bus accesses the step has made: every write of the step to the block is discarded (00_scope.md R8). -/
def State.raiseFatal (s : State) (r : FaultRecord) : State := { s with fault := some r }

/-- A fault an operation raises: its record, and the environment's outstanding overflows at that moment. They belong to the
environment (60_exceptions.md R270, 70_reset_and_hazards.md R300), so a flush of them stays performed (R251 discards writes to
the block's state; log 15). -/
structure Raise where
  record : FaultRecord
  preOutstanding : Nat
deriving DecidableEq, Repr

/-- A step of the block's own operations: the state it leaves, or the fault it raises on the state `s` at its start. -/
def State.settle (s : State) (x : Except Raise State) : Outcome :=
  match x with
  | .ok t => .next t
  | .error e => .next ({ s with preOutstanding := e.preOutstanding }.raiseFatal e.record)

/-- Attribution of a fault inside an instruction (60_exceptions.md R254). -/
def FaultRecord.ofInstr (kind : FaultKind) (a : SlotId) (pc w : Word) : FaultRecord :=
  { kind := kind, slot := some a, address := some pc, word := some w }

/-- Attribution of a fault of a timer expiry or a re-arming (60_exceptions.md R254). -/
def Raise.ofResume (s : State) (kind : FaultKind) (i : SlotId) : Raise :=
  { record := { kind := kind, slot := some i, address := some (s.pc i), word := none }, preOutstanding := s.preOutstanding }

/-- Attribution of a fault of a start request or of the counter (60_exceptions.md R254). -/
def Raise.ofSlot (s : State) (kind : FaultKind) (i : Option SlotId) : Raise :=
  { record := { kind := kind, slot := i, address := none, word := none }, preOutstanding := s.preOutstanding }

/-! ## Bus errors -/

/-- The conditions a bus error raises (60_exceptions.md R256, R280). -/
def busErrorConditions (p : Config.Params) : Conditions :=
  if p.busErrorAbortFlags then busErrorBit ||| seqAbortedBit else busErrorBit

/-- `BusError(addr)` (60_exceptions.md R256): every non-Idle slot becomes Idle, the timer is disarmed, the flags are raised,
control goes nowhere (R257). -/
def State.busError (s : State) (addr : Word) : State :=
  let s1 := { s with busErrAddr := addr }
  let s2 := s1.disarm.abortSlots fun i => (s.slot i).state != SlotState.idle
  (s2.raiseFlags (busErrorConditions s.params)).recompute

/-! ## The bus -/

/-- Whether a region holds a byte address. -/
def regionHolds (r : BusRegion) (addr : Word) : Bool := decide ((addr - r.base).toNat < r.size)

/-- What lies behind a byte address: the first region that holds it; `none` is plain memory (log 5). -/
def State.regionAt (s : State) (addr : Word) : Option RegionKind :=
  (s.params.regions.find? fun r => regionHolds r addr).map (·.kind)

/-- The bytes of the block's own register window: up to the end of the last register of REGMAP (10_state.md R40). -/
def windowBytes (p : Config.Params) : Nat := p.regmap.foldl (fun n e => max n (e.1.toNat + 4)) 0

/-- Whether a byte address lies in the block's own register window (20_memory.md R67, R68; log 9). -/
def State.inWindow (s : State) (addr : Word) : Bool :=
  match s.params.window with
  | none => false
  | some base => decide ((addr - base).toNat < windowBytes s.params)

/-- Whether a word access touches the own window: its first or its last byte lies there. -/
def State.touchesWindow (s : State) (addr : Word) : Bool := s.inWindow addr || s.inWindow (addr + 3)

/-- What BUS answers to one access (20_memory.md R61): a value, an error, or no meaning, which the model refuses. -/
inductive BusAnswer (α : Type) where
  | value (v : α)
  | error
  | noMeaning (r : Refusal)
deriving DecidableEq, Repr

/-- Plain memory's answer to a word access at an address, where an aligned one is answered with `v` (20_memory.md R64; log 8). -/
def State.plainAnswer {α : Type} (s : State) (addr : Word) (v : α) : BusAnswer α :=
  if aligned addr then .value v
  else match s.params.misaligned with
    | .bytes => .value v
    | .error => .error
    | .noAnswer => .noMeaning (.misaligned addr)

/-- `BUS.read(addr)` (20_memory.md R61). -/
def State.busRead (s : State) (addr : Word) : BusAnswer Word :=
  if s.touchesWindow addr then .noMeaning (.ownWindow addr)
  else match s.regionAt addr with
    | some .device => match Config.deviceRead s.trace addr with
      | some v => .value v
      | none => .error
    | some (.failing true _) => .error
    | _ => s.plainAnswer addr (s.mem.readWord s.params.byteOrder addr)

/-- `BUS.write(addr, v)`: the memory after it (20_memory.md R61). A write a peripheral takes leaves memory alone. -/
def State.busWrite (s : State) (addr v : Word) : BusAnswer Memory :=
  if s.touchesWindow addr then .noMeaning (.ownWindow addr)
  else match s.regionAt addr with
    | some .device => if Config.deviceWrite s.trace addr v then .value s.mem else .error
    | some (.failing _ true) => .error
    | _ => s.plainAnswer addr (s.mem.writeWord s.params.byteOrder addr v)

/-- Note an access in the trace (20_memory.md R66). -/
def State.logAccess (s : State) (x : BusAccess) : State := { s with trace := x :: s.trace }

/-- The result of bus accesses inside an instruction: a value and the state after them; a bus error at `addr`, with every
earlier access performed; or a refusal. -/
inductive Access (α : Type) where
  | done (v : α) (s : State)
  | failed (addr : Word) (s : State)
  | refused (r : Refusal)
deriving DecidableEq, Repr

/-- Go on after an access; the first failing access ends the instruction (20_memory.md R62). -/
def Access.andThen {α β : Type} (x : Access α) (k : α → State → Access β) : Access β :=
  match x with
  | .done v s => k v s
  | .failed addr s => .failed addr s
  | .refused r => .refused r

/-- End an instruction after its accesses: a failed one performs `raise BusError` (20_memory.md R62). -/
def Access.outcome {α : Type} (x : Access α) (k : α → State → Outcome) : Outcome :=
  match x with
  | .done v s => k v s
  | .failed addr s => .next (s.busError addr)
  | .refused r => .refused r

/-- `MemRead(addr, 4)` (20_memory.md R62): exactly one access. -/
def memRead (s : State) (addr : Word) : Access Word :=
  match s.busRead addr with
  | .value v => .done v (s.logAccess (.read addr (some v)))
  | .error => .failed addr (s.logAccess (.read addr none))
  | .noMeaning r => .refused r

/-- `MemWrite(addr, 4, v)` (20_memory.md R62): exactly one access; a failing one has no effect (60_exceptions.md R256). -/
def memWrite (s : State) (addr v : Word) : Access Unit :=
  match s.busWrite addr v with
  | .value m => .done () ({ s with mem := m }.logAccess (.write addr v true))
  | .error => .failed addr (s.logAccess (.write addr v false))
  | .noMeaning r => .refused r

/-! ## Block operations of the transfer and logical instructions -/

/-- Copy `n` words: each read immediately followed by its write, ascending; the source advances by a word, the destination by
`dstStep` (41_transfer.md R130, R132; 92_eei_decisions.md D8). -/
def copyWords (dstStep : Word) : Nat → Word → Word → State → Access Unit
  | 0, _, _, s => .done () s
  | n + 1, src, dst, s =>
    (memRead s src).andThen fun v s1 =>
      (memWrite s1 dst v).andThen fun _ s2 =>
        copyWords dstStep n (src + 4) (dst + dstStep) s2

/-- Combine `n` words: the inline word, then the target word, then the write of `op target inline` (42_logical.md R150). -/
def combineWords (op : Word → Word → Word) : Nat → Word → Word → State → Access Unit
  | 0, _, _, s => .done () s
  | n + 1, src, dst, s =>
    (memRead s src).andThen fun v s1 =>
      (memRead s1 dst).andThen fun t s2 =>
        (memWrite s2 dst (op t v)).andThen fun _ s3 =>
          combineWords op n (src + 4) (dst + 4) s3

/-! ## The frame of every meaning -/

/-- Run a meaning for the active slot where an executor step is enabled (40_execution_cycle.md R110: "no rule executes an
instruction of a slot other than `a`"). -/
def State.onExecutor (s : State) (k : SlotId → Outcome) : Outcome :=
  match s.executor with
  | none => .refused .executorNotEnabled
  | some a => k a

/-- Outcome `continue` with `pc <- target` (40_execution_cycle.md R114, R120). -/
def State.continueAt (s : State) (a : SlotId) (target : Word) : Outcome := .next (s.setPc a target)

end Sys2Proof.Machine
end

