-- ==== Sys2Proof/Machine/Sequencer.lean ====
section
/-! DEFINITION. The countdown timer's expiry, the absolute-delay counter, the sequence state machine and the arbiter
(45_sequencer.md R210 to R235; 60_exceptions.md R260 to R275). An operation that may raise a fault answers
`Except Raise State`; the step it belongs to settles it (`State.settle`). -/

namespace Sys2Proof.Machine

/-! ## Arming a delay -/

/-- `RemainingDelayTicks(i)`, of the slot's record (60_exceptions.md R264). -/
def remainingDelayTicks (s : State) (x : Slot) : Except FaultKind Nat :=
  if x.delayIsRelative then
    if x.delayRemainingTicksOrTopValue = 0 then
      match s.params.relDelayZero with
      | .fault => .error .zeroRelativeDelay
      | .nextTick => .ok 1
    else .ok x.delayRemainingTicksOrTopValue.toNat
  else if x.delayRemainingTicksOrTopValue.toNat ≤ s.absoluteDelayCounter then .error .delayThresholdPassed
  else .ok (x.delayRemainingTicksOrTopValue.toNat - s.absoluteDelayCounter)

/-- `ArmDelay(i)` (60_exceptions.md R264), with the fault kind it may raise. -/
def armDelay (s : State) (i : SlotId) : Except FaultKind State :=
  match s.timeBase.source with
  | none => .error .clockTimeBase
  | some tb =>
    match remainingDelayTicks s (s.slot i) with
    | .error k => .error k
    | .ok n => .ok (s.arm .delay i tb n)

/-- `ArmDelay(i)` of an expiry or of a counter reset, with the attribution of 60_exceptions.md R254. -/
def rearmDelay (s : State) (i : SlotId) : Except Raise State :=
  match armDelay s i with
  | .error k => .error (Raise.ofResume s k i)
  | .ok t => .ok t

/-! ## The absolute-delay counter -/

/-- The counter's share of `Tick(src, n)`: it counts the ticks of CONFIG.TIMEBASE and faults past its limit (60_exceptions.md
R267, R269). DESIGN CHOICE (log 37): R254 names "the active slot if any" and no moment for it; the record holds the slot that is
active when the increment is made, `s` being the state of that moment. In a CMD write this is after the write's own abort and,
for an immediate start, after its Start: a slot just started is named, one just aborted is not. -/
def countTick (s : State) (src : TickSource) (n : Nat) : Except Raise State :=
  if s.timeBase.source = some src then
    if s.absoluteDelayCounter + n ≤ s.params.absCounterLimit then
      .ok { s with absoluteDelayCounter := s.absoluteDelayCounter + n }
    else .error (Raise.ofSlot s .counterOverflow s.activeSlot)
  else .ok s

/-- The second half of `ResetAbsCounter()`: zero the counter, then restart an absolute Delay in progress against the new
baseline (60_exceptions.md R268). -/
def zeroAndRestart (s : State) : Except Raise State :=
  let s0 := { s with absoluteDelayCounter := 0 }
  match s0.activeSlot with
  | some a =>
    if (s0.slot a).state = .inDelay ∧ (s0.slot a).delayIsRelative = false then rearmDelay s0.disarm a else .ok s0
  | none => .ok s0

/-- `ResetAbsCounter()` while the timer is not armed: the flushed ticks only count, since `CountDown` has no armed timer to
count down (60_exceptions.md R261, R268). This is the form an expiry calls, which has disarmed the timer (log 25). -/
def resetAbsCounterUnarmed (s : State) : Except Raise State :=
  let s0 := { s with preOutstanding := 0 }
  if s.preOutstanding = 0 then zeroAndRestart s0
  else match countTick s0 .preCountOverflow s.preOutstanding with
    | .error r => .error r
    | .ok s1 => zeroAndRestart s1

/-! ## Expiry -/

/-- `PostStart(i)` at the expiry of a deferral (45_sequencer.md R213). -/
def postStartAtExpiry (s : State) (i : SlotId) : Except Raise State :=
  if (s.slot i).state ≠ .running then .error (Raise.ofResume s .resumeInvariant i)
  else if (s.slot i).disableAbsoluteDelayReset then .ok s
  else resetAbsCounterUnarmed s

/-- The slot's Delay is over: it resumes at its `currentAddress`, which Delay has advanced (60_exceptions.md R265). -/
def Slot.resumed (x : Slot) : Slot := { x.clearDelay with state := .running }

/-- The expiry of a Delay (60_exceptions.md R265): an absolute one is re-checked against the counter. -/
def expireDelay (s : State) (i : SlotId) : Except Raise State :=
  if (s.slot i).state ≠ .inDelay then .error (Raise.ofResume s .resumeInvariant i)
  else if (s.slot i).delayIsRelative = false ∧
      s.absoluteDelayCounter < (s.slot i).delayRemainingTicksOrTopValue.toNat then rearmDelay s i
  else .ok (s.updateSlot i Slot.resumed)

/-- The expiry of a poll retry: `pc` still at the WaitForReg (60_exceptions.md R266). -/
def expirePollRetry (s : State) (i : SlotId) : Except Raise State :=
  if (s.slot i).state ≠ .waitingForReg then .error (Raise.ofResume s .resumeInvariant i)
  else .ok (s.setSlotState i .running)

/-- `Expire()` (60_exceptions.md R265, R266). -/
def expire (s : State) : Except Raise State :=
  match s.timer.reason with
  | .deferredStart => postStartAtExpiry s.disarm s.timer.slot
  | .delay => expireDelay s.disarm s.timer.slot
  | .pollRetry => expirePollRetry s.disarm s.timer.slot

/-! ## Ticks -/

/-- Whether an event of a time base counts an armed timer down: always under EventCounted; under Free only a deferral and a
poll retry "still need one event of their `tb`" (60_exceptions.md R261, R274; log 28). -/
def eventsCountDown (s : State) : Bool :=
  match s.params.countdownModel with
  | .eventCounted => true
  | .free => s.timer.reason != .delay

/-- `CountDown(src, n)` (60_exceptions.md R261). -/
def countDown (s : State) (src : TickSource) (n : Nat) : Except Raise State :=
  if s.timer.armed ∧ s.timer.tb = src ∧ eventsCountDown s then
    let s1 := { s with timer := { s.timer with remaining := s.timer.remaining - n } }
    if s1.timer.remaining = 0 then expire s1 else .ok s1
  else .ok s

/-- `Tick(src, n)`: first the counter, then the countdown (60_exceptions.md R271). -/
def tick (s : State) (src : TickSource) (n : Nat) : Except Raise State :=
  match countTick s src n with
  | .error r => .error r
  | .ok s1 => countDown s1 src n

/-- `ResetAbsCounter()` (60_exceptions.md R268): flush the outstanding pre-count overflows as one tick, zero the counter,
restart an absolute Delay. -/
def resetAbsCounter (s : State) : Except Raise State :=
  let s0 := { s with preOutstanding := 0 }
  if s.preOutstanding = 0 then zeroAndRestart s0
  else match tick s0 .preCountOverflow s.preOutstanding with
    | .error r => .error r
    | .ok s1 => zeroAndRestart s1

/-! ## Start, the arbiter, completion and abort -/

/-- The slot's record at a Start (45_sequencer.md R212). -/
def Slot.started (x : Slot) : Slot :=
  { x.clearDelay with currentAddress := x.startAddress, waitSigPred := .allSet, waitSigData := 0, state := .running }

/-- `Start(i, deferred = true)` (45_sequencer.md R212): the first instruction waits for one tick of the fastest time base. -/
def startDeferred (s : State) (i : SlotId) : State :=
  (s.updateSlot i Slot.started).arm .deferredStart i .preCountOverflow 1

/-- `PostStart(i)` of an immediate Start (45_sequencer.md R213). -/
def postStart (s : State) (i : SlotId) : Except Raise State :=
  if (s.slot i).state ≠ .running then .error (Raise.ofResume s .resumeInvariant i)
  else if (s.slot i).disableAbsoluteDelayReset then .ok s
  else resetAbsCounter s

/-- `Start(i, deferred)` (45_sequencer.md R212). -/
def start (s : State) (i : SlotId) (deferred : Bool) : Except Raise State :=
  if deferred then .ok (startDeferred s i) else postStart (s.updateSlot i Slot.started) i

/-- `slot[i].state <- Pending` for the slots of a mask. -/
def State.makePending (s : State) (m : SlotMask) : State :=
  s.mapSlots fun i x => if inMask m i then { x with state := .pending } else x

/-- The arbiter's choice for a request of Idle slots: the lowest starts if no slot is active and the others become Pending; all
become Pending otherwise (45_sequencer.md R214). -/
def arbitrate (s : State) (m : SlotMask) (deferred : Bool) : Except Raise State :=
  match s.activeSlot, lowest (inMask m) with
  | none, some i0 => start (s.makePending (m &&& ~~~(1#8 <<< i0.val))) i0 deferred
  | _, _ => .ok (s.makePending m)

/-- The slots of a request that are not Idle: the set N of 45_sequencer.md R214. -/
def notIdleIn (s : State) (m : SlotMask) : SlotMask :=
  maskOf fun i => inMask m i && (s.slot i).state != .idle

/-- The request after its EN check (45_sequencer.md R214): START_NON_IDLE decides about slots that are not Idle. -/
def requestIdle (s : State) (m : SlotMask) (deferred : Bool) : Except Raise State :=
  match lowest (inMask (notIdleIn s m)) with
  | none => arbitrate s m deferred
  | some i =>
    match s.params.startNonIdle with
    | .fault => .error (Raise.ofSlot s .startNonIdle (some i))
    | .ignore =>
      if m &&& ~~~(notIdleIn s m) = 0 then .ok s else arbitrate s (m &&& ~~~(notIdleIn s m)) deferred

/-- `RequestStart(M, deferred)` (45_sequencer.md R214). -/
def requestStart (s : State) (m : SlotMask) (deferred : Bool) : Except Raise State :=
  if m = 0 then .ok s
  else if s.en then requestIdle s m deferred
  else match s.params.enPolicy with
    | .fault => .error (Raise.ofSlot s .startWhileDisabled (lowest (inMask m)))
    | .ignore => .ok s
    | .none => requestIdle s m deferred

/-- `Dispatch()`: the lowest Pending slot is started, deferred (45_sequencer.md R217). -/
def dispatch (s : State) : State :=
  match lowest fun i => (s.slot i).state == .pending with
  | some i => startDeferred s i
  | none => s

/-- `Complete(a)` (45_sequencer.md R218). -/
def complete (s : State) (a : SlotId) : State :=
  dispatch (((s.setSlotState a .idle).raiseFlags (seqDoneBit a)).recompute)

/-- The slots an abort of a mask takes: the set T of 45_sequencer.md R230. -/
def abortTargets (s : State) (m : SlotMask) (i : SlotId) : Bool := inMask m i && (s.slot i).state != .idle

/-- The active slot is among the slots an abort takes: `hit` of 45_sequencer.md R230. -/
def abortHits (s : State) (m : SlotMask) : Bool :=
  match s.activeSlot with
  | some a => abortTargets s m a
  | none => false

/-- `Abort(M)` without its last line: the slots, the timer and the flags (45_sequencer.md R230, R232). -/
def abortOnly (s : State) (m : SlotMask) : State :=
  let s1 := if abortHits s m then s.disarm else s
  let s2 := s1.abortSlots (abortTargets s m)
  if (lowest (abortTargets s m)).isSome then (s2.raiseFlags seqAbortedBit).recompute else s2

/-- `Abort(M)` (45_sequencer.md R230); arbitration after it is ARBITRATE_ON_ABORT (R233). -/
def abort (s : State) (m : SlotMask) : State :=
  if abortHits s m && s.params.arbitrateOnAbort then dispatch (abortOnly s m) else abortOnly s m

end Sys2Proof.Machine
end

