-- ==== Sys2Proof/Machine/Control.lean ====
section
/-! DEFINITION. Jump, SetTrig, SkipCond, EndSeqOrNop and Reserved (44_control.md R190 to R200). -/

namespace Sys2Proof.Machine

/-- Where a Jump at `pc` with data word `d` goes (44_control.md R190); 0 is a no-op in either mode (R191). -/
def jumpTarget (mode : JumpMode) (pc d : Word) : Word :=
  if d = 0 then pc + 8
  else match mode with
    | .relative => pc + 8 + d
    | .absolute => d

/-- Jump (44_control.md R190). -/
def execJump (mode : JumpMode) (_base : BaseIndex) (_offset : Nat) (s : State) : Outcome :=
  s.onExecutor fun a =>
    (memRead s (s.pc a + 4)).outcome fun d t => t.continueAt a (jumpTarget mode (s.pc a) d)

/-- The trigger bitmask after SetTrig (44_control.md R196). -/
def trigApply (op : TrigOp) (old m : Word) : Word :=
  match op with
  | .write => m
  | .set => old ||| m
  | .clear => old &&& ~~~m
  | .toggle => old ^^^ m

/-- SetTrig (44_control.md R196). -/
def execSetTrig (op : TrigOp) (_base : BaseIndex) (_offset : Nat) (s : State) : Outcome :=
  s.onExecutor fun a =>
    (memRead s (s.pc a + 4)).outcome fun m t =>
      { t with triggerBitmask := trigApply op t.triggerBitmask m }.continueAt a (s.pc a + 8)

/-- The condition of a SkipCond, with the accesses of its variant: a signal variant does not read the target
(44_control.md R193). -/
def skipTest (cond : SkipCondition) (inl tgt : Word) (s : State) : Access Bool :=
  match cond with
  | .reg p => (memRead s tgt).andThen fun v t => (memRead t inl).andThen fun d u => .done (u.pred p v d) u
  | .sig p => (memRead s inl).andThen fun d t => .done (t.pred p t.signalBitmask d) t

/-- SkipCond: 16 bytes on when the condition holds, 8 when not, whatever follows (44_control.md R193, R194). -/
def execSkipCond (cond : SkipCondition) (base : BaseIndex) (offset : Nat) (s : State) : Outcome :=
  s.onExecutor fun a =>
    (skipTest cond (s.pc a + 4) (s.target base offset) s).outcome fun c t =>
      t.continueAt a (if c then s.pc a + 16 else s.pc a + 8)

/-- EndSeqOrNop (44_control.md R198). -/
def execEndSeqOrNop (op : EndOp) (_base : BaseIndex) (_offset : Nat) (s : State) : Outcome :=
  s.onExecutor fun a =>
    match op with
    | .nop => s.continueAt a (s.pc a + 4)
    | .endSeq => .next (complete s a)

/-- Reserved: `Fatal(ReservedOpcode)`, no access beyond the fetch (44_control.md R200). -/
def execReserved (payload : BitVec 28) (s : State) : Outcome :=
  s.onExecutor fun a =>
    .next (s.raiseFatal
      (FaultRecord.ofInstr .reservedOpcode a (s.pc a) (encode s.params.maps s.layout (.reserved payload))))

end Sys2Proof.Machine
end

