-- ==== Sys2Proof/Machine/Transfer.lean ====
section
/-! DEFINITION. Write, WriteNoInc, Mov, MovNoInc and MoveBlock (41_transfer.md R130 to R138). -/

namespace Sys2Proof.Machine

/-- Where the copy and logical opcodes go on: the word after the last inline word (41_transfer.md R130). -/
def afterInline (pc : Word) (length : Nat) : Word := pc + 4 + BitVec.ofNat 32 (4 * length)

/-- Write: `length` inline words to target, ascending; MOVSWAP is not read (41_transfer.md R130, R135). -/
def execWrite (base : BaseIndex) (offset length : Nat) (s : State) : Outcome :=
  s.onExecutor fun a =>
    (copyWords 4 length (s.pc a + 4) (s.target base offset) s).outcome fun _ t =>
      t.continueAt a (afterInline (s.pc a) length)

/-- WriteNoInc: every inline word to the same target, each write performed (41_transfer.md R132, R133). -/
def execWriteNoInc (base : BaseIndex) (offset length : Nat) (s : State) : Outcome :=
  s.onExecutor fun a =>
    (copyWords 0 length (s.pc a + 4) (s.target base offset) s).outcome fun _ t =>
      t.continueAt a (afterInline (s.pc a) length)

/-- Mov: inline words to target, or with MOVSWAP target words into the inline area (41_transfer.md R134). -/
def execMov (base : BaseIndex) (offset length : Nat) (s : State) : Outcome :=
  s.onExecutor fun a =>
    let inl := s.pc a + 4
    let tgt := s.target base offset
    let copy := if (s.slot a).movSwapAddresses then copyWords 4 length tgt inl s else copyWords 4 length inl tgt s
    copy.outcome fun _ t => t.continueAt a (afterInline (s.pc a) length)

/-- MovNoInc: every inline word to the same target; MOVSWAP is ignored, UNVERIFIED (41_transfer.md R136; log 21). -/
def execMovNoInc (base : BaseIndex) (offset length : Nat) (s : State) : Outcome :=
  s.onExecutor fun a =>
    (copyWords 0 length (s.pc a + 4) (s.target base offset) s).outcome fun _ t =>
      t.continueAt a (afterInline (s.pc a) length)

/-- MoveBlock: between the address in the inline word and target; `pc + 8` whatever the length (41_transfer.md R138). -/
def execMoveBlock (base : BaseIndex) (offset length : Nat) (s : State) : Outcome :=
  s.onExecutor fun a =>
    let tgt := s.target base offset
    let copy := (memRead s (s.pc a + 4)).andThen fun ind t =>
      if (s.slot a).movSwapAddresses then copyWords 4 length tgt ind t else copyWords 4 length ind tgt t
    copy.outcome fun _ t => t.continueAt a (s.pc a + 8)

end Sys2Proof.Machine
end

