-- ==== Sys2Proof/Machine/Logical.lean ====
section
/-! DEFINITION. And, Xor and Or (42_logical.md R150 to R152): each a read-modify-write of `length` target words. -/

namespace Sys2Proof.Machine

/-- And (42_logical.md R150). -/
def execAnd (base : BaseIndex) (offset length : Nat) (s : State) : Outcome :=
  s.onExecutor fun a =>
    (combineWords (· &&& ·) length (s.pc a + 4) (s.target base offset) s).outcome fun _ t =>
      t.continueAt a (afterInline (s.pc a) length)

/-- Xor (42_logical.md R151). -/
def execXor (base : BaseIndex) (offset length : Nat) (s : State) : Outcome :=
  s.onExecutor fun a =>
    (combineWords (· ^^^ ·) length (s.pc a + 4) (s.target base offset) s).outcome fun _ t =>
      t.continueAt a (afterInline (s.pc a) length)

/-- Or (42_logical.md R152). -/
def execOr (base : BaseIndex) (offset length : Nat) (s : State) : Outcome :=
  s.onExecutor fun a =>
    (combineWords (· ||| ·) length (s.pc a + 4) (s.target base offset) s).outcome fun _ t =>
      t.continueAt a (afterInline (s.pc a) length)

end Sys2Proof.Machine
end

