-- ==== Sys2Proof/Machine/Wait.lean ====
section
/-! DEFINITION. Delay, WaitForReg and WaitForSig (43_wait.md R170, R172, R175). -/

namespace Sys2Proof.Machine

/-- The slot's record when its Delay suspends (43_wait.md R170). -/
def Slot.delayed (x : Slot) (pc T : Word) (mode : DelayMode) : Slot :=
  { x with
    currentAddress := pc + 8
    delayRemainingTicksOrTopValue := T
    delayIsRelative := mode == .relative
    state := .inDelay }

/-- Delay (43_wait.md R170). A fault leaves the block as it was but for the read of T (00_scope.md R8); its record holds the
instruction's word, which the decoded fields give back (10_state.md R44; log 17). -/
def execDelay (mode : DelayMode) (base : BaseIndex) (offset : Nat) (s : State) : Outcome :=
  s.onExecutor fun a =>
    (memRead s (s.pc a + 4)).outcome fun T t =>
      match armDelay (t.updateSlot a fun x => x.delayed (s.pc a) T mode) a with
      | .ok u => .next u
      | .error k =>
        .next (t.raiseFatal
          (FaultRecord.ofInstr k a (s.pc a) (encode s.params.maps s.layout (.delay mode base offset))))

/-- WaitForReg: the target is read first, then the inline word (43_wait.md R172, 92_eei_decisions.md D11). -/
def execWaitForReg (p : Predicate) (base : BaseIndex) (offset : Nat) (s : State) : Outcome :=
  s.onExecutor fun a =>
    let reads := (memRead s (s.target base offset)).andThen fun v t =>
      (memRead t (s.pc a + 4)).andThen fun d u => .done (v, d) u
    reads.outcome fun vd t =>
      if t.pred p vd.1 vd.2 then t.continueAt a (s.pc a + 8)
      else .next ((t.setSlotState a .waitingForReg).arm .pollRetry a .pollTick 1)

/-- WaitForSig: no timer is armed; the slot keeps its predicate and data word (43_wait.md R175). -/
def execWaitForSig (p : Predicate) (_base : BaseIndex) (_offset : Nat) (s : State) : Outcome :=
  s.onExecutor fun a =>
    (memRead s (s.pc a + 4)).outcome fun d t =>
      if t.pred p t.signalBitmask d then t.continueAt a (s.pc a + 8)
      else .next (t.updateSlot a fun x => { x with waitSigPred := p, waitSigData := d, state := .waitingForSignal })

end Sys2Proof.Machine
end

