-- ==== Sys2Proof/Machine/Dispatch.lean ====
section
/-! DEFINITION. One arm per instruction (40_execution_cycle.md R113, R116). -/

namespace Sys2Proof.Machine

def exec (i : Instr) (s : State) : Host.Outcome State Fault Refusal :=
  match i with
  | .write base offset length => Sys2Proof.Machine.execWrite base offset length s
  | .writeNoInc base offset length => Sys2Proof.Machine.execWriteNoInc base offset length s
  | .mov base offset length => Sys2Proof.Machine.execMov base offset length s
  | .movNoInc base offset length => Sys2Proof.Machine.execMovNoInc base offset length s
  | .moveBlock base offset length => Sys2Proof.Machine.execMoveBlock base offset length s
  | .and base offset length => Sys2Proof.Machine.execAnd base offset length s
  | .xor base offset length => Sys2Proof.Machine.execXor base offset length s
  | .or base offset length => Sys2Proof.Machine.execOr base offset length s
  | .delay mode base offset => Sys2Proof.Machine.execDelay mode base offset s
  | .waitForReg pred base offset => Sys2Proof.Machine.execWaitForReg pred base offset s
  | .waitForSig pred base offset => Sys2Proof.Machine.execWaitForSig pred base offset s
  | .jump mode base offset => Sys2Proof.Machine.execJump mode base offset s
  | .setTrig op base offset => Sys2Proof.Machine.execSetTrig op base offset s
  | .skipCond cond base offset => Sys2Proof.Machine.execSkipCond cond base offset s
  | .endSeqOrNop op base offset => Sys2Proof.Machine.execEndSeqOrNop op base offset s
  | .reserved payload => Sys2Proof.Machine.execReserved payload s

end Sys2Proof.Machine
end

