-- ==== Sys2Proof/Machine/HostRegs.lean ====
section
/-! DEFINITION. The host's register surface (10_state.md R40, R46, R47) and its command register (45_sequencer.md R235). -/

namespace Sys2Proof.Machine

/-! ## Reads -/

/-- CONFIG as a word: BASEPOS in 20:16, CONTWRITEPOS in 12:8, TIMEBASE in 1:0; the reserved bits read 0 (10_state.md R40). -/
def State.configWord (s : State) : Word := 0#11 ++ s.basePos ++ 0#3 ++ s.contWritePos ++ 0#6 ++ s.timeBase.code

/-- SEQCFG[i] as a word (10_state.md R40). -/
def Slot.cfgWord (x : Slot) : Word :=
  0#20 ++ BitVec.ofBool x.movSwapAddresses ++ BitVec.ofBool x.disableAbsoluteDelayReset
    ++ x.hardwareTriggerMode ++ x.hardwareStartSelect

/-- STATUS: RUNNING of the active slot, PENDING of the Pending slots (10_state.md R46). -/
def State.statusWord (s : State) : Word :=
  0#16 ++ (maskOf fun i => (s.slot i).state == .pending) ++ (maskOf fun i => (s.slot i).state.active)

/-- SEQADDR: the active slot's `currentAddress`; a free value while no slot is active (10_state.md R46; log 13). -/
def State.seqAddrWord (s : State) : Word :=
  match s.activeSlot with
  | some a => s.pc a
  | none => Config.seqAddrIdle s.freeDraws

/-- The value a host read of a register returns (10_state.md R40, R46, R47). -/
def State.regValue (s : State) (r : HostReg) : Word :=
  match r with
  | .en => (BitVec.ofBool s.en).setWidth 32
  | .cmd => 0
  | .status => s.statusWord
  | .seqAddr => s.seqAddrWord
  | .config => s.configWord
  | .eqMaskA => s.eqMaskA
  | .eqMaskB => s.eqMaskB
  | .busErrAddr => s.busErrAddr
  | .ifReg => s.ifReg.setWidth 32
  | .ien => s.ien.setWidth 32
  | .seqIf => s.seqIf.setWidth 32
  | .seqIen => s.seqIen.setWidth 32
  | .baseAddr k => s.baseAddress[k]
  | .seqStart i => (s.slot i).startAddress
  | .seqCfg i => (s.slot i).cfgWord

/-- A host read: it returns the value and changes nothing of the block (10_state.md R46). A read of SEQADDR draws a fresh free
value for the next one. -/
def hostReadReg (s : State) (r : HostReg) : State :=
  { s with
    hostReadData := s.regValue r
    freeDraws := if r = .seqAddr then s.freeDraws + 1 else s.freeDraws }

/-! ## Writes -/

/-- The slot's record after a write of SEQCFG[i] (10_state.md R40). -/
def Slot.withCfg (x : Slot) (v : Word) : Slot :=
  { x with
    hardwareStartSelect := v.extractLsb' 0 8
    hardwareTriggerMode := v.extractLsb' 8 2
    disableAbsoluteDelayReset := v.getLsbD 10
    movSwapAddresses := v.getLsbD 11 }

/-- Go on after an operation that may raise a fault. -/
def Except.andThenState (x : Except Raise State) (k : State → Except Raise State) : Except Raise State :=
  match x with
  | .ok s => k s
  | .error r => .error r

/-- `HostWriteCMD(v)`: abort, then counter reset, then start (45_sequencer.md R235). -/
def hostWriteCmd (s : State) (v : Word) : Except Raise State :=
  let aborts : SlotMask := v.extractLsb' 8 8
  let starts : SlotMask := v.extractLsb' 0 8
  let s1 := if aborts = 0 then s else abort s aborts
  Except.andThenState (if v.getLsbD 16 then resetAbsCounter s1 else .ok s1) fun s2 =>
    if starts = 0 then .ok s2 else requestStart s2 starts false

/-- A host write of a register: the named fields of an RW register, the commands of CMD, nothing for a read-only one
(10_state.md R40, R47). A write of IF, IEN, SEQIF or SEQIEN recomputes the lines. -/
def hostWriteReg (s : State) (r : HostReg) (v : Word) : Except Raise State :=
  match r with
  | .en => .ok { s with en := v.getLsbD 0 }
  | .cmd => hostWriteCmd s v
  | .status => .ok s
  | .seqAddr => .ok s
  | .config =>
    .ok { s with
      timeBase := timeBaseOf (v.extractLsb' 0 2), contWritePos := v.extractLsb' 8 5, basePos := v.extractLsb' 16 5 }
  | .eqMaskA => .ok { s with eqMaskA := v }
  | .eqMaskB => .ok { s with eqMaskB := v }
  | .busErrAddr => .ok s
  | .ifReg => .ok { s with ifReg := v.extractLsb' 0 10 }.recompute
  | .ien => .ok { s with ien := v.extractLsb' 0 10 }.recompute
  | .seqIf => .ok { s with seqIf := v.extractLsb' 0 10 }.recompute
  | .seqIen => .ok { s with seqIen := v.extractLsb' 0 10 }.recompute
  | .baseAddr k => .ok { s with baseAddress := s.baseAddress.set k v }
  | .seqStart i => .ok (s.updateSlot i fun x => { x with startAddress := v })
  | .seqCfg i => .ok (s.updateSlot i fun x => x.withCfg v)

/-! ## Turns of the host -/

/-- The register at an offset, if REGMAP has one (10_state.md R40). -/
def State.regAt (s : State) (offset : Word) : Option HostReg := s.params.regmap.lookup offset

/-- The host's read turn; other widths and unmapped offsets are refused (10_state.md R40). -/
def hostRead (s : State) (width : AccessWidth) (offset : Word) : Outcome :=
  if width ≠ .word then .refused (.hostWidth width)
  else match s.regAt offset with
    | some r => .next (hostReadReg s r)
    | none => .refused (.unmappedOffset offset)

/-- The host's write turn; other widths and unmapped offsets are refused (10_state.md R40). -/
def hostWrite (s : State) (width : AccessWidth) (offset value : Word) : Outcome :=
  if width ≠ .word then .refused (.hostWidth width)
  else match s.regAt offset with
    | some r => s.settle (hostWriteReg s r value)
    | none => .refused (.unmappedOffset offset)

end Sys2Proof.Machine
end

