-- ==== Sys2Proof/Machine/Events.lean ====
section
/-! DEFINITION. The environment's events, each one atomic turn (60_exceptions.md R270 to R275, 43_wait.md R176, R177,
45_sequencer.md R220, 70_reset_and_hazards.md R300, 20_memory.md R72). No event accesses the bus for the core (R271). -/

namespace Sys2Proof.Machine

/-- A `Tick(src, n)` of the environment; an event of no tick is not enabled and changes nothing (60_exceptions.md R270; log 2). -/
def tickEvent (s : State) (src : TickSource) (n : Nat) : Outcome :=
  if n = 0 then .next s else s.settle (tick s src n)

/-- PreOverflow: delivers the outstanding pre-count overflows at once (60_exceptions.md R270). -/
def preOverflow (s : State) : Outcome :=
  if s.preOutstanding = 0 then .next s
  else s.settle (tick { s with preOutstanding := 0 } .preCountOverflow s.preOutstanding)

/-- The slots a hardware event starts (45_sequencer.md R220); every mode but 0 is enabled (R221). -/
def hwEventMask (s : State) (e : BitVec 8) : SlotMask :=
  maskOf fun i => (s.slot i).state == .idle && (s.slot i).hardwareStartSelect == e && (s.slot i).hardwareTriggerMode != 0

/-- `HwEvent(e)` (45_sequencer.md R220). -/
def hwEvent (s : State) (e : BitVec 8) : Outcome := s.settle (requestStart s (hwEventMask s e) true)

/-- Expire as an environment event: under COUNTDOWN_MODEL = Free, for an armed Delay (60_exceptions.md R274; log 28). -/
def timerExpire (s : State) : Outcome :=
  if s.timer.armed ∧ eventsCountDown s = false then s.settle (expire s) else .next s

/-- `SignalSet(m)`: the signals rise, and a slot that waits for them wakes if its predicate holds (43_wait.md R176). -/
def signalSet (s : State) (m : Word) : State :=
  let s1 := { s with signalBitmask := s.signalBitmask ||| m }
  match s1.activeSlot with
  | some a =>
    if (s1.slot a).state = .waitingForSignal ∧ s1.pred (s1.slot a).waitSigPred s1.signalBitmask (s1.slot a).waitSigData then
      s1.updateSlot a fun x => { x with currentAddress := x.currentAddress + 8, state := .running }
    else s1
  | none => s1

/-- `SignalClear(m)`: never wakes a slot (43_wait.md R177). -/
def signalClear (s : State) (m : Word) : State := { s with signalBitmask := s.signalBitmask &&& ~~~m }

/-- Reset as an event: every element of the block takes its reset value; the environment's state and the model's own fields
stay (70_reset_and_hazards.md R300, R302; log 34). -/
def resetBlock (s : State) : State :=
  { State.reset with
    preOutstanding := s.preOutstanding
    mem := s.mem
    trace := s.trace
    hostReadData := s.hostReadData
    freeDraws := s.freeDraws
    schedule := s.schedule
    params := s.params
    fault := s.fault }

/-- Another bus master writes a word: memory takes it unless the address is a region's that is no plain memory for writes
(20_memory.md R72; log 27). -/
def masterWrite (s : State) (addr v : Word) : Outcome :=
  match s.busWrite addr v with
  | .value m => .next { s with mem := m }
  | .error => .next s
  | .noMeaning r => .refused r

/-- Another bus master writes one byte (20_memory.md R65; log 27). -/
def masterWriteByte (s : State) (addr : Word) (b : Byte) : Outcome :=
  if s.inWindow addr then .refused (.ownWindow addr)
  else match s.regionAt addr with
    | some .device => .next s
    | some (.failing _ true) => .next s
    | _ => .next { s with mem := s.mem.setByteAt addr b }

end Sys2Proof.Machine
end

