-- ==== Sys2Proof/Machine/Executor.lean ====
section
/-! DEFINITION. The executor's step (40_execution_cycle.md R110 to R116) and the turns of all agents (00_scope.md R6). -/

namespace Sys2Proof.Machine

/-- Fetch: a fresh read of the word at `pc` (40_execution_cycle.md R112). -/
def fetch (s : State) (a : SlotId) : Access Word := memRead s (s.pc a)

/-- Decode under the maps and the layout in force, and run the instruction or raise the decode's fault (40_execution_cycle.md R113). `s` is
the state after the fetch. -/
def decodeAndExec (a : SlotId) (w : Word) (s : State) : Outcome :=
  match decode s.params.maps s.layout w with
  | .ok i => exec i s
  | .error r => .next (s.raiseFatal (FaultRecord.ofInstr (decodeFaultKind r) a (s.pc a) w))

/-- The executor's turn: one instruction of the active slot; nothing where it is not enabled (40_execution_cycle.md R110, R116;
70_reset_and_hazards.md R301). -/
def executorStep (s : State) : Outcome :=
  match s.executor with
  | none => .next s
  | some a => (fetch s a).outcome fun w t => decodeAndExec a w t

/-- One turn of one agent (00_scope.md R6, 60_exceptions.md R271). A turn that is not enabled changes nothing (log 2). -/
def takeTurn (t : Turn) (s : State) : Outcome :=
  match t with
  | .executor => executorStep s
  | .hostRead width offset => hostRead s width offset
  | .hostWrite width offset value => hostWrite s width offset value
  | .masterWrite addr value => masterWrite s addr value
  | .masterWriteByte addr value => masterWriteByte s addr value
  | .preAccrue => .next { s with preOutstanding := s.preOutstanding + 1 }
  | .preOverflow => preOverflow s
  | .baseOverflow n => tickEvent s .baseCountOverflow n
  | .wrapOverflow n => tickEvent s .wrapCountOverflow n
  | .captureCompare channel => hwEvent s (Config.ccEventId channel)
  | .hwEvent e => hwEvent s e
  | .pollTick => s.settle (countDown s .pollTick 1)
  | .timerExpire => timerExpire s
  | .signalSet m => .next (signalSet s m)
  | .signalClear m => .next (signalClear s m)
  | .reset => .next (resetBlock s)

/-- The agent that moves next and the schedule it leaves. With ATOMIC_RUN the executor moves as long as it is enabled; without
it the schedule says who moves, and once it is empty the executor does (40_execution_cycle.md R119; log 1). -/
def nextTurn (s : State) : Turn × List Turn :=
  if s.params.atomicRun && s.executor.isSome then (.executor, s.schedule)
  else match s.schedule with
    | [] => (.executor, [])
    | t :: rest => (t, rest)

/-- One step of the machine where no fault is recorded. -/
def machineStep (s : State) : Outcome :=
  takeTurn (nextTurn s).1 { s with schedule := (nextTurn s).2 }

/-! ## Placing one instruction for the executor -/

/-- The slot that runs a placed instruction: the active one, or slot 0. -/
def placedSlot (s : State) : SlotId := s.activeSlot.getD 0

/-- The state in which the next step is the executor's, runs `placedSlot s`, and decodes under `tableLayout` and the default
maps; the bus answers the fetch from plain memory (log 19). -/
def readyToFetch (s : State) : State :=
  { s.setSlotState (placedSlot s) .running with
    fault := none
    schedule := []
    timer := { s.timer with armed := s.timer.armed && s.timer.reason != .deferredStart }
    contWritePos := BitVec.ofNat 5 tableLayout.o
    basePos := BitVec.ofNat 5 tableLayout.p
    params := { s.params with maps := .default, regions := [], window := none, misaligned := .bytes } }

/-- Two words at an address, in the platform's byte order: the longest instruction under `tableLayout`. -/
def placeWords (s : State) (addr w0 w1 : Word) : State :=
  { s with mem := (s.mem.writeWord s.params.byteOrder addr w0).writeWord s.params.byteOrder (addr + 4) w1 }

end Sys2Proof.Machine
end

