-- ==== Sys2Proof/Machine/Step.lean ====
section
/-! DEFINITION. One step of the machine, and the placing of one instruction where the next step fetches it. -/

namespace Sys2Proof.Machine

/-- One step: in the fault state no agent's step is enabled (60_exceptions.md R255). -/
def step (s : State) : Host.Outcome State Fault Refusal :=
  match s.fault with
  | some r => .fault (.faultState r)
  | none => machineStep s

/-- `s` with the instruction whose bits are `w` stored where the next step fetches, every later word 0, so that this step runs
what `decodeTableWord nbits w` gives (log 19). -/
def State.withFetchWord (s : State) (nbits w : Nat) : State :=
  placeWords (readyToFetch s) (s.pc (placedSlot s)) (BitVec.ofNat Config.wordBits (w % 2 ^ min nbits Config.wordBits)) 0

end Sys2Proof.Machine
end

