-- ==== Sys2Proof/Safety.lean ====
section
/-! DEFINITION. What a sound state of the block is: the invariants the spec states of it (10_state.md R22, R32, R43;
45_sequencer.md R237; 60_exceptions.md R282), in the terms the statements use. -/

namespace Sys2Proof.Machine

/-- At most one slot is active (10_state.md R22, 45_sequencer.md R237). -/
def State.OneActive (s : State) : Prop :=
  ∀ i j : SlotId, (s.slot i).state.active = true → (s.slot j).state.active = true → i = j

/-- The slot state a timer reason belongs to (45_sequencer.md R212, 43_wait.md R170, R172). -/
def StartReason.slotState : StartReason → SlotState
  | .deferredStart => .running
  | .delay => .inDelay
  | .pollRetry => .waitingForReg

/-- An armed timer belongs to the active slot, which is in the state its reason expects, and has a tick to wait for
(45_sequencer.md R237; 10_state.md R43 `remaining`; the precondition of every resumption, 40_execution_cycle.md R118). -/
def State.TimerOwned (s : State) : Prop :=
  s.timer.armed = true →
    s.activeSlot = some s.timer.slot ∧ (s.slot s.timer.slot).state = s.timer.reason.slotState ∧ 1 ≤ s.timer.remaining

/-- A slot that waits for time or for its poll has the timer armed for it (43_wait.md R170, R172). -/
def State.WaitersArmed (s : State) : Prop :=
  ∀ i : SlotId,
    ((s.slot i).state = .inDelay → s.timer.armed = true ∧ s.timer.reason = .delay ∧ s.timer.slot = i) ∧
    ((s.slot i).state = .waitingForReg → s.timer.armed = true ∧ s.timer.reason = .pollRetry ∧ s.timer.slot = i)

/-- The counter is within ABS_COUNTER_LIMIT (10_state.md R32). -/
def State.CounterBounded (s : State) : Prop := s.absoluteDelayCounter ≤ s.params.absCounterLimit

/-- A flush of the outstanding pre-count overflows does not take the counter past its limit: there is nothing to flush, or the
counter counts another base, or it has the room (60_exceptions.md R268, R269). -/
def State.FlushFits (s : State) : Prop :=
  s.preOutstanding = 0 ∨ s.timeBase ≠ .preCountOverflow ∨ s.absoluteDelayCounter + s.preOutstanding ≤ s.params.absCounterLimit

/-- Both lines equal their expressions (60_exceptions.md R282). -/
def State.LinesMatch (s : State) : Prop :=
  s.irqHost = lineOf s.ifReg s.ien ∧ s.irqSeq = lineOf s.seqIf s.seqIen

/-- Memory is in its canonical form. -/
def State.MemoryWf (s : State) : Prop := s.mem.wf = true

/-- The whole invariant. -/
structure State.Sound (s : State) : Prop where
  oneActive : s.OneActive
  timerOwned : s.TimerOwned
  waitersArmed : s.WaitersArmed
  counterBounded : s.CounterBounded
  linesMatch : s.LinesMatch
  memoryWf : s.MemoryWf

/-- The block has recorded a fault of this kind. -/
def State.FaultedWith (s : State) (k : FaultKind) : Prop := ∃ r, s.fault = some r ∧ r.kind = k

/-- The states the machine can be in: reset with any parameters, any memory in canonical form and any schedule of turns, and
whatever steps make of it. -/
inductive Reachable : State → Prop where
  | boot (params : Config.Params) (mem : Memory) (schedule : List Turn) (hmem : mem.wf = true) :
      Reachable { State.reset with params := params, mem := mem, schedule := schedule }
  | step {s t : State} (hs : Reachable s) (h : step s = .next t) : Reachable t

/-! ## Terms for what the bus does and what an instruction stores -/

/-- `t` is `s` but for the memory behind the bus and the trace. -/
def State.BusOnly (s t : State) : Prop := t = { s with mem := t.mem, trace := t.trace }

/-- Plain memory answers a word access at this address (20_memory.md R61, R64). -/
def State.PlainAt (s : State) (addr : Word) : Prop :=
  s.touchesWindow addr = false ∧ s.regionAt addr = none ∧ (aligned addr = true ∨ s.params.misaligned = .bytes)

/-- The bus answers every access at this address with a value, whatever lies there: plain memory, a region that fails neither
direction, or a peripheral that always answers (20_memory.md R61). -/
def State.AlwaysAnswers (s : State) (addr : Word) : Prop :=
  s.touchesWindow addr = false ∧
  match s.regionAt addr with
  | some .device => (∀ tr, ∃ v, Config.deviceRead tr addr = some v) ∧ ∀ tr v, Config.deviceWrite tr addr v = true
  | some (.failing r w) => r = false ∧ w = false ∧ (aligned addr = true ∨ s.params.misaligned = .bytes)
  | none => aligned addr = true ∨ s.params.misaligned = .bytes

/-- The word plain memory holds at an address. -/
def State.word (s : State) (addr : Word) : Word := s.mem.readWord s.params.byteOrder addr

/-- One word copied in plain memory, with its two accesses: the body of the loop of 41_transfer.md R130. -/
def State.plainCopy (s : State) (src dst : Word) : State :=
  { s with
    mem := s.mem.writeWord s.params.byteOrder dst (s.word src)
    trace := .write dst (s.word src) true :: .read src (some (s.word src)) :: s.trace }

/-- One word combined in plain memory, with its three accesses: the body of the loop of 42_logical.md R150. -/
def State.plainCombine (op : Word → Word → Word) (s : State) (src dst : Word) : State :=
  { s with
    mem := s.mem.writeWord s.params.byteOrder dst (op (s.word dst) (s.word src))
    trace := .write dst (op (s.word dst) (s.word src)) true :: .read dst (some (s.word dst)) ::
      .read src (some (s.word src)) :: s.trace }

/-- `for i in 0 .. n-1`, of the spec's pseudocode. -/
def forWords (n : Nat) (body : Nat → State → State) (s : State) : State :=
  (List.range n).foldl (fun t k => body k t) s

/-- The address of an access. -/
def accessAddr : BusAccess → Word
  | .read a _ => a
  | .write a _ _ => a

/-- The bus answered the access with an error (20_memory.md R62). -/
def accessFailed : BusAccess → Bool
  | .read _ v => v.isNone
  | .write _ _ ok => !ok

/-- The byte `x` is one of the four bytes of the word at `a`. -/
def InWord (a x : Word) : Prop := x = a ∨ x = a + 1 ∨ x = a + 2 ∨ x = a + 3

/-- The byte `x` lies in the block of `n` words from `a`. -/
def InBlock (a : Word) (n : Nat) (x : Word) : Prop := ∃ k, k < n ∧ InWord (wordAddr a k) x

/-- The bytes of memory an instruction may store to, when slot `a` executes it (41_transfer.md R130 to R138, 42_logical.md
R150): the target block, the one target word of the NoInc forms, or with MOVSWAP the other side. The rest store nothing. -/
def State.StoresAt (s : State) (a : SlotId) (i : Instr) (x : Word) : Prop :=
  match i with
  | .write b f n | .and b f n | .xor b f n | .or b f n => InBlock (s.target b f) n x
  | .writeNoInc b f n | .movNoInc b f n => 0 < n ∧ InWord (s.target b f) x
  | .mov b f n =>
    if (s.slot a).movSwapAddresses = true then InBlock (s.pc a + 4) n x else InBlock (s.target b f) n x
  | .moveBlock b f n =>
    if (s.slot a).movSwapAddresses = true then ∃ ind, s.busRead (s.pc a + 4) = .value ind ∧ InBlock ind n x
    else InBlock (s.target b f) n x
  | .delay .. | .waitForReg .. | .waitForSig .. | .jump .. | .setTrig .. | .skipCond .. | .endSeqOrNop .. | .reserved .. => False

/-- The addresses a copy of `n` words accesses, in order (20_memory.md R66; 41_transfer.md R130). -/
def copyAddrs (n : Nat) (src dst step : Word) : List Word :=
  (List.range n).flatMap fun k => [wordAddr src k, dst + BitVec.ofNat 32 k * step]

/-- The addresses a combination of `n` words accesses, in order (20_memory.md R66; 42_logical.md R150). -/
def combineAddrs (n : Nat) (src dst : Word) : List Word :=
  (List.range n).flatMap fun k => [wordAddr src k, wordAddr dst k, wordAddr dst k]

/-- The addresses a copy or logical instruction accesses after its fetch where no access fails, in the order of its rule, when
slot `a` executes it (41_transfer.md R130 to R138, 42_logical.md R150 to R152). -/
def State.transferAddrs (s : State) (a : SlotId) (i : Instr) : List Word :=
  match i with
  | .write b f n => copyAddrs n (s.pc a + 4) (s.target b f) 4
  | .writeNoInc b f n | .movNoInc b f n => copyAddrs n (s.pc a + 4) (s.target b f) 0
  | .mov b f n =>
    if (s.slot a).movSwapAddresses = true then copyAddrs n (s.target b f) (s.pc a + 4) 4
    else copyAddrs n (s.pc a + 4) (s.target b f) 4
  | .moveBlock b f n =>
    (s.pc a + 4) :: match s.busRead (s.pc a + 4) with
      | .value ind =>
        if (s.slot a).movSwapAddresses = true then copyAddrs n (s.target b f) ind 4 else copyAddrs n ind (s.target b f) 4
      | _ => []
  | .and b f n | .xor b f n | .or b f n => combineAddrs n (s.pc a + 4) (s.target b f)
  | .delay .. | .waitForReg .. | .waitForSig .. | .jump .. | .setTrig .. | .skipCond .. | .endSeqOrNop .. | .reserved .. => []

/-- `ext in Legal(opcode)` under EXT_MAP; the opcodes whose ext field is a length take any (30_encoding.md R86, R88, R93). -/
def legalExt (m : Config.EncodingMaps) (op : Opcode) (ext : Nat) : Prop :=
  match op with
  | .delay => ext ∈ m.delay.map (·.1)
  | .waitForReg => ext ∈ m.waitForReg.map (·.1)
  | .waitForSig => ext ∈ m.waitForSig.map (·.1)
  | .jump => ext ∈ m.jump.map (·.1)
  | .setTrig => ext ∈ m.setTrig.map (·.1)
  | .skipCond => ext ∈ m.skipCond.map (·.1)
  | .endSeqOrNop => ext ∈ m.endSeqOrNop.map (·.1)
  | .write | .writeNoInc | .mov | .movNoInc | .moveBlock | .and | .xor | .or | .reserved => True

/-- The least ext value that is not legal for an opcode of 8..E at the default maps (30_encoding.md R88); opcodes 0..7 take any
length. -/
def legalExtBound : Nat → Nat
  | 0x8 => 2 | 0x9 => 8 | 0xA => 8 | 0xB => 2 | 0xC => 4 | 0xD => 16 | 0xE => 2
  | _ => 2 ^ 32

/-- The named bits of a register the host reads and writes; `none` for CMD and the read-only registers (10_state.md R40). -/
def namedBits : HostReg → Option Word
  | .en => some 0x1
  | .cmd | .status | .seqAddr | .busErrAddr => none
  | .config => some 0x001F1F03
  | .eqMaskA | .eqMaskB | .baseAddr _ | .seqStart _ => some 0xFFFFFFFF
  | .ifReg | .ien | .seqIf | .seqIen => some 0x3FF
  | .seqCfg _ => some 0xFFF

/-- `t` is `s` but for what the register's named bits hold and, for the flags and enables, the two lines (10_state.md R40). -/
def State.OnlyRegister (r : HostReg) (s t : State) : Prop :=
  match r with
  | .en => t = { s with en := t.en }
  | .config => t = { s with timeBase := t.timeBase, contWritePos := t.contWritePos, basePos := t.basePos }
  | .eqMaskA => t = { s with eqMaskA := t.eqMaskA }
  | .eqMaskB => t = { s with eqMaskB := t.eqMaskB }
  | .ifReg => t = { s with ifReg := t.ifReg, irqHost := t.irqHost, irqSeq := t.irqSeq }
  | .ien => t = { s with ien := t.ien, irqHost := t.irqHost, irqSeq := t.irqSeq }
  | .seqIf => t = { s with seqIf := t.seqIf, irqHost := t.irqHost, irqSeq := t.irqSeq }
  | .seqIen => t = { s with seqIen := t.seqIen, irqHost := t.irqHost, irqSeq := t.irqSeq }
  | .baseAddr k => t = { s with baseAddress := s.baseAddress.set k t.baseAddress[k] }
  | .seqStart i => t = s.updateSlot i fun x => { x with startAddress := (t.slot i).startAddress }
  | .seqCfg i => t = s.updateSlot i fun x => { x with
      hardwareStartSelect := (t.slot i).hardwareStartSelect, hardwareTriggerMode := (t.slot i).hardwareTriggerMode,
      disableAbsoluteDelayReset := (t.slot i).disableAbsoluteDelayReset, movSwapAddresses := (t.slot i).movSwapAddresses }
  | .cmd | .status | .seqAddr | .busErrAddr => t = s

/-- The state in which the turn `machineStep` takes begins: the schedule has moved on. -/
def State.turnStart (s : State) : State := { s with schedule := (nextTurn s).2 }

/-- The next step is the executor's, for slot `a` (40_execution_cycle.md R110). -/
def State.ExecutorMoves (s : State) (a : SlotId) : Prop := s.executor = some a ∧ (nextTurn s).1 = .executor

end Sys2Proof.Machine
end

