-- ==== Sys2Proof/WellFormed.lean ====
section
/-! DEFINITION. When an instruction can be encoded under the maps and a layout (30_encoding.md R83, R88, R94). The field
functions it checks stand in Decode.lean. -/

namespace Sys2Proof

/-- OPCODE_MAP gives the opcode a value (30_encoding.md R87). -/
def Instr.opcodeAssigned (m : Config.EncodingMaps) (i : Instr) : Bool :=
  decide (opcodeValue m i.opcode < 2 ^ Config.opcodeWidth)

/-- The offset fits its field (30_encoding.md R94: `off < 2^O`). -/
def Instr.offsetFits (l : Layout) (i : Instr) : Bool := decide (i.offset < 2 ^ l.o)

/-- There is a length or ext code, and it fits its field (30_encoding.md R88, R94: `ext < 2^(P-O)`). -/
def Instr.extFits (m : Config.EncodingMaps) (l : Layout) (i : Instr) : Bool :=
  match i.ext m with
  | some e => decide (e < 2 ^ l.extWidth)
  | none => false

/-- The base index fits its field (30_encoding.md R94: `b < 2^(28-P)`). -/
def Instr.baseFits (l : Layout) (i : Instr) : Bool := decide (i.base < 2 ^ l.baseWidth)

/-- The instruction has an encoding under the maps and the layout (30_encoding.md R94). A Reserved word is decoded before the
layout is looked at (R93), so it needs no check of its fields. -/
def Instr.wellFormed (m : Config.EncodingMaps) (l : Layout) (i : Instr) : Bool :=
  i.opcodeAssigned m &&
    match i with
    | .reserved _ => true
    | _ => l.legal && i.offsetFits l && i.extFits m l && i.baseFits l

end Sys2Proof
end

