-- ==== Sys2Proof/Certificates/Slice0/Obligations.lean ====
section
/-! DEFINITION. The statements for the provers. OBLIGATIONS.json lists them with the rules they come from. -/

open Sys2Proof Sys2Proof.Machine

/-! ## Encoding (30_encoding.md) -/

/-- Decoding the encoding of a well-formed instruction gives it back, under every layout and all one-to-one values of OPCODE_MAP
and EXT_MAP (30_encoding.md R93, R94; 00_scope.md R5). -/
def Obligations.DecodeOfEncode : Prop :=
  ∀ (m : Config.EncodingMaps) (l : Layout) (i : Instr), m.oneToOne = true → i.wellFormed m l = true →
    decode m l (encode m l i) = .ok i

/-- Every word that decodes is the encoding of what it decodes to, which is well formed: no bit of a word is dropped
(30_encoding.md R82). -/
def Obligations.EncodeOfDecode : Prop :=
  ∀ (m : Config.EncodingMaps) (l : Layout) (w : Word) (i : Instr), m.oneToOne = true → decode m l w = .ok i →
    encode m l i = w ∧ i.wellFormed m l = true

/-- The four fields partition the word (30_encoding.md R82). -/
def Obligations.FieldsPartitionWord : Prop :=
  ∀ (l : Layout) (w : Word), l.legal = true →
    w.toNat = opcodeField w * 2 ^ 28 + baseField l w * 2 ^ l.p + extField l w * 2 ^ l.o + offsetField l w ∧
    opcodeField w < 2 ^ 4 ∧ baseField l w < 2 ^ (28 - l.p) ∧ extField l w < 2 ^ (l.p - l.o) ∧ offsetField l w < 2 ^ l.o

/-- The encoder's sum is the bitwise OR of the four shifted fields (30_encoding.md R94). -/
def Obligations.EncodeIsBitwiseOr : Prop :=
  ∀ (m : Config.EncodingMaps) (l : Layout) (i : Instr), i.wellFormed m l = true → (∀ p, i ≠ .reserved p) →
    ∃ e, i.ext m = some e ∧
      encode m l i = (BitVec.ofNat 32 (opcodeValue m i.opcode) <<< 28) ||| (BitVec.ofNat 32 i.base <<< l.p) |||
        (BitVec.ofNat 32 e <<< l.o) ||| BitVec.ofNat 32 i.offset

/-- Words of 95_test_vectors.md, one of each family, decode to the instructions they stand for, at the default maps. -/
def Obligations.SpecWordsDecode : Prop :=
  decode .default ⟨16, 24⟩ 0x01020010 = .ok (.write 1 0x10 2) ∧ decode .default ⟨16, 24⟩ 0x41020040 = .ok (.moveBlock 1 0x40 2) ∧
  decode .default ⟨16, 24⟩ 0x61010020 = .ok (.xor 1 0x20 1) ∧ decode .default ⟨16, 24⟩ 0x80010000 = .ok (.delay .relative 0 0) ∧
  decode .default ⟨16, 24⟩ 0x91020020 = .ok (.waitForReg .allClear 1 0x20) ∧
  decode .default ⟨16, 24⟩ 0xD0090000 = .ok (.skipCond (.sig .anySet) 0 0) ∧
  decode .default ⟨16, 24⟩ 0xE0010000 = .ok (.endSeqOrNop .endSeq 0 0) ∧ decode .default ⟨16, 24⟩ 0xF0000000 = .ok (.reserved 0)

/-! ## The step (40_execution_cycle.md) -/

/-- The step takes the turn of the agent that moves next; with ATOMIC_RUN the executor moves as long as it is enabled, without
it the schedule decides, and an empty schedule leaves the turn to the executor (40_execution_cycle.md R119; the schedule is the
model's choice, log 1). -/
def Obligations.StepTakesTurn : Prop :=
  ∀ s : State, s.fault = none →
    step s = takeTurn (nextTurn s).1 s.turnStart ∧
    (s.params.atomicRun = true → s.executor ≠ none → (nextTurn s) = (.executor, s.schedule)) ∧
    (s.schedule = [] → (nextTurn s) = (.executor, [])) ∧
    ∀ t rest, s.params.atomicRun = false ∨ s.executor = none → s.schedule = t :: rest → nextTurn s = (t, rest)

/-- The executor's step is `exec` of the instruction that the word at `pc` decodes to, after the fetch's access. -/
def Obligations.StepRunsDecodedInstruction : Prop :=
  ∀ (s : State) (a : SlotId) (w : Word) (i : Instr),
    s.ExecutorMoves a → s.busRead (s.pc a) = .value w → decode s.params.maps s.layout w = .ok i →
    step s = exec i (s.turnStart.logAccess (.read (s.pc a) (some w)))

/-- The first decode check that fails decides the fault, whose record names slot, address and word (30_encoding.md R93). The last
clause gives the legal ext values at the default of EXT_MAP as numbers (R88). -/
def Obligations.DecodeFaultsInOrder : Prop :=
  ∀ (s : State) (a : SlotId) (w : Word),
    s.ExecutorMoves a → s.busRead (s.pc a) = .value w →
    let m := s.params.maps
    let code := w.toNat / 2 ^ 28
    let t := s.turnStart.logAccess (.read (s.pc a) (some w))
    let faulted := fun k : FaultKind => (.next (t.raiseFatal ⟨k, some a, some (s.pc a), some w⟩) : Outcome)
    let O := s.contWritePos.toNat
    let P := s.basePos.toNat
    let base := w.toNat / 2 ^ P % 2 ^ (28 - P)
    let ext := w.toNat / 2 ^ O % 2 ^ (P - O)
    opcodeOf m code ≠ .reserved →
    (¬(O ≤ P ∧ P ≤ 28) → step s = faulted .badLayout) ∧
    (O ≤ P ∧ P ≤ 28 → 16 ≤ base → step s = faulted .baseIndexRange) ∧
    (O ≤ P ∧ P ≤ 28 → base < 16 → ¬legalExt m (opcodeOf m code) ext → step s = faulted .invalidExt) ∧
    (m = .default → O ≤ P ∧ P ≤ 28 → base < 16 → legalExtBound code ≤ ext → step s = faulted .invalidExt)

/-- A fetch that the bus fails performs `BusError(pc)` and nothing else of an instruction (40_execution_cycle.md R112). -/
def Obligations.FetchErrorAborts : Prop :=
  ∀ (s : State) (a : SlotId), s.ExecutorMoves a → s.busRead (s.pc a) = .error →
    step s = .next ((s.turnStart.logAccess (.read (s.pc a) none)).busError (s.pc a))

/-- In the fault state no agent's step is enabled (60_exceptions.md R255). -/
def Obligations.FaultStateEnds : Prop :=
  ∀ (s : State) (r : FaultRecord), s.fault = some r → ∀ t, step s ≠ .next t

/-- A step that raises a fault leaves the block as it was at the step's start, plus the record: what it has done is bus reads,
and no bus write, and (an operation that flushes) the environment's overflows delivered (60_exceptions.md R251;
40_execution_cycle.md R117). -/
def Obligations.FaultDiscardsTheStep : Prop :=
  ∀ (s t : State) (r : FaultRecord), step s = .next t → t.fault = some r →
    t = { s.turnStart with fault := some r, trace := t.trace, preOutstanding := t.preOutstanding } ∧
    (∃ reads : List BusAccess, t.trace = reads ++ s.trace ∧ ∀ x ∈ reads, ∃ addr v, x = .read addr v) ∧
    ((nextTurn s).1 ≠ .executor → t.trace = s.trace) ∧ ((nextTurn s).1 = .executor → t.preOutstanding = s.preOutstanding)

/-- Reserved faults before any other field of its word is looked at, under any layout, and its record holds the fetched word
(44_control.md R200); at the default of OPCODE_MAP it is 0xF and nothing else (30_encoding.md R87, R92). -/
def Obligations.ReservedFaults : Prop :=
  (∀ (s : State) (a : SlotId) (w : Word),
    s.ExecutorMoves a → s.busRead (s.pc a) = .value w → s.params.maps.oneToOne = true →
    opcodeOf s.params.maps (w.toNat / 2 ^ 28) = .reserved →
    step s = .next ((s.turnStart.logAccess (.read (s.pc a) (some w))).raiseFatal
      ⟨.reservedOpcode, some a, some (s.pc a), some w⟩)) ∧
  (∀ (s : State) (a : SlotId) (code : BitVec 4) (payload : BitVec 28), s.executor = some a → s.params.maps.oneToOne = true →
    opcodeOf s.params.maps code.toNat = .reserved →
    exec (.reserved payload) s = .next (s.raiseFatal
      ⟨.reservedOpcode, some a, some (s.pc a), some (code ++ payload)⟩)) ∧
  ∀ w : Word, opcodeOf .default (w.toNat / 2 ^ 28) = .reserved ↔ w.toNat / 2 ^ 28 = 0xF

/-! ## Bus errors (60_exceptions.md R256) -/

/-- What a bus error writes, and that it writes nothing else (60_exceptions.md R256, R257). -/
def Obligations.BusErrorEffect : Prop :=
  ∀ (s : State) (addr : Word),
    let t := s.busError addr
    let raised : Conditions := if s.params.busErrorAbortFlags = true then 0x300 else 0x200
    t.busErrAddr = addr ∧ t.timer = { s.timer with armed := false } ∧
    (∀ i, t.slot i = if (s.slot i).state = .idle then s.slot i
      else { s.slot i with state := .idle, delayRemainingTicksOrTopValue := 0, delayIsRelative := false }) ∧
    t.ifReg = s.ifReg ||| raised ∧ t.seqIf = s.seqIf ||| raised ∧
    t.irqHost = decide (t.ifReg &&& s.ien ≠ 0) ∧ t.irqSeq = decide (t.seqIf &&& s.seqIen ≠ 0) ∧
    t = { s with
      slots := t.slots, busErrAddr := t.busErrAddr, timer := t.timer, ifReg := t.ifReg, seqIf := t.seqIf,
      irqHost := t.irqHost, irqSeq := t.irqSeq }

/-- An instruction whose first access fails performs `BusError` at that address and nothing else: the inline word for most, the
target for WaitForReg and the register variants of SkipCond, which read it first (92_eei_decisions.md D11), and for Mov with
MOVSWAP. The copy and logical instructions but MoveBlock make an access only if their length is not 0. -/
def Obligations.FirstReadErrorAborts : Prop :=
  ∀ (s : State) (a : SlotId) (base : BaseIndex) (offset n : Nat), s.executor = some a →
    let failed := fun addr : Word => (.next ((s.logAccess (.read addr none)).busError addr) : Outcome)
    (s.busRead (s.pc a + 4) = .error →
      (∀ mode, exec (.delay mode base offset) s = failed (s.pc a + 4)) ∧
      (∀ p, exec (.waitForSig p base offset) s = failed (s.pc a + 4)) ∧
      (∀ mode, exec (.jump mode base offset) s = failed (s.pc a + 4)) ∧
      (∀ op, exec (.setTrig op base offset) s = failed (s.pc a + 4)) ∧
      (∀ p, exec (.skipCond (.sig p) base offset) s = failed (s.pc a + 4)) ∧
      exec (.moveBlock base offset n) s = failed (s.pc a + 4) ∧
      (0 < n →
        exec (.write base offset n) s = failed (s.pc a + 4) ∧ exec (.writeNoInc base offset n) s = failed (s.pc a + 4) ∧
        exec (.movNoInc base offset n) s = failed (s.pc a + 4) ∧ exec (.and base offset n) s = failed (s.pc a + 4) ∧
        exec (.xor base offset n) s = failed (s.pc a + 4) ∧ exec (.or base offset n) s = failed (s.pc a + 4) ∧
        ((s.slot a).movSwapAddresses = false → exec (.mov base offset n) s = failed (s.pc a + 4)))) ∧
    (s.busRead (s.target base offset) = .error →
      (∀ p, exec (.waitForReg p base offset) s = failed (s.target base offset)) ∧
      (∀ p, exec (.skipCond (.reg p) base offset) s = failed (s.target base offset)) ∧
      (0 < n → (s.slot a).movSwapAddresses = true → exec (.mov base offset n) s = failed (s.target base offset)))

/-- A bus error in the middle of a copy or logical instruction keeps every earlier word and performs no later access
(40_execution_cycle.md R117): word `j` fails, at a read or at its write and for whatever reason the bus has, after `j` words in
plain memory. -/
def Obligations.TransferErrorKeepsEarlierWords : Prop :=
  ∀ (s : State) (a : SlotId) (base : BaseIndex) (offset n j : Nat), s.executor = some a → j < n →
    let inl := fun k => wordAddr (s.pc a + 4) k
    let tgt := fun k => wordAddr (s.target base offset) k
    let fixed := fun _ : Nat => s.target base offset
    let copyStops := fun (i : Instr) (s0 : State) (src dst : Nat → Word) =>
      (∀ k, k < j → s.PlainAt (src k) ∧ s.PlainAt (dst k)) →
      let t := forWords j (fun k u => u.plainCopy (src k) (dst k)) s0
      (t.busRead (src j) = .error → exec i s = .next ((t.logAccess (.read (src j) none)).busError (src j))) ∧
      ∀ v, t.busRead (src j) = .value v →
        let u := t.logAccess (.read (src j) (some v))
        u.busWrite (dst j) v = .error → exec i s = .next ((u.logAccess (.write (dst j) v false)).busError (dst j))
    let combineStops := fun (i : Instr) (op : Word → Word → Word) =>
      (∀ k, k < j → s.PlainAt (inl k) ∧ s.PlainAt (tgt k)) →
      let t := forWords j (fun k u => u.plainCombine op (inl k) (tgt k)) s
      (t.busRead (inl j) = .error → exec i s = .next ((t.logAccess (.read (inl j) none)).busError (inl j))) ∧
      ∀ v, t.busRead (inl j) = .value v →
        let u := t.logAccess (.read (inl j) (some v))
        (u.busRead (tgt j) = .error → exec i s = .next ((u.logAccess (.read (tgt j) none)).busError (tgt j))) ∧
        ∀ w, u.busRead (tgt j) = .value w →
          let x := u.logAccess (.read (tgt j) (some w))
          x.busWrite (tgt j) (op w v) = .error →
            exec i s = .next ((x.logAccess (.write (tgt j) (op w v) false)).busError (tgt j))
    copyStops (.write base offset n) s inl tgt ∧
    copyStops (.writeNoInc base offset n) s inl fixed ∧
    copyStops (.movNoInc base offset n) s inl fixed ∧
    ((s.slot a).movSwapAddresses = false → copyStops (.mov base offset n) s inl tgt) ∧
    ((s.slot a).movSwapAddresses = true → copyStops (.mov base offset n) s tgt inl) ∧
    (∀ ind, s.busRead (s.pc a + 4) = .value ind →
      let s1 := s.logAccess (.read (s.pc a + 4) (some ind))
      ((s.slot a).movSwapAddresses = false → copyStops (.moveBlock base offset n) s1 (wordAddr ind) tgt) ∧
      ((s.slot a).movSwapAddresses = true → copyStops (.moveBlock base offset n) s1 tgt (wordAddr ind))) ∧
    combineStops (.and base offset n) (fun t v => t &&& v) ∧
    combineStops (.xor base offset n) (fun t v => t ^^^ v) ∧
    combineStops (.or base offset n) (fun t v => t ||| v)

/-! ## Transfer instructions (41_transfer.md) and logical instructions (42_logical.md) -/

/-- Write copies `n` inline words to target, ascending, and goes on after them (41_transfer.md R130). -/
def Obligations.WriteCopiesAscending : Prop :=
  ∀ (s : State) (a : SlotId) (base : BaseIndex) (offset n : Nat), s.executor = some a →
    let src := fun k => wordAddr (s.pc a + 4) k
    let dst := fun k => wordAddr (s.target base offset) k
    (∀ k, k < n → s.PlainAt (src k) ∧ s.PlainAt (dst k)) →
    exec (.write base offset n) s = .next
      ((forWords n (fun k t => t.plainCopy (src k) (dst k)) s).setPc a (s.pc a + 4 + BitVec.ofNat 32 (4 * n)))

/-- WriteNoInc writes every inline word to the one target address (41_transfer.md R132). -/
def Obligations.WriteNoIncWritesOneAddress : Prop :=
  ∀ (s : State) (a : SlotId) (base : BaseIndex) (offset n : Nat), s.executor = some a →
    let src := fun k => wordAddr (s.pc a + 4) k
    (∀ k, k < n → s.PlainAt (src k) ∧ s.PlainAt (s.target base offset)) →
    exec (.writeNoInc base offset n) s = .next
      ((forWords n (fun k t => t.plainCopy (src k) (s.target base offset)) s).setPc a
        (s.pc a + 4 + BitVec.ofNat 32 (4 * n)))

/-- Mov copies inline words to target, or with MOVSWAP target words to the inline area (41_transfer.md R134). -/
def Obligations.MovCopiesByDirection : Prop :=
  ∀ (s : State) (a : SlotId) (base : BaseIndex) (offset n : Nat), s.executor = some a →
    let inl := fun k => wordAddr (s.pc a + 4) k
    let tgt := fun k => wordAddr (s.target base offset) k
    (∀ k, k < n → s.PlainAt (inl k) ∧ s.PlainAt (tgt k)) →
    exec (.mov base offset n) s = .next
      ((forWords n (fun k t =>
        if (s.slot a).movSwapAddresses = true then t.plainCopy (tgt k) (inl k) else t.plainCopy (inl k) (tgt k)) s).setPc a
        (s.pc a + 4 + BitVec.ofNat 32 (4 * n)))

/-- MovNoInc writes every inline word to the one target address whatever MOVSWAP holds (41_transfer.md R136), the same effect
as WriteNoInc (R137). -/
def Obligations.MovNoIncIgnoresSwap : Prop :=
  ∀ (s : State) (a : SlotId) (base : BaseIndex) (offset n : Nat), s.executor = some a →
    let src := fun k => wordAddr (s.pc a + 4) k
    (∀ k, k < n → s.PlainAt (src k) ∧ s.PlainAt (s.target base offset)) →
    exec (.movNoInc base offset n) s = .next
      ((forWords n (fun k t => t.plainCopy (src k) (s.target base offset)) s).setPc a
        (s.pc a + 4 + BitVec.ofNat 32 (4 * n)))

/-- MoveBlock reads the indirect address, copies `n` words by MOVSWAP's direction and goes on by 8 (41_transfer.md R138). -/
def Obligations.MoveBlockCopiesIndirect : Prop :=
  ∀ (s : State) (a : SlotId) (base : BaseIndex) (offset n : Nat) (ind : Word), s.executor = some a →
    let tgt := fun k => wordAddr (s.target base offset) k
    s.busRead (s.pc a + 4) = .value ind →
    (∀ k, k < n → s.PlainAt (wordAddr ind k) ∧ s.PlainAt (tgt k)) →
    exec (.moveBlock base offset n) s = .next
      ((forWords n (fun k t =>
        if (s.slot a).movSwapAddresses = true then t.plainCopy (tgt k) (wordAddr ind k)
        else t.plainCopy (wordAddr ind k) (tgt k)) (s.logAccess (.read (s.pc a + 4) (some ind)))).setPc a (s.pc a + 8))

/-- And, Xor and Or combine `n` inline words with the words at target, ascending: inline read, target read, write
(42_logical.md R150, R151, R152). -/
def Obligations.LogicalOpsCombine : Prop :=
  ∀ (s : State) (a : SlotId) (base : BaseIndex) (offset n : Nat), s.executor = some a →
    let src := fun k => wordAddr (s.pc a + 4) k
    let dst := fun k => wordAddr (s.target base offset) k
    let result := fun op : Word → Word → Word => (.next
      ((forWords n (fun k t => t.plainCombine op (src k) (dst k)) s).setPc a
        (s.pc a + 4 + BitVec.ofNat 32 (4 * n))) : Outcome)
    (∀ k, k < n → s.PlainAt (src k) ∧ s.PlainAt (dst k)) →
    exec (.and base offset n) s = result (fun t v => t &&& v) ∧
    exec (.xor base offset n) s = result (fun t v => t ^^^ v) ∧
    exec (.or base offset n) s = result (fun t v => t ||| v)

/-- On a bus that answers, peripherals included, every copy and logical instruction completes, changes nothing but memory and
`pc`, and makes exactly the accesses its rule lists, in that order (20_memory.md R66). -/
def Obligations.TransfersCompleteOnAnsweringBus : Prop :=
  ∀ (s : State) (a : SlotId) (base : BaseIndex) (offset n : Nat), s.executor = some a →
    let inl := s.pc a + 4
    let tgt := s.target base offset
    let completes := fun (i : Instr) (next : Word) (addrs : List Word) =>
      ∃ t, exec i s = .next t ∧ t = { s with mem := t.mem, trace := t.trace }.setPc a next ∧
        t.trace.map accessAddr = addrs.reverse ++ s.trace.map accessAddr
    let after := inl + BitVec.ofNat 32 (4 * n)
    ((∀ k, k < n → s.AlwaysAnswers (wordAddr inl k) ∧ s.AlwaysAnswers (wordAddr tgt k)) →
      completes (.write base offset n) after (copyAddrs n inl tgt 4) ∧
      completes (.mov base offset n) after
        (if (s.slot a).movSwapAddresses = true then copyAddrs n tgt inl 4 else copyAddrs n inl tgt 4) ∧
      completes (.and base offset n) after (combineAddrs n inl tgt) ∧
      completes (.xor base offset n) after (combineAddrs n inl tgt) ∧
      completes (.or base offset n) after (combineAddrs n inl tgt)) ∧
    ((∀ k, k < n → s.AlwaysAnswers (wordAddr inl k) ∧ s.AlwaysAnswers tgt) →
      completes (.writeNoInc base offset n) after (copyAddrs n inl tgt 0) ∧
      completes (.movNoInc base offset n) after (copyAddrs n inl tgt 0)) ∧
    ∀ ind, s.busRead inl = .value ind →
      (∀ k, k < n → s.AlwaysAnswers (wordAddr ind k) ∧ s.AlwaysAnswers (wordAddr tgt k)) →
      completes (.moveBlock base offset n) (s.pc a + 8)
        (inl :: if (s.slot a).movSwapAddresses = true then copyAddrs n tgt ind 4 else copyAddrs n ind tgt 4)

/-- A copy or logical instruction that goes on changes only memory, the trace and the active slot's `pc`, after exactly the
accesses of its rule, none of which failed; one that does not go on made the first of these accesses up to one that failed, and
is the bus error at the address of that access. Memory outside the bytes the instruction stores to reads as before in both
(41_transfer.md "No instruction here writes a flag ..."; 42_logical.md; 40_execution_cycle.md R117; 60_exceptions.md R256). -/
def Obligations.TransferFrame : Prop :=
  ∀ (s t : State) (a : SlotId) (base : BaseIndex) (offset n : Nat) (i : Instr), s.executor = some a →
    i ∈ [Instr.write base offset n, .writeNoInc base offset n, .mov base offset n, .movNoInc base offset n,
      .moveBlock base offset n, .and base offset n, .xor base offset n, .or base offset n] →
    exec i s = .next t →
    ∃ (u : State) (made : List BusAccess), s.BusOnly u ∧ u.trace = made ++ s.trace ∧
      (s.MemoryWf → ∀ x, ¬s.StoresAt a i x → u.mem.byteAt x = s.mem.byteAt x) ∧
      ((t = u.setPc a (s.pc a + BitVec.ofNat 32 (4 * i.wordCount)) ∧ (∀ x ∈ made, accessFailed x = false) ∧
          made.reverse.map accessAddr = s.transferAddrs a i) ∨
        ∃ (x : BusAccess) (earlier : List BusAccess), made = x :: earlier ∧ accessFailed x = true ∧
          (∀ y ∈ earlier, accessFailed y = false) ∧ made.reverse.map accessAddr <+: s.transferAddrs a i ∧
          t = u.busError (accessAddr x))

/-- Every byte of memory outside the bytes an instruction stores to reads as before, for all sixteen instructions, bus errors
and faults included (41_transfer.md, 42_logical.md; the rest store nothing). -/
def Obligations.MemoryFrame : Prop :=
  ∀ (s t : State) (a : SlotId) (i : Instr) (x : Word), s.MemoryWf → s.executor = some a → exec i s = .next t →
    ¬s.StoresAt a i x → t.mem.byteAt x = s.mem.byteAt x

/-- Write round trip: the target words read back are the inline words, where the two ranges do not overlap and both are plain
memory (41_transfer.md R131). -/
def Obligations.WriteRoundTrip : Prop :=
  ∀ (s : State) (a : SlotId) (base : BaseIndex) (offset n : Nat), s.MemoryWf → s.executor = some a → n < 2 ^ 28 →
    let src := fun k => wordAddr (s.pc a + 4) k
    let dst := fun k => wordAddr (s.target base offset) k
    (∀ k, k < n → s.PlainAt (src k) ∧ s.PlainAt (dst k)) →
    (∀ x, InBlock (s.pc a + 4) n x → ¬InBlock (s.target base offset) n x) →
    ∃ t, exec (.write base offset n) s = .next t ∧ ∀ k, k < n → t.word (dst k) = s.word (src k)

/-- WriteNoInc coalescing: a plain-memory target is left with the last inline word, while every write is performed
(41_transfer.md R133). -/
def Obligations.WriteNoIncLeavesLastWord : Prop :=
  ∀ (s : State) (a : SlotId) (base : BaseIndex) (offset n : Nat), s.MemoryWf → s.executor = some a →
    let src := fun k => wordAddr (s.pc a + 4) k
    let tgt := s.target base offset
    (∀ k, k < n + 1 → s.PlainAt (src k)) → s.PlainAt tgt →
    (∀ x, InBlock (s.pc a + 4) (n + 1) x → ¬InWord tgt x) →
    ∃ t, exec (.writeNoInc base offset (n + 1)) s = .next t ∧ t.word tgt = s.word (src n) ∧
      t.trace.map accessAddr = (copyAddrs (n + 1) (s.pc a + 4) tgt 0).reverse ++ s.trace.map accessAddr

/-! ## Conditions and waits (43_wait.md) -/

/-- The eight predicates (43_wait.md R162), in both forms of EQ_PRED_FORM. -/
def Obligations.PredicateFormulas : Prop :=
  ∀ (s : State) (v d : Word),
    (s.pred .allSet v d = true ↔ v &&& d = d) ∧ (s.pred .anySet v d = true ↔ v &&& d ≠ 0) ∧
    (s.pred .allClear v d = true ↔ v &&& d = 0) ∧ (s.pred .anyClear v d = true ↔ v &&& d ≠ d) ∧
    (s.params.eqPredForm = .maskBoth →
      (s.pred .eqA v d = true ↔ v &&& s.eqMaskA = d &&& s.eqMaskA) ∧
      (s.pred .neqA v d = true ↔ v &&& s.eqMaskA ≠ d &&& s.eqMaskA) ∧
      (s.pred .eqB v d = true ↔ v &&& s.eqMaskB = d &&& s.eqMaskB) ∧
      (s.pred .neqB v d = true ↔ v &&& s.eqMaskB ≠ d &&& s.eqMaskB)) ∧
    (s.params.eqPredForm = .maskValue →
      (s.pred .eqA v d = true ↔ v &&& s.eqMaskA = d) ∧ (s.pred .neqA v d = true ↔ v &&& s.eqMaskA ≠ d) ∧
      (s.pred .eqB v d = true ↔ v &&& s.eqMaskB = d) ∧ (s.pred .neqB v d = true ↔ v &&& s.eqMaskB ≠ d))

/-- Delay suspends its slot 8 bytes on with the timer armed for the remaining ticks (43_wait.md R170; 60_exceptions.md R264). -/
def Obligations.DelaySuspends : Prop :=
  ∀ (s : State) (a : SlotId) (base : BaseIndex) (offset : Nat) (T : Word) (tb : TickSource),
    s.executor = some a → s.busRead (s.pc a + 4) = .value T → s.timeBase.source = some tb →
    let suspended := fun (rel : Bool) (n : Nat) => (.next
      (((s.logAccess (.read (s.pc a + 4) (some T))).updateSlot a fun x =>
        { x with currentAddress := s.pc a + 8, delayRemainingTicksOrTopValue := T, delayIsRelative := rel,
                 state := .inDelay }).arm .delay a tb n) : Outcome)
    (s.absoluteDelayCounter < T.toNat →
      exec (.delay .absolute base offset) s = suspended false (T.toNat - s.absoluteDelayCounter)) ∧
    (T ≠ 0 → exec (.delay .relative base offset) s = suspended true T.toNat) ∧
    (T = 0 → s.params.relDelayZero = .nextTick → exec (.delay .relative base offset) s = suspended true 1)

/-- Delay's faults, in their order, leave the block as it was but for the read of T and the record (43_wait.md R170;
60_exceptions.md R253, R254). -/
def Obligations.DelayFaults : Prop :=
  ∀ (s : State) (a : SlotId) (mode : DelayMode) (base : BaseIndex) (offset : Nat) (T : Word),
    s.executor = some a → s.busRead (s.pc a + 4) = .value T →
    let faulted := fun k : FaultKind => (.next ((s.logAccess (.read (s.pc a + 4) (some T))).raiseFatal
      ⟨k, some a, some (s.pc a), some (encode s.params.maps s.layout (.delay mode base offset))⟩) : Outcome)
    (s.timeBase = .clock → exec (.delay mode base offset) s = faulted .clockTimeBase) ∧
    (s.timeBase ≠ .clock → mode = .absolute → T.toNat ≤ s.absoluteDelayCounter →
      exec (.delay mode base offset) s = faulted .delayThresholdPassed) ∧
    (s.timeBase ≠ .clock → mode = .relative → T = 0 → s.params.relDelayZero = .fault →
      exec (.delay mode base offset) s = faulted .zeroRelativeDelay)

/-- WaitForReg reads the target, then the inline word, and goes on by 8 or polls (43_wait.md R172). -/
def Obligations.WaitForRegResult : Prop :=
  ∀ (s : State) (a : SlotId) (p : Predicate) (base : BaseIndex) (offset : Nat) (v d : Word), s.executor = some a →
    let s1 := s.logAccess (.read (s.target base offset) (some v))
    let s2 := s1.logAccess (.read (s.pc a + 4) (some d))
    s.busRead (s.target base offset) = .value v → s1.busRead (s.pc a + 4) = .value d →
    exec (.waitForReg p base offset) s = .next
      (if s.pred p v d = true then s2.setPc a (s.pc a + 8)
       else (s2.updateSlot a fun x => { x with state := .waitingForReg }).arm .pollRetry a .pollTick 1)

/-- WaitForSig goes on by 8, or waits with its predicate and data word, arming no timer (43_wait.md R175). -/
def Obligations.WaitForSigResult : Prop :=
  ∀ (s : State) (a : SlotId) (p : Predicate) (base : BaseIndex) (offset : Nat) (d : Word), s.executor = some a →
    let s1 := s.logAccess (.read (s.pc a + 4) (some d))
    s.busRead (s.pc a + 4) = .value d →
    exec (.waitForSig p base offset) s = .next
      (if s.pred p s.signalBitmask d = true then s1.setPc a (s.pc a + 8)
       else s1.updateSlot a fun x => { x with waitSigPred := p, waitSigData := d, state := .waitingForSignal })

/-- SignalSet raises signals and wakes the waiting slot exactly when its predicate holds of them; SignalClear wakes none
(43_wait.md R176, R177). -/
def Obligations.SignalEvents : Prop :=
  ∀ (s : State) (m : Word),
    let b := s.signalBitmask ||| m
    (∀ a, s.activeSlot = some a → (s.slot a).state = .waitingForSignal →
      s.pred (s.slot a).waitSigPred b (s.slot a).waitSigData = true →
      takeTurn (.signalSet m) s = .next ({ s with signalBitmask := b }.updateSlot a fun x =>
        { x with currentAddress := x.currentAddress + 8, state := .running })) ∧
    ((∀ a, s.activeSlot = some a → (s.slot a).state = .waitingForSignal →
        s.pred (s.slot a).waitSigPred b (s.slot a).waitSigData = false) →
      takeTurn (.signalSet m) s = .next { s with signalBitmask := b }) ∧
    takeTurn (.signalClear m) s = .next { s with signalBitmask := s.signalBitmask &&& ~~~m }

/-- A poll tick returns the polling slot to Running with `pc` still at its WaitForReg, and disturbs no other countdown
(60_exceptions.md R266, R275). -/
def Obligations.PollTickRetries : Prop :=
  ∀ (s : State) (i : SlotId),
    (s.timer = ⟨true, .pollRetry, i, .pollTick, 1⟩ → (s.slot i).state = .waitingForReg →
      takeTurn .pollTick s = .next ({ s with timer := ⟨false, .pollRetry, i, .pollTick, 0⟩ }.updateSlot i fun x =>
        { x with state := .running })) ∧
    (s.timer.armed = false ∨ s.timer.tb ≠ .pollTick → takeTurn .pollTick s = .next s)

/-- Delay monotonicity: a tick leaves an absolute Delay in InDelay unless the counter has reached its threshold, and a
countdown that counts the counter's own base resumes it exactly then (43_wait.md R171). -/
def Obligations.DelayMonotonicity : Prop :=
  (∀ (s t : State) (src : TickSource) (n : Nat) (i : SlotId),
    (s.slot i).state = .inDelay → (s.slot i).delayIsRelative = false → tick s src n = .ok t →
    (t.slot i).state = .inDelay ∨
      ((t.slot i).state = .running ∧ (s.slot i).delayRemainingTicksOrTopValue.toNat ≤ t.absoluteDelayCounter)) ∧
  ∀ (s : State) (src : TickSource) (n T : Nat) (i : SlotId),
    s.params.countdownModel = .eventCounted → (s.slot i).state = .inDelay → (s.slot i).delayIsRelative = false →
    T = (s.slot i).delayRemainingTicksOrTopValue.toNat → s.absoluteDelayCounter < T → s.timeBase.source = some src →
    s.timer = ⟨true, .delay, i, src, T - s.absoluteDelayCounter⟩ → s.absoluteDelayCounter + n ≤ s.params.absCounterLimit →
    ∃ t, tick s src n = .ok t ∧ t.absoluteDelayCounter = s.absoluteDelayCounter + n ∧
      (s.absoluteDelayCounter + n < T → (t.slot i).state = .inDelay ∧
        t.timer = ⟨true, .delay, i, src, T - (s.absoluteDelayCounter + n)⟩) ∧
      (T ≤ s.absoluteDelayCounter + n → (t.slot i).state = .running ∧ t.timer.armed = false ∧ t.pc i = s.pc i)

/-! ## Control and output (44_control.md) -/

/-- Jump: 0 is a no-op in either mode, else relative to `pc + 8` or absolute (44_control.md R190, R191). -/
def Obligations.JumpResult : Prop :=
  ∀ (s : State) (a : SlotId) (base : BaseIndex) (offset : Nat) (d : Word), s.executor = some a →
    let s1 := s.logAccess (.read (s.pc a + 4) (some d))
    s.busRead (s.pc a + 4) = .value d →
    (d = 0 → ∀ mode, exec (.jump mode base offset) s = .next (s1.setPc a (s.pc a + 8))) ∧
    (d ≠ 0 → exec (.jump .relative base offset) s = .next (s1.setPc a (s.pc a + 8 + d)) ∧
      exec (.jump .absolute base offset) s = .next (s1.setPc a d))

/-- SetTrig writes, sets, clears or toggles the trigger bitmask and goes on by 8 (44_control.md R196). -/
def Obligations.SetTrigResult : Prop :=
  ∀ (s : State) (a : SlotId) (base : BaseIndex) (offset : Nat) (m : Word), s.executor = some a →
    let result := fun v : Word => (.next
      ({ s with triggerBitmask := v, trace := .read (s.pc a + 4) (some m) :: s.trace }.setPc a (s.pc a + 8)) : Outcome)
    s.busRead (s.pc a + 4) = .value m →
    exec (.setTrig .write base offset) s = result m ∧
    exec (.setTrig .set base offset) s = result (s.triggerBitmask ||| m) ∧
    exec (.setTrig .clear base offset) s = result (s.triggerBitmask &&& ~~~m) ∧
    exec (.setTrig .toggle base offset) s = result (s.triggerBitmask ^^^ m)

/-- SkipCond goes on by 16 when its condition holds and by 8 when not, in both variants (44_control.md R193, R194, R195). -/
def Obligations.SkipCondResult : Prop :=
  ∀ (s : State) (a : SlotId) (p : Predicate) (base : BaseIndex) (offset : Nat) (v d : Word), s.executor = some a →
    let s1 := s.logAccess (.read (s.target base offset) (some v))
    (s.busRead (s.target base offset) = .value v → s1.busRead (s.pc a + 4) = .value d →
      exec (.skipCond (.reg p) base offset) s = .next
        ((s1.logAccess (.read (s.pc a + 4) (some d))).setPc a
          (if s.pred p v d = true then s.pc a + 16 else s.pc a + 8))) ∧
    (s.busRead (s.pc a + 4) = .value d →
      exec (.skipCond (.sig p) base offset) s = .next
        ((s.logAccess (.read (s.pc a + 4) (some d))).setPc a
          (if s.pred p s.signalBitmask d = true then s.pc a + 16 else s.pc a + 8)))

/-- The no-op goes on by 4; the end of sequence makes its slot Idle with `pc` unchanged, raises its done pair, recomputes the
lines and starts the lowest Pending slot, deferred (44_control.md R198; 45_sequencer.md R217, R218). -/
def Obligations.EndSeqOrNopResult : Prop :=
  ∀ (s : State) (a : SlotId) (base : BaseIndex) (offset : Nat), s.executor = some a →
    exec (.endSeqOrNop .nop base offset) s = .next (s.setPc a (s.pc a + 4)) ∧
    ∃ t, exec (.endSeqOrNop .endSeq base offset) s = .next t ∧
      t.slot a = { s.slot a with state := .idle } ∧
      t.ifReg = s.ifReg ||| (1#10 <<< a.val) ∧ t.seqIf = s.seqIf ||| (1#10 <<< a.val) ∧
      t.irqHost = decide (t.ifReg &&& s.ien ≠ 0) ∧ t.irqSeq = decide (t.seqIf &&& s.seqIen ≠ 0) ∧
      (∀ i, (s.slot i).state = .pending → (∀ j, j < i → (s.slot j).state ≠ .pending) →
        t.timer = ⟨true, .deferredStart, i, .preCountOverflow, 1⟩ ∧
        t.slot i = { s.slot i with
          state := .running, currentAddress := (s.slot i).startAddress, delayRemainingTicksOrTopValue := 0,
          delayIsRelative := false, waitSigPred := .allSet, waitSigData := 0 } ∧
        ∀ j, j ≠ a → j ≠ i → t.slot j = s.slot j) ∧
      ((∀ i, (s.slot i).state ≠ .pending) → t.timer = s.timer ∧ ∀ j, j ≠ a → t.slot j = s.slot j) ∧
      t = { s with
        slots := t.slots, timer := t.timer, ifReg := t.ifReg, seqIf := t.seqIf, irqHost := t.irqHost, irqSeq := t.irqSeq }

/-- The trigger bitmask is written by no agent other than SetTrig; reset sets it to 0 (44_control.md R197;
70_reset_and_hazards.md R300). -/
def Obligations.OnlySetTrigWritesTriggers : Prop :=
  ∀ s t : State, step s = .next t → t.triggerBitmask ≠ s.triggerBitmask →
    (nextTurn s).1 = .reset ∨
    ∃ a w op base offset, s.ExecutorMoves a ∧ s.busRead (s.pc a) = .value w ∧
      decode s.params.maps s.layout w = .ok (.setTrig op base offset)

/-- The signal bitmask changes only by SignalSet, SignalClear and reset (10_state.md R33). -/
def Obligations.SignalsChangeOnlyByEvents : Prop :=
  ∀ s t : State, step s = .next t → t.signalBitmask ≠ s.signalBitmask →
    (nextTurn s).1 = .reset ∨ ∃ m, (nextTurn s).1 = .signalSet m ∨ (nextTurn s).1 = .signalClear m

/-- No event step performs a bus access of the core (60_exceptions.md R271), and an event changes memory only where another
master writes it. -/
def Obligations.EventsMakeNoBusAccess : Prop :=
  ∀ s t : State, step s = .next t → (nextTurn s).1 ≠ .executor →
    t.trace = s.trace ∧
    (t.mem ≠ s.mem → (∃ addr v, (nextTurn s).1 = .masterWrite addr v) ∨ ∃ addr b, (nextTurn s).1 = .masterWriteByte addr b)

/-- The core sets interrupt flags and never clears one (60_exceptions.md R281): a flag of IF or SEQIF is cleared only by a reset
or by a host write to that register with a 0 in its bit. No command, event or instruction clears one. -/
def Obligations.FlagsClearedOnlyByHost : Prop :=
  ∀ (s t : State) (k : Nat), step s = .next t →
    let clearedBy := fun r : HostReg => (nextTurn s).1 = .reset ∨
      ∃ off v, (nextTurn s).1 = .hostWrite .word off v ∧ s.regAt off = some r ∧ v.getLsbD k = false
    (s.ifReg.getLsbD k = true → t.ifReg.getLsbD k = false → clearedBy .ifReg) ∧
    (s.seqIf.getLsbD k = true → t.seqIf.getLsbD k = false → clearedBy .seqIf)

/-- The configuration the host writes is written by nothing else but reset: base addresses, CONFIG, EN, the masks, the enables
and every slot's start address and SEQCFG fields (10_state.md R21, R24, R35 to R39, R42). That the parameters stand in the state
as a field that no step writes is the model's choice, log 3; it is what makes a statement about every state one about every
value of the parameters. -/
def Obligations.ConfigurationWrittenByHostOnly : Prop :=
  (∀ s t : State, step s = .next t → t.params = s.params) ∧
  ∀ s t : State, step s = .next t → (nextTurn s).1 ≠ .reset → (∀ w off v, (nextTurn s).1 ≠ .hostWrite w off v) →
    t.baseAddress = s.baseAddress ∧ t.contWritePos = s.contWritePos ∧ t.basePos = s.basePos ∧ t.timeBase = s.timeBase ∧
    t.en = s.en ∧ t.eqMaskA = s.eqMaskA ∧ t.eqMaskB = s.eqMaskB ∧ t.ien = s.ien ∧ t.seqIen = s.seqIen ∧
    ∀ i, (t.slot i).startAddress = (s.slot i).startAddress ∧
      (t.slot i).hardwareStartSelect = (s.slot i).hardwareStartSelect ∧
      (t.slot i).hardwareTriggerMode = (s.slot i).hardwareTriggerMode ∧
      (t.slot i).disableAbsoluteDelayReset = (s.slot i).disableAbsoluteDelayReset ∧
      (t.slot i).movSwapAddresses = (s.slot i).movSwapAddresses

/-! ## The sequencer (45_sequencer.md) -/

/-- The checks of a start request: an empty mask, EN, slots that are not Idle (45_sequencer.md R214; attribution
60_exceptions.md R254). Under START_NON_IDLE = ignore a request is the request of its Idle slots. -/
def Obligations.RequestStartChecks : Prop :=
  ∀ (s : State) (m : SlotMask) (deferred : Bool),
    (m = 0 → requestStart s m deferred = .ok s) ∧
    (s.en = false → s.params.enPolicy = .ignore → requestStart s m deferred = .ok s) ∧
    (∀ i, inMask m i = true → (∀ j, j < i → inMask m j = false) → s.en = false → s.params.enPolicy = .fault →
      requestStart s m deferred = .error ⟨⟨.startWhileDisabled, some i, none, none⟩, s.preOutstanding⟩) ∧
    (s.en = true ∨ s.params.enPolicy = .none →
      (∀ i, inMask m i = true → (s.slot i).state ≠ .idle → (∀ j, j < i → inMask m j = true → (s.slot j).state = .idle) →
        s.params.startNonIdle = .fault →
        requestStart s m deferred = .error ⟨⟨.startNonIdle, some i, none, none⟩, s.preOutstanding⟩) ∧
      (s.params.startNonIdle = .ignore →
        ((∀ j, inMask m j = true → (s.slot j).state ≠ .idle) → requestStart s m deferred = .ok s) ∧
        ∀ idle : SlotMask, (∀ j, inMask idle j = true ↔ inMask m j = true ∧ (s.slot j).state = .idle) →
          requestStart s m deferred = requestStart s idle deferred))

/-- A request of Idle slots: with no slot active the lowest starts and the others become Pending; with one active all become
Pending (45_sequencer.md R214, R212). An immediate start that resets the counter first flushes the outstanding overflows
(60_exceptions.md R268): the counter absorbs them and is zeroed, or faults past its limit, with the started slot in the record
(the model's choice, log 37) and the overflows delivered (log 15). -/
def Obligations.RequestStartArbitrates : Prop :=
  ∀ (s : State) (m : SlotMask), s.en = true ∨ s.params.enPolicy = .none →
    (∀ i, inMask m i = true → (s.slot i).state = .idle) →
    let started := fun x : Slot => { x with
      state := .running, currentAddress := x.startAddress, delayRemainingTicksOrTopValue := 0,
      delayIsRelative := false, waitSigPred := .allSet, waitSigData := 0 }
    let pended := fun (i : SlotId) (x : Slot) => if inMask m i = true then { x with state := SlotState.pending } else x
    (∀ a deferred, s.activeSlot = some a → requestStart s m deferred = .ok (s.mapSlots pended)) ∧
    (∀ i0, s.activeSlot = none → inMask m i0 = true → (∀ j, j < i0 → inMask m j = false) →
      let t := s.mapSlots fun i x => if i = i0 then started x else pended i x
      requestStart s m true = .ok (t.arm .deferredStart i0 .preCountOverflow 1) ∧
      ((s.slot i0).disableAbsoluteDelayReset = true → requestStart s m false = .ok t) ∧
      ((s.slot i0).disableAbsoluteDelayReset = false →
        (s.preOutstanding = 0 ∨ s.TimerOwned ∧ s.FlushFits →
          requestStart s m false = .ok { t with absoluteDelayCounter := 0, preOutstanding := 0 }) ∧
        (¬s.FlushFits →
          requestStart s m false = .error ⟨⟨.counterOverflow, some i0, none, none⟩, 0⟩)))

/-- Abort takes every targeted slot that is not Idle, in one call, raises the one abort pair if there was one, and disarms the
timer only if the active slot is among them (45_sequencer.md R230, R231, R232, R234). After an abort of the active slot the
remaining Pending slots stay Pending, or under ARBITRATE_ON_ABORT the lowest of them starts, deferred (R233, R217). -/
def Obligations.AbortEffect : Prop :=
  ∀ (s : State) (m : SlotMask),
    let t := abort s m
    let taken := fun i => inMask m i = true ∧ (s.slot i).state ≠ .idle
    let hit := ∃ a, s.activeSlot = some a ∧ inMask m a = true
    let remains := fun i => (s.slot i).state = .pending ∧ inMask m i = false
    let starts := fun i => s.params.arbitrateOnAbort = true ∧ hit ∧ remains i ∧ ∀ j, j < i → ¬remains j
    (∀ i, (taken i → t.slot i = { s.slot i with
        state := .idle, delayRemainingTicksOrTopValue := 0, delayIsRelative := false }) ∧
      (starts i →
        t.slot i = { s.slot i with
          state := .running, currentAddress := (s.slot i).startAddress, delayRemainingTicksOrTopValue := 0,
          delayIsRelative := false, waitSigPred := .allSet, waitSigData := 0 } ∧
        t.timer = ⟨true, .deferredStart, i, .preCountOverflow, 1⟩) ∧
      (¬taken i → ¬starts i → t.slot i = s.slot i)) ∧
    (hit → (∀ i, ¬starts i) → t.timer = { s.timer with armed := false }) ∧
    (¬hit → t.timer = s.timer) ∧
    ((∃ i, taken i) → t.ifReg = s.ifReg ||| 0x100 ∧ t.seqIf = s.seqIf ||| 0x100 ∧
      t.irqHost = decide (t.ifReg &&& s.ien ≠ 0) ∧ t.irqSeq = decide (t.seqIf &&& s.seqIen ≠ 0)) ∧
    ((∀ i, ¬taken i) → t = s) ∧
    t = { s with
      slots := t.slots, timer := t.timer, ifReg := t.ifReg, seqIf := t.seqIf, irqHost := t.irqHost, irqSeq := t.irqSeq }

/-- A hardware event requests a deferred start of exactly the Idle slots that select it and whose mode is not disabled; a
capture-compare match is the event of its channel (45_sequencer.md R220, R221; 60_exceptions.md R272). -/
def Obligations.HwEventRequestsMatchingSlots : Prop :=
  ∀ (s : State) (e : BitVec 8),
    (∃ m : SlotMask, (∀ i, inMask m i = true ↔ (s.slot i).state = .idle ∧ (s.slot i).hardwareStartSelect = e ∧
        (s.slot i).hardwareTriggerMode ≠ 0) ∧
      takeTurn (.hwEvent e) s = s.settle (requestStart s m true)) ∧
    ∀ c, takeTurn (.captureCompare c) s = takeTurn (.hwEvent (Config.ccEventId c)) s

/-- Arbitration FIFO: 2, 5 and 7 requested at once run in that order (45_sequencer.md R219), whatever overflows are outstanding,
as long as their flush does not fault. -/
def Obligations.ArbitrationFifo : Prop :=
  ∀ s : State, s.en = true → (∀ i, (s.slot i).state = .idle) →
    (s.slot 2).disableAbsoluteDelayReset = true ∨ s.preOutstanding = 0 ∨ s.TimerOwned ∧ s.FlushFits →
    ∃ t, requestStart s 0xA4 false = .ok t ∧
      (t.slot 2).state = .running ∧ (t.slot 5).state = .pending ∧ (t.slot 7).state = .pending ∧
      let u := complete t 2
      (u.slot 2).state = .idle ∧ (u.slot 5).state = .running ∧ (u.slot 7).state = .pending ∧
      u.timer = ⟨true, .deferredStart, 5, .preCountOverflow, 1⟩ ∧
      let v := complete u 5
      (v.slot 5).state = .idle ∧ (v.slot 7).state = .running ∧ v.timer = ⟨true, .deferredStart, 7, .preCountOverflow, 1⟩

/-- A CMD write aborts, then resets the counter, then starts, each only if its field asks for it (45_sequencer.md R235). So one
that does all three to the active slot runs it again from its start address, with the outstanding overflows flushed; a flush that
overflows the counter faults with no slot in the record, the active slot being aborted by then (the model's choice, log 37). -/
def Obligations.HostCommandOrder : Prop :=
  (∀ (s : State) (off v : Word), s.regAt off = some .cmd →
    let answers := fun x : Except Raise State =>
      (∀ t, x = .ok t → takeTurn (.hostWrite .word off v) s = .next t) ∧
      ∀ e, x = .error e → takeTurn (.hostWrite .word off v) s =
        .next ({ s with preOutstanding := e.preOutstanding }.raiseFatal e.record)
    let s1 := if v.extractLsb' 8 8 = 0 then s else abort s (v.extractLsb' 8 8)
    let reset := if v.getLsbD 16 = true then resetAbsCounter s1 else .ok s1
    (∀ e, reset = .error e → answers (.error e)) ∧
    ∀ s2, reset = .ok s2 → answers (if v.extractLsb' 0 8 = 0 then .ok s2 else requestStart s2 (v.extractLsb' 0 8) false)) ∧
  ∀ (s : State) (i : SlotId) (off : Word), s.regAt off = some .cmd → s.OneActive → (s.slot i).state.active = true →
    s.en = true ∨ s.params.enPolicy = .none → (s.params.arbitrateOnAbort = true → ∀ j, (s.slot j).state ≠ .pending) →
    let command := Turn.hostWrite .word off ((1#32 <<< (8 + i.val)) ||| 0x10000 ||| (1#32 <<< i.val))
    (s.FlushFits → ∃ t, takeTurn command s = .next t ∧
      (t.slot i).state = .running ∧ t.pc i = (s.slot i).startAddress ∧ t.absoluteDelayCounter = 0 ∧ t.preOutstanding = 0 ∧
      t.ifReg = s.ifReg ||| 0x100 ∧ t.seqIf = s.seqIf ||| 0x100 ∧ t.timer.armed = false ∧
      ∀ j, j ≠ i → t.slot j = s.slot j) ∧
    (¬s.FlushFits → takeTurn command s =
      .next ({ s with preOutstanding := 0 }.raiseFatal ⟨.counterOverflow, none, none, none⟩))

/-- A slot goes from Pending to active only when the active sequence ends, or by one CMD write that aborts the slot itself or,
under ARBITRATE_ON_ABORT, the active one (45_sequencer.md R215, R217, R230, R235). -/
def Obligations.PendingStartsOnlyThroughArbiter : Prop :=
  ∀ (s t : State) (i : SlotId), step s = .next t → (s.slot i).state = .pending → (t.slot i).state.active = true →
    (∃ a w base offset, s.ExecutorMoves a ∧ s.busRead (s.pc a) = .value w ∧
      decode s.params.maps s.layout w = .ok (.endSeqOrNop .endSeq base offset)) ∨
    ∃ off v, (nextTurn s).1 = .hostWrite .word off v ∧ s.regAt off = some .cmd ∧
      (inMask (v.extractLsb' 8 8) i = true ∨
        (s.params.arbitrateOnAbort = true ∧ ∃ a, s.activeSlot = some a ∧ inMask (v.extractLsb' 8 8) a = true))

/-! ## Timers (60_exceptions.md) -/

/-- A tick counts on the configured base up to the limit, then counts the armed timer of its own source down, which expires at 0
(60_exceptions.md R261, R267, R269, R271; under COUNTDOWN_MODEL = Free a Delay's timer is not counted, R274, log 28). The events
of the protocol timer deliver such ticks (R270); an event of no tick changes nothing (log 2). The slot in the record of an
overflow is the one active in the state the tick is counted in (the model's choice, log 37). -/
def Obligations.TickCounts : Prop :=
  ∀ (s : State) (src : TickSource) (n : Nat),
    let ofBase := s.timeBase.source = some src
    let counted := { s with absoluteDelayCounter := if ofBase then s.absoluteDelayCounter + n else s.absoluteDelayCounter }
    let countsDown := s.timer.armed = true ∧ s.timer.tb = src ∧
      (s.params.countdownModel = .eventCounted ∨ s.timer.reason ≠ .delay)
    let delivers := fun (turn : Turn) (x : Except Raise State) =>
      (∀ t, x = .ok t → takeTurn turn s = .next t) ∧
      ∀ e, x = .error e → takeTurn turn s = .next ({ s with preOutstanding := e.preOutstanding }.raiseFatal e.record)
    (ofBase → s.params.absCounterLimit < s.absoluteDelayCounter + n →
      tick s src n = .error ⟨⟨.counterOverflow, s.activeSlot, none, none⟩, s.preOutstanding⟩) ∧
    ((ofBase → s.absoluteDelayCounter + n ≤ s.params.absCounterLimit) →
      (¬countsDown → tick s src n = .ok counted) ∧
      (countsDown → n < s.timer.remaining →
        tick s src n = .ok { counted with timer := { s.timer with remaining := s.timer.remaining - n } }) ∧
      (countsDown → s.timer.remaining ≤ n →
        tick s src n = expire { counted with timer := { s.timer with remaining := 0 } })) ∧
    takeTurn .preAccrue s = .next { s with preOutstanding := s.preOutstanding + 1 } ∧
    (0 < s.preOutstanding → delivers .preOverflow (tick { s with preOutstanding := 0 } .preCountOverflow s.preOutstanding)) ∧
    (s.preOutstanding = 0 → takeTurn .preOverflow s = .next s) ∧
    (0 < n → delivers (.baseOverflow n) (tick s .baseCountOverflow n) ∧
      delivers (.wrapOverflow n) (tick s .wrapCountOverflow n)) ∧
    (n = 0 → takeTurn (.baseOverflow n) s = .next s ∧ takeTurn (.wrapOverflow n) s = .next s)

/-- What an expiry does in each of its uses: it resumes a relative or reached Delay, re-arms an absolute one that is not
reached, starts a deferred slot, with the flush of a counter reset, and returns a poll to its WaitForReg; a slot in another state
than its use expects is a fault (60_exceptions.md R265, R266, R268; 45_sequencer.md R213). Under COUNTDOWN_MODEL = Free an armed
Delay may expire as an event (R274; where it is not enabled the turn changes nothing, logs 2, 28). -/
def Obligations.ExpiryResumes : Prop :=
  ∀ (s : State) (i : SlotId), s.timer.slot = i →
    let T := (s.slot i).delayRemainingTicksOrTopValue
    let d := { s with timer := { s.timer with armed := false } }
    let expects : SlotState := match s.timer.reason with
      | .deferredStart => .running
      | .delay => .inDelay
      | .pollRetry => .waitingForReg
    ((s.slot i).state ≠ expects → expire s = .error ⟨⟨.resumeInvariant, some i, some (s.pc i), none⟩, s.preOutstanding⟩) ∧
    (s.timer.reason = .delay → (s.slot i).state = .inDelay →
      ((s.slot i).delayIsRelative = true ∨ T.toNat ≤ s.absoluteDelayCounter →
        expire s = .ok (d.updateSlot i fun x =>
          { x with state := .running, delayRemainingTicksOrTopValue := 0, delayIsRelative := false })) ∧
      ((s.slot i).delayIsRelative = false → s.absoluteDelayCounter < T.toNat →
        (∀ tb, s.timeBase.source = some tb →
          expire s = .ok (s.arm .delay i tb (T.toNat - s.absoluteDelayCounter))) ∧
        (s.timeBase = .clock → expire s = .error ⟨⟨.clockTimeBase, some i, some (s.pc i), none⟩, s.preOutstanding⟩))) ∧
    (s.timer.reason = .deferredStart → (s.slot i).state = .running → s.activeSlot = some i →
      ((s.slot i).disableAbsoluteDelayReset = true → expire s = .ok d) ∧
      ((s.slot i).disableAbsoluteDelayReset = false →
        (s.FlushFits → expire s = .ok { d with absoluteDelayCounter := 0, preOutstanding := 0 }) ∧
        (¬s.FlushFits → expire s = .error ⟨⟨.counterOverflow, some i, none, none⟩, 0⟩))) ∧
    (s.timer.reason = .pollRetry → (s.slot i).state = .waitingForReg →
      expire s = .ok (d.updateSlot i fun x => { x with state := .running })) ∧
    let mayExpire := s.params.countdownModel = .free ∧ s.timer.armed = true ∧ s.timer.reason = .delay
    (mayExpire → (∀ t, expire s = .ok t → takeTurn .timerExpire s = .next t) ∧
      ∀ e, expire s = .error e → takeTurn .timerExpire s =
        .next ({ s with preOutstanding := e.preOutstanding }.raiseFatal e.record)) ∧
    (¬mayExpire → takeTurn .timerExpire s = .next s)

/-- A counter reset flushes the outstanding overflows as one tick, zeroes the counter, and arms an absolute Delay in progress
against the new baseline, or faults as that arming does (60_exceptions.md R268, R264, R254). -/
def Obligations.ResetAbsCounterResult : Prop :=
  ∀ s : State,
    let flushed := if s.preOutstanding = 0 then .ok s
      else tick { s with preOutstanding := 0 } .preCountOverflow s.preOutstanding
    (∀ e, flushed = .error e → resetAbsCounter s = .error e) ∧
    (∀ u, flushed = .ok u →
      let zeroed := { u with absoluteDelayCounter := 0 }
      let waits := fun a => u.activeSlot = some a ∧ (u.slot a).state = .inDelay ∧ (u.slot a).delayIsRelative = false
      ((∀ a, ¬waits a) → resetAbsCounter s = .ok zeroed) ∧
      ∀ a, waits a →
        let T := (u.slot a).delayRemainingTicksOrTopValue
        (∀ tb, u.timeBase.source = some tb → T ≠ 0 → resetAbsCounter s = .ok (zeroed.arm .delay a tb T.toNat)) ∧
        (∀ tb, u.timeBase.source = some tb → T = 0 →
          resetAbsCounter s = .error ⟨⟨.delayThresholdPassed, some a, some (u.pc a), none⟩, 0⟩) ∧
        (u.timeBase = .clock → resetAbsCounter s = .error ⟨⟨.clockTimeBase, some a, some (u.pc a), none⟩, 0⟩)) ∧
    ∀ t, resetAbsCounter s = .ok t →
      t.absoluteDelayCounter = 0 ∧ t.preOutstanding = 0 ∧
      ∀ a, t.activeSlot = some a → (t.slot a).state = .inDelay → (t.slot a).delayIsRelative = false →
        ∃ tb, t.timeBase.source = some tb ∧
          t.timer = ⟨true, .delay, a, tb, (t.slot a).delayRemainingTicksOrTopValue.toNat⟩

/-! ## The host's registers (10_state.md) -/

/-- A host write of an RW register takes effect at once, reads back in its named bits, the others read 0, and changes nothing
else but the lines, which it recomputes; read-only registers ignore it, and CMD reads 0 (10_state.md R40, R42, R47;
60_exceptions.md R282). -/
def Obligations.HostWriteReadsBack : Prop :=
  ∀ (s : State) (r : HostReg) (off v : Word), s.regAt off = some r →
    (∀ mask, namedBits r = some mask →
      ∃ t, takeTurn (.hostWrite .word off v) s = .next t ∧ t.regValue r = v &&& mask ∧ s.OnlyRegister r t ∧
        (r ∈ [HostReg.ifReg, .ien, .seqIf, .seqIen] →
          t.irqHost = decide (t.ifReg &&& t.ien ≠ 0) ∧ t.irqSeq = decide (t.seqIf &&& t.seqIen ≠ 0))) ∧
    (r = .status ∨ r = .seqAddr ∨ r = .busErrAddr → takeTurn (.hostWrite .word off v) s = .next s) ∧
    s.regValue .cmd = 0

/-- A host read returns the register's value and changes nothing of the block; STATUS shows the active and the Pending slots,
SEQADDR the active slot's address (10_state.md R46). -/
def Obligations.HostReadReturnsValue : Prop :=
  ∀ (s : State),
    (∀ (r : HostReg) (off : Word), s.regAt off = some r →
      ∃ t, takeTurn (.hostRead .word off) s = .next t ∧ t.hostReadData = s.regValue r ∧
        t = { s with hostReadData := t.hostReadData, freeDraws := t.freeDraws }) ∧
    (∀ i : SlotId, (s.regValue .status).getLsbD i.val = (s.slot i).state.active ∧
      (s.regValue .status).getLsbD (8 + i.val) = decide ((s.slot i).state = .pending)) ∧
    ∀ a, s.activeSlot = some a → s.regValue .seqAddr = (s.slot a).currentAddress

/-- A host access of another width, or at an offset that is no register's, is refused (10_state.md R40). -/
def Obligations.HostRefusesUnmapped : Prop :=
  ∀ (s : State) (width : AccessWidth) (off v : Word), width ≠ .word ∨ s.regAt off = none →
    (∃ r, takeTurn (.hostRead width off) s = .refused r) ∧ ∃ r, takeTurn (.hostWrite width off v) s = .refused r

/-! ## Reset and the invariant -/

/-- The reset values (10_state.md R48), as the reset event installs them in any state; the environment's state and the fault
record stay (70_reset_and_hazards.md R300, R302). -/
def Obligations.ResetInstallsValues : Prop :=
  ∀ s : State, ∃ t, takeTurn .reset s = .next t ∧
    (∀ i, t.slot i = ⟨.idle, 0, 0, 0, 0, false, false, 0, false, .allSet, 0⟩) ∧
    t.absoluteDelayCounter = 0 ∧ t.signalBitmask = 0 ∧ t.triggerBitmask = 0 ∧ (∀ k : BaseIndex, t.baseAddress[k] = 0) ∧
    t.contWritePos = 0 ∧ t.basePos = 0 ∧ t.en = false ∧ t.timeBase = .clock ∧ t.eqMaskA = 0 ∧ t.eqMaskB = 0 ∧
    t.busErrAddr = 0 ∧ t.ifReg = 0 ∧ t.ien = 0 ∧ t.seqIf = 0 ∧ t.seqIen = 0 ∧
    t.timer.armed = false ∧ t.timer.remaining = 0 ∧ t.irqHost = false ∧ t.irqSeq = false ∧ t.fault = s.fault ∧
    t.preOutstanding = s.preOutstanding ∧ t.mem = s.mem

/-- The reset state is sound, whatever the parameters, the memory in canonical form and the schedule. -/
def Obligations.ResetIsSound : Prop :=
  ∀ (params : Config.Params) (mem : Memory) (schedule : List Turn), mem.wf = true →
    State.Sound { State.reset with params := params, mem := mem, schedule := schedule }

/-- Every step keeps the state sound: at most one slot active, the timer armed only for the active slot in the state its reason
expects, a waiter's timer armed, the counter within its limit, the lines equal to their expressions, memory in canonical form
(10_state.md R22; 45_sequencer.md R237; 60_exceptions.md R269, R282). -/
def Obligations.StepKeepsSound : Prop :=
  ∀ s t : State, s.Sound → step s = .next t → t.Sound

/-- No step from a sound state records ResumeInvariant: every resumption finds the state it expects (40_execution_cycle.md
R118). -/
def Obligations.ResumeInvariantUnreachable : Prop :=
  ∀ s t : State, s.Sound → step s = .next t → ¬t.FaultedWith .resumeInvariant
end

