-- ==== Sys2Proof/Laws/Memory.lean ====
section
/-! SUPPORT. Memory: read after write, and the canonical form kept by every memory operation. -/

namespace Sys2Proof.Machine

/-! ## One byte -/

@[simp] theorem Memory.get_nil (a : Nat) : Memory.get [] a = Memory.unlisted := rfl

theorem Memory.get_cons (k : Nat) (v : Byte) (m : Memory) (a : Nat) :
    Memory.get ((k, v) :: m) a = if k = a then v else Memory.get m a := rfl

/-- An address below every listed one reads as unlisted. -/
theorem Memory.get_of_lt {lo : Nat} {m : Memory} (h : Memory.sortedFrom lo m = true) {a : Nat} (ha : a < lo) :
    Memory.get m a = Memory.unlisted := by
  induction m generalizing lo with
  | nil => rfl
  | cons c m ih =>
    obtain ⟨k, v⟩ := c
    simp only [Memory.sortedFrom, Bool.and_eq_true, decide_eq_true_eq] at h
    rw [Memory.get_cons, if_neg (by omega)]
    exact ih h.2 (by omega)

theorem Memory.sortedFrom_mono {lo lo' : Nat} {m : Memory} (h : Memory.sortedFrom lo m = true) (hl : lo' ≤ lo) :
    Memory.sortedFrom lo' m = true := by
  cases m with
  | nil => rfl
  | cons c m =>
    obtain ⟨k, v⟩ := c
    simp only [Memory.sortedFrom, Bool.and_eq_true, decide_eq_true_eq] at h ⊢
    exact ⟨by omega, h.2⟩

theorem Memory.get_consEntry (k : Nat) (b : Byte) (m : Memory) (h : Memory.sortedFrom (k + 1) m = true) (a : Nat) :
    Memory.get (Memory.cons k b m) a = if k = a then b else Memory.get m a := by
  unfold Memory.cons
  split
  · next hb =>
    split
    · next hk => subst hk; subst hb; exact Memory.get_of_lt h (by omega)
    · rfl
  · rfl

/-- A read after a write of the same or another byte. -/
theorem Memory.get_set {lo : Nat} {m : Memory} (h : Memory.sortedFrom lo m = true) (k a : Nat) (b : Byte) :
    Memory.get (Memory.set m k b) a = if k = a then b else Memory.get m a := by
  induction m generalizing lo with
  | nil =>
    simp only [Memory.set]
    rw [Memory.get_consEntry k b [] rfl]
  | cons c m ih =>
    obtain ⟨j, v⟩ := c
    simp only [Memory.sortedFrom, Bool.and_eq_true, decide_eq_true_eq] at h
    simp only [Memory.set]
    split
    · next hlt =>
      rw [Memory.get_consEntry]
      simp only [Memory.sortedFrom, Bool.and_eq_true, decide_eq_true_eq]
      exact ⟨by omega, h.2⟩
    · split
      · next hj =>
        subst hj
        rw [Memory.get_consEntry _ _ _ h.2, Memory.get_cons]
        split <;> rfl
      · next hne =>
        rw [Memory.get_cons, Memory.get_cons, ih h.2]
        split
        · next hja => rw [if_neg (by omega)]
        · rfl

/-! ## The canonical form -/

theorem Memory.sortedFrom_cons {lo k : Nat} (b : Byte) {m : Memory} (hm : Memory.sortedFrom (k + 1) m = true)
    (hk : lo ≤ k) : Memory.sortedFrom lo (Memory.cons k b m) = true := by
  unfold Memory.cons
  split
  · exact Memory.sortedFrom_mono hm (by omega)
  · simp [Memory.sortedFrom, hk, hm]

theorem Memory.sortedFrom_set {lo : Nat} {m : Memory} (h : Memory.sortedFrom lo m = true) (k : Nat) (b : Byte)
    (hk : lo ≤ k) : Memory.sortedFrom lo (Memory.set m k b) = true := by
  induction m generalizing lo with
  | nil => exact Memory.sortedFrom_cons b rfl hk
  | cons c m ih =>
    obtain ⟨j, v⟩ := c
    simp only [Memory.sortedFrom, Bool.and_eq_true, decide_eq_true_eq] at h
    simp only [Memory.set]
    split
    · next hlt =>
      apply Memory.sortedFrom_cons _ _ hk
      simp only [Memory.sortedFrom, Bool.and_eq_true, decide_eq_true_eq]
      exact ⟨by omega, h.2⟩
    · split
      · next hj => subst hj; exact Memory.sortedFrom_cons b h.2 h.1
      · next hne =>
        simp only [Memory.sortedFrom, Bool.and_eq_true, decide_eq_true_eq]
        exact ⟨h.1, ih h.2 (by omega)⟩

/-- A property of every entry that the new entry has too is kept by a write. -/
theorem Memory.all_set {p : Host.Cell → Bool} {m : Memory} (h : m.all p = true) (k : Nat) (b : Byte)
    (hb : b ≠ Memory.unlisted → p (k, b) = true) : (Memory.set m k b).all p = true := by
  have hcons : ∀ m' : Memory, m'.all p = true → (Memory.cons k b m').all p = true := by
    intro m' hm'
    unfold Memory.cons
    split
    · exact hm'
    · next hne => simp only [List.all_cons, Bool.and_eq_true]; exact ⟨hb hne, hm'⟩
  induction m with
  | nil => exact hcons [] rfl
  | cons c m ih =>
    obtain ⟨j, v⟩ := c
    simp only [List.all_cons, Bool.and_eq_true] at h
    simp only [Memory.set]
    split
    · exact hcons _ (by simpa using h)
    · split
      · exact hcons _ h.2
      · simp only [List.all_cons, Bool.and_eq_true]; exact ⟨h.1, ih h.2⟩

theorem Memory.sorted_of_wf {m : Memory} (h : m.wf = true) : Memory.sortedFrom 0 m = true := by
  simp only [Memory.wf, Bool.and_eq_true] at h; exact h.1

/-- Every write of a byte at a 32-bit address keeps the canonical form. -/
theorem Memory.wf_set {m : Memory} (h : m.wf = true) (k : Nat) (b : Byte) (hk : k < 2 ^ 32) :
    (Memory.set m k b).wf = true := by
  simp only [Memory.wf, Bool.and_eq_true] at h ⊢
  refine ⟨Memory.sortedFrom_set h.1 k b (by omega), Memory.all_set h.2 k b fun hb => ?_⟩
  simpa [hb] using hk

theorem Memory.wf_nil : Memory.wf [] = true := rfl

theorem Memory.wf_setByteAt {m : Memory} (h : m.wf = true) (a : Word) (b : Byte) : (m.setByteAt a b).wf = true :=
  Memory.wf_set h _ _ a.isLt

/-- Every write of a word keeps the canonical form. -/
theorem Memory.wf_writeWord {m : Memory} (h : m.wf = true) (o : ByteOrder) (a v : Word) : (m.writeWord o a v).wf = true := by
  unfold Memory.writeWord
  exact Memory.wf_setByteAt (Memory.wf_setByteAt (Memory.wf_setByteAt (Memory.wf_setByteAt h _ _) _ _) _ _) _ _

/-- A read after a write of a byte at a 32-bit address. -/
theorem Memory.byteAt_setByteAt {m : Memory} (h : m.wf = true) (k a : Word) (b : Byte) :
    (m.setByteAt k b).byteAt a = if k = a then b else m.byteAt a := by
  unfold Memory.byteAt Memory.setByteAt
  rw [Memory.get_set (Memory.sorted_of_wf h)]
  simp [BitVec.toNat_inj]

/-! ## Equal memories are equal data -/

theorem Memory.ext_sorted : ∀ {lo : Nat} {m n : Memory}, Memory.sortedFrom lo m = true → Memory.sortedFrom lo n = true →
    (∀ c ∈ m, c.2 ≠ Memory.unlisted) → (∀ c ∈ n, c.2 ≠ Memory.unlisted) → (∀ a, Memory.get m a = Memory.get n a) → m = n
  | _, [], [], _, _, _, _, _ => rfl
  | _, [], (k, v) :: n, _, _, _, hn, h => by
    have := h k
    rw [Memory.get_nil, Memory.get_cons, if_pos rfl] at this
    exact absurd this.symm (hn (k, v) (by simp))
  | _, (k, v) :: m, [], _, _, hm, _, h => by
    have := h k
    rw [Memory.get_nil, Memory.get_cons, if_pos rfl] at this
    exact absurd this (hm (k, v) (by simp))
  | lo, (k, v) :: m, (j, u) :: n, sm, sn, hm, hn, h => by
    simp only [Memory.sortedFrom, Bool.and_eq_true, decide_eq_true_eq] at sm sn
    have hk := h k
    have hj := h j
    simp only [Memory.get_cons, if_true] at hk hj
    have hkj : k = j := by
      rcases Nat.lt_trichotomy k j with hlt | heq | hlt
      · rw [if_neg (by omega), Memory.get_of_lt sn.2 (by omega)] at hk
        exact absurd hk (hm (k, v) (by simp))
      · exact heq
      · rw [if_neg (by omega), Memory.get_of_lt sm.2 (by omega)] at hj
        exact absurd hj.symm (hn (j, u) (by simp))
    subst hkj
    simp only [if_true] at hk
    subst hk
    congr 1
    refine Memory.ext_sorted (lo := k + 1) sm.2 sn.2 (fun c hc => hm c (by simp [hc])) (fun c hc => hn c (by simp [hc])) ?_
    intro a
    have ha := h a
    simp only [Memory.get_cons] at ha
    by_cases hka : k = a
    · subst hka
      rw [Memory.get_of_lt sm.2 (by omega), Memory.get_of_lt sn.2 (by omega)]
    · simpa [hka] using ha

/-- Two memories in canonical form that read alike everywhere are equal. -/
theorem Memory.ext_of_wf {m n : Memory} (hm : m.wf = true) (hn : n.wf = true) (h : ∀ a, Memory.get m a = Memory.get n a) :
    m = n := by
  have entries : ∀ {m : Memory}, m.wf = true → ∀ c ∈ m, c.2 ≠ Memory.unlisted := by
    intro m hm c hc
    simp only [Memory.wf, Bool.and_eq_true, List.all_eq_true, decide_eq_true_eq] at hm
    exact (hm.2 c hc).2
  exact Memory.ext_sorted (Memory.sorted_of_wf hm) (Memory.sorted_of_wf hn) (entries hm) (entries hn) h

/-! ## Words -/

theorem add_left_ne (a x y : Word) (h : x ≠ y) : a + x ≠ a + y := by
  intro e; exact h (BitVec.add_right_inj a |>.mp e)

theorem self_ne_add (a x : Word) (h : x ≠ 0) : a ≠ a + x := by
  intro e
  exact h ((BitVec.add_right_inj a).mp (by simpa using e.symm))

/-- The byte at an address after a word write: one of the four written bytes, or what was there. -/
theorem Memory.byteAt_writeWord {m : Memory} (h : m.wf = true) (o : ByteOrder) (a v x : Word) :
    (m.writeWord o a v).byteAt x =
      if a + 3 = x then (wordBytes o v).2.2.2
      else if a + 2 = x then (wordBytes o v).2.2.1
      else if a + 1 = x then (wordBytes o v).2.1
      else if a = x then (wordBytes o v).1
      else m.byteAt x := by
  unfold Memory.writeWord
  have h0 := Memory.wf_setByteAt h a (wordBytes o v).1
  have h1 := Memory.wf_setByteAt h0 (a + 1) (wordBytes o v).2.1
  have h2 := Memory.wf_setByteAt h1 (a + 2) (wordBytes o v).2.2.1
  rw [Memory.byteAt_setByteAt h2, Memory.byteAt_setByteAt h1, Memory.byteAt_setByteAt h0, Memory.byteAt_setByteAt h]

/-- A word write leaves every byte outside its four bytes alone. -/
theorem Memory.byteAt_writeWord_of_ne {m : Memory} (h : m.wf = true) (o : ByteOrder) (a v x : Word)
    (h0 : x ≠ a) (h1 : x ≠ a + 1) (h2 : x ≠ a + 2) (h3 : x ≠ a + 3) : (m.writeWord o a v).byteAt x = m.byteAt x := by
  rw [Memory.byteAt_writeWord h, if_neg h3.symm, if_neg h2.symm, if_neg h1.symm, if_neg h0.symm]

theorem bytesWord_wordBytes (o : ByteOrder) (v : Word) :
    bytesWord o (wordBytes o v).1 (wordBytes o v).2.1 (wordBytes o v).2.2.1 (wordBytes o v).2.2.2 = v := by
  cases o <;>
  · simp only [bytesWord, wordBytes]
    ext i hi
    simp only [BitVec.getElem_append, BitVec.getElem_extractLsb']
    repeat' split
    all_goals (rw [← BitVec.getLsbD_eq_getElem]; congr 1; omega)

/-- A word read after a word write at the same address gives the word written (20_memory.md R63). -/
theorem Memory.readWord_writeWord {m : Memory} (h : m.wf = true) (o : ByteOrder) (a v : Word) :
    (m.writeWord o a v).readWord o a = v := by
  unfold Memory.readWord
  simp only [Memory.byteAt_writeWord h]
  have e1 : a + 1 ≠ a := (self_ne_add a 1 (by decide)).symm
  have e2 : a + 2 ≠ a := (self_ne_add a 2 (by decide)).symm
  have e3 : a + 3 ≠ a := (self_ne_add a 3 (by decide)).symm
  have e21 : a + 2 ≠ a + 1 := add_left_ne a 2 1 (by decide)
  have e31 : a + 3 ≠ a + 1 := add_left_ne a 3 1 (by decide)
  have e32 : a + 3 ≠ a + 2 := add_left_ne a 3 2 (by decide)
  simp only [e1, e2, e3, e21, e31, e32, if_true, if_false]
  exact bytesWord_wordBytes o v

end Sys2Proof.Machine
end

