-- ==== Sys2Proof/Laws/State.lean ====
section
/-! SUPPORT. One lemma per field per update of the state, and per derived reader, true by rfl. -/

namespace Sys2Proof.Machine

variable (s : State)

/-! ## updateSlot -/

@[simp] theorem State.updateSlot_absoluteDelayCounter (i : SlotId) (f : Slot → Slot) : (s.updateSlot i f).absoluteDelayCounter = s.absoluteDelayCounter := rfl
@[simp] theorem State.updateSlot_signalBitmask (i : SlotId) (f : Slot → Slot) : (s.updateSlot i f).signalBitmask = s.signalBitmask := rfl
@[simp] theorem State.updateSlot_triggerBitmask (i : SlotId) (f : Slot → Slot) : (s.updateSlot i f).triggerBitmask = s.triggerBitmask := rfl
@[simp] theorem State.updateSlot_baseAddress (i : SlotId) (f : Slot → Slot) : (s.updateSlot i f).baseAddress = s.baseAddress := rfl
@[simp] theorem State.updateSlot_contWritePos (i : SlotId) (f : Slot → Slot) : (s.updateSlot i f).contWritePos = s.contWritePos := rfl
@[simp] theorem State.updateSlot_basePos (i : SlotId) (f : Slot → Slot) : (s.updateSlot i f).basePos = s.basePos := rfl
@[simp] theorem State.updateSlot_en (i : SlotId) (f : Slot → Slot) : (s.updateSlot i f).en = s.en := rfl
@[simp] theorem State.updateSlot_timeBase (i : SlotId) (f : Slot → Slot) : (s.updateSlot i f).timeBase = s.timeBase := rfl
@[simp] theorem State.updateSlot_eqMaskA (i : SlotId) (f : Slot → Slot) : (s.updateSlot i f).eqMaskA = s.eqMaskA := rfl
@[simp] theorem State.updateSlot_eqMaskB (i : SlotId) (f : Slot → Slot) : (s.updateSlot i f).eqMaskB = s.eqMaskB := rfl
@[simp] theorem State.updateSlot_busErrAddr (i : SlotId) (f : Slot → Slot) : (s.updateSlot i f).busErrAddr = s.busErrAddr := rfl
@[simp] theorem State.updateSlot_ifReg (i : SlotId) (f : Slot → Slot) : (s.updateSlot i f).ifReg = s.ifReg := rfl
@[simp] theorem State.updateSlot_ien (i : SlotId) (f : Slot → Slot) : (s.updateSlot i f).ien = s.ien := rfl
@[simp] theorem State.updateSlot_seqIf (i : SlotId) (f : Slot → Slot) : (s.updateSlot i f).seqIf = s.seqIf := rfl
@[simp] theorem State.updateSlot_seqIen (i : SlotId) (f : Slot → Slot) : (s.updateSlot i f).seqIen = s.seqIen := rfl
@[simp] theorem State.updateSlot_timer (i : SlotId) (f : Slot → Slot) : (s.updateSlot i f).timer = s.timer := rfl
@[simp] theorem State.updateSlot_irqHost (i : SlotId) (f : Slot → Slot) : (s.updateSlot i f).irqHost = s.irqHost := rfl
@[simp] theorem State.updateSlot_irqSeq (i : SlotId) (f : Slot → Slot) : (s.updateSlot i f).irqSeq = s.irqSeq := rfl
@[simp] theorem State.updateSlot_fault (i : SlotId) (f : Slot → Slot) : (s.updateSlot i f).fault = s.fault := rfl
@[simp] theorem State.updateSlot_preOutstanding (i : SlotId) (f : Slot → Slot) : (s.updateSlot i f).preOutstanding = s.preOutstanding := rfl
@[simp] theorem State.updateSlot_mem (i : SlotId) (f : Slot → Slot) : (s.updateSlot i f).mem = s.mem := rfl
@[simp] theorem State.updateSlot_trace (i : SlotId) (f : Slot → Slot) : (s.updateSlot i f).trace = s.trace := rfl
@[simp] theorem State.updateSlot_hostReadData (i : SlotId) (f : Slot → Slot) : (s.updateSlot i f).hostReadData = s.hostReadData := rfl
@[simp] theorem State.updateSlot_freeDraws (i : SlotId) (f : Slot → Slot) : (s.updateSlot i f).freeDraws = s.freeDraws := rfl
@[simp] theorem State.updateSlot_schedule (i : SlotId) (f : Slot → Slot) : (s.updateSlot i f).schedule = s.schedule := rfl
@[simp] theorem State.updateSlot_params (i : SlotId) (f : Slot → Slot) : (s.updateSlot i f).params = s.params := rfl
@[simp] theorem State.updateSlot_deferralArmed (i : SlotId) (f : Slot → Slot) : (s.updateSlot i f).deferralArmed = s.deferralArmed := rfl
@[simp] theorem State.updateSlot_layout (i : SlotId) (f : Slot → Slot) : (s.updateSlot i f).layout = s.layout := rfl
@[simp] theorem State.updateSlot_target (i : SlotId) (f : Slot → Slot) (base : BaseIndex) (o : Nat) : (s.updateSlot i f).target base o = s.target base o := rfl
@[simp] theorem State.updateSlot_pred (i : SlotId) (f : Slot → Slot) (p : Predicate) (v d : Word) : (s.updateSlot i f).pred p v d = s.pred p v d := rfl
@[simp] theorem State.updateSlot_regionAt (i : SlotId) (f : Slot → Slot) (addr : Word) : (s.updateSlot i f).regionAt addr = s.regionAt addr := rfl
@[simp] theorem State.updateSlot_inWindow (i : SlotId) (f : Slot → Slot) (addr : Word) : (s.updateSlot i f).inWindow addr = s.inWindow addr := rfl
@[simp] theorem State.updateSlot_touchesWindow (i : SlotId) (f : Slot → Slot) (addr : Word) : (s.updateSlot i f).touchesWindow addr = s.touchesWindow addr := rfl
@[simp] theorem State.updateSlot_plainAnswer (i : SlotId) (f : Slot → Slot) {α : Type} (addr : Word) (v : α) : (s.updateSlot i f).plainAnswer addr v = s.plainAnswer addr v := rfl
@[simp] theorem State.updateSlot_busRead (i : SlotId) (f : Slot → Slot) (addr : Word) : (s.updateSlot i f).busRead addr = s.busRead addr := rfl
@[simp] theorem State.updateSlot_busWrite (i : SlotId) (f : Slot → Slot) (addr v : Word) : (s.updateSlot i f).busWrite addr v = s.busWrite addr v := rfl

/-! ## setSlotState -/

@[simp] theorem State.setSlotState_absoluteDelayCounter (i : SlotId) (x : SlotState) : (s.setSlotState i x).absoluteDelayCounter = s.absoluteDelayCounter := rfl
@[simp] theorem State.setSlotState_signalBitmask (i : SlotId) (x : SlotState) : (s.setSlotState i x).signalBitmask = s.signalBitmask := rfl
@[simp] theorem State.setSlotState_triggerBitmask (i : SlotId) (x : SlotState) : (s.setSlotState i x).triggerBitmask = s.triggerBitmask := rfl
@[simp] theorem State.setSlotState_baseAddress (i : SlotId) (x : SlotState) : (s.setSlotState i x).baseAddress = s.baseAddress := rfl
@[simp] theorem State.setSlotState_contWritePos (i : SlotId) (x : SlotState) : (s.setSlotState i x).contWritePos = s.contWritePos := rfl
@[simp] theorem State.setSlotState_basePos (i : SlotId) (x : SlotState) : (s.setSlotState i x).basePos = s.basePos := rfl
@[simp] theorem State.setSlotState_en (i : SlotId) (x : SlotState) : (s.setSlotState i x).en = s.en := rfl
@[simp] theorem State.setSlotState_timeBase (i : SlotId) (x : SlotState) : (s.setSlotState i x).timeBase = s.timeBase := rfl
@[simp] theorem State.setSlotState_eqMaskA (i : SlotId) (x : SlotState) : (s.setSlotState i x).eqMaskA = s.eqMaskA := rfl
@[simp] theorem State.setSlotState_eqMaskB (i : SlotId) (x : SlotState) : (s.setSlotState i x).eqMaskB = s.eqMaskB := rfl
@[simp] theorem State.setSlotState_busErrAddr (i : SlotId) (x : SlotState) : (s.setSlotState i x).busErrAddr = s.busErrAddr := rfl
@[simp] theorem State.setSlotState_ifReg (i : SlotId) (x : SlotState) : (s.setSlotState i x).ifReg = s.ifReg := rfl
@[simp] theorem State.setSlotState_ien (i : SlotId) (x : SlotState) : (s.setSlotState i x).ien = s.ien := rfl
@[simp] theorem State.setSlotState_seqIf (i : SlotId) (x : SlotState) : (s.setSlotState i x).seqIf = s.seqIf := rfl
@[simp] theorem State.setSlotState_seqIen (i : SlotId) (x : SlotState) : (s.setSlotState i x).seqIen = s.seqIen := rfl
@[simp] theorem State.setSlotState_timer (i : SlotId) (x : SlotState) : (s.setSlotState i x).timer = s.timer := rfl
@[simp] theorem State.setSlotState_irqHost (i : SlotId) (x : SlotState) : (s.setSlotState i x).irqHost = s.irqHost := rfl
@[simp] theorem State.setSlotState_irqSeq (i : SlotId) (x : SlotState) : (s.setSlotState i x).irqSeq = s.irqSeq := rfl
@[simp] theorem State.setSlotState_fault (i : SlotId) (x : SlotState) : (s.setSlotState i x).fault = s.fault := rfl
@[simp] theorem State.setSlotState_preOutstanding (i : SlotId) (x : SlotState) : (s.setSlotState i x).preOutstanding = s.preOutstanding := rfl
@[simp] theorem State.setSlotState_mem (i : SlotId) (x : SlotState) : (s.setSlotState i x).mem = s.mem := rfl
@[simp] theorem State.setSlotState_trace (i : SlotId) (x : SlotState) : (s.setSlotState i x).trace = s.trace := rfl
@[simp] theorem State.setSlotState_hostReadData (i : SlotId) (x : SlotState) : (s.setSlotState i x).hostReadData = s.hostReadData := rfl
@[simp] theorem State.setSlotState_freeDraws (i : SlotId) (x : SlotState) : (s.setSlotState i x).freeDraws = s.freeDraws := rfl
@[simp] theorem State.setSlotState_schedule (i : SlotId) (x : SlotState) : (s.setSlotState i x).schedule = s.schedule := rfl
@[simp] theorem State.setSlotState_params (i : SlotId) (x : SlotState) : (s.setSlotState i x).params = s.params := rfl
@[simp] theorem State.setSlotState_deferralArmed (i : SlotId) (x : SlotState) : (s.setSlotState i x).deferralArmed = s.deferralArmed := rfl
@[simp] theorem State.setSlotState_layout (i : SlotId) (x : SlotState) : (s.setSlotState i x).layout = s.layout := rfl
@[simp] theorem State.setSlotState_target (i : SlotId) (x : SlotState) (base : BaseIndex) (o : Nat) : (s.setSlotState i x).target base o = s.target base o := rfl
@[simp] theorem State.setSlotState_pred (i : SlotId) (x : SlotState) (p : Predicate) (v d : Word) : (s.setSlotState i x).pred p v d = s.pred p v d := rfl
@[simp] theorem State.setSlotState_regionAt (i : SlotId) (x : SlotState) (addr : Word) : (s.setSlotState i x).regionAt addr = s.regionAt addr := rfl
@[simp] theorem State.setSlotState_inWindow (i : SlotId) (x : SlotState) (addr : Word) : (s.setSlotState i x).inWindow addr = s.inWindow addr := rfl
@[simp] theorem State.setSlotState_touchesWindow (i : SlotId) (x : SlotState) (addr : Word) : (s.setSlotState i x).touchesWindow addr = s.touchesWindow addr := rfl
@[simp] theorem State.setSlotState_plainAnswer (i : SlotId) (x : SlotState) {α : Type} (addr : Word) (v : α) : (s.setSlotState i x).plainAnswer addr v = s.plainAnswer addr v := rfl
@[simp] theorem State.setSlotState_busRead (i : SlotId) (x : SlotState) (addr : Word) : (s.setSlotState i x).busRead addr = s.busRead addr := rfl
@[simp] theorem State.setSlotState_busWrite (i : SlotId) (x : SlotState) (addr v : Word) : (s.setSlotState i x).busWrite addr v = s.busWrite addr v := rfl

/-! ## setPc -/

@[simp] theorem State.setPc_absoluteDelayCounter (i : SlotId) (x : Word) : (s.setPc i x).absoluteDelayCounter = s.absoluteDelayCounter := rfl
@[simp] theorem State.setPc_signalBitmask (i : SlotId) (x : Word) : (s.setPc i x).signalBitmask = s.signalBitmask := rfl
@[simp] theorem State.setPc_triggerBitmask (i : SlotId) (x : Word) : (s.setPc i x).triggerBitmask = s.triggerBitmask := rfl
@[simp] theorem State.setPc_baseAddress (i : SlotId) (x : Word) : (s.setPc i x).baseAddress = s.baseAddress := rfl
@[simp] theorem State.setPc_contWritePos (i : SlotId) (x : Word) : (s.setPc i x).contWritePos = s.contWritePos := rfl
@[simp] theorem State.setPc_basePos (i : SlotId) (x : Word) : (s.setPc i x).basePos = s.basePos := rfl
@[simp] theorem State.setPc_en (i : SlotId) (x : Word) : (s.setPc i x).en = s.en := rfl
@[simp] theorem State.setPc_timeBase (i : SlotId) (x : Word) : (s.setPc i x).timeBase = s.timeBase := rfl
@[simp] theorem State.setPc_eqMaskA (i : SlotId) (x : Word) : (s.setPc i x).eqMaskA = s.eqMaskA := rfl
@[simp] theorem State.setPc_eqMaskB (i : SlotId) (x : Word) : (s.setPc i x).eqMaskB = s.eqMaskB := rfl
@[simp] theorem State.setPc_busErrAddr (i : SlotId) (x : Word) : (s.setPc i x).busErrAddr = s.busErrAddr := rfl
@[simp] theorem State.setPc_ifReg (i : SlotId) (x : Word) : (s.setPc i x).ifReg = s.ifReg := rfl
@[simp] theorem State.setPc_ien (i : SlotId) (x : Word) : (s.setPc i x).ien = s.ien := rfl
@[simp] theorem State.setPc_seqIf (i : SlotId) (x : Word) : (s.setPc i x).seqIf = s.seqIf := rfl
@[simp] theorem State.setPc_seqIen (i : SlotId) (x : Word) : (s.setPc i x).seqIen = s.seqIen := rfl
@[simp] theorem State.setPc_timer (i : SlotId) (x : Word) : (s.setPc i x).timer = s.timer := rfl
@[simp] theorem State.setPc_irqHost (i : SlotId) (x : Word) : (s.setPc i x).irqHost = s.irqHost := rfl
@[simp] theorem State.setPc_irqSeq (i : SlotId) (x : Word) : (s.setPc i x).irqSeq = s.irqSeq := rfl
@[simp] theorem State.setPc_fault (i : SlotId) (x : Word) : (s.setPc i x).fault = s.fault := rfl
@[simp] theorem State.setPc_preOutstanding (i : SlotId) (x : Word) : (s.setPc i x).preOutstanding = s.preOutstanding := rfl
@[simp] theorem State.setPc_mem (i : SlotId) (x : Word) : (s.setPc i x).mem = s.mem := rfl
@[simp] theorem State.setPc_trace (i : SlotId) (x : Word) : (s.setPc i x).trace = s.trace := rfl
@[simp] theorem State.setPc_hostReadData (i : SlotId) (x : Word) : (s.setPc i x).hostReadData = s.hostReadData := rfl
@[simp] theorem State.setPc_freeDraws (i : SlotId) (x : Word) : (s.setPc i x).freeDraws = s.freeDraws := rfl
@[simp] theorem State.setPc_schedule (i : SlotId) (x : Word) : (s.setPc i x).schedule = s.schedule := rfl
@[simp] theorem State.setPc_params (i : SlotId) (x : Word) : (s.setPc i x).params = s.params := rfl
@[simp] theorem State.setPc_deferralArmed (i : SlotId) (x : Word) : (s.setPc i x).deferralArmed = s.deferralArmed := rfl
@[simp] theorem State.setPc_layout (i : SlotId) (x : Word) : (s.setPc i x).layout = s.layout := rfl
@[simp] theorem State.setPc_target (i : SlotId) (x : Word) (base : BaseIndex) (o : Nat) : (s.setPc i x).target base o = s.target base o := rfl
@[simp] theorem State.setPc_pred (i : SlotId) (x : Word) (p : Predicate) (v d : Word) : (s.setPc i x).pred p v d = s.pred p v d := rfl
@[simp] theorem State.setPc_regionAt (i : SlotId) (x : Word) (addr : Word) : (s.setPc i x).regionAt addr = s.regionAt addr := rfl
@[simp] theorem State.setPc_inWindow (i : SlotId) (x : Word) (addr : Word) : (s.setPc i x).inWindow addr = s.inWindow addr := rfl
@[simp] theorem State.setPc_touchesWindow (i : SlotId) (x : Word) (addr : Word) : (s.setPc i x).touchesWindow addr = s.touchesWindow addr := rfl
@[simp] theorem State.setPc_plainAnswer (i : SlotId) (x : Word) {α : Type} (addr : Word) (v : α) : (s.setPc i x).plainAnswer addr v = s.plainAnswer addr v := rfl
@[simp] theorem State.setPc_busRead (i : SlotId) (x : Word) (addr : Word) : (s.setPc i x).busRead addr = s.busRead addr := rfl
@[simp] theorem State.setPc_busWrite (i : SlotId) (x : Word) (addr v : Word) : (s.setPc i x).busWrite addr v = s.busWrite addr v := rfl

/-! ## mapSlots -/

@[simp] theorem State.mapSlots_absoluteDelayCounter (f : SlotId → Slot → Slot) : (s.mapSlots f).absoluteDelayCounter = s.absoluteDelayCounter := rfl
@[simp] theorem State.mapSlots_signalBitmask (f : SlotId → Slot → Slot) : (s.mapSlots f).signalBitmask = s.signalBitmask := rfl
@[simp] theorem State.mapSlots_triggerBitmask (f : SlotId → Slot → Slot) : (s.mapSlots f).triggerBitmask = s.triggerBitmask := rfl
@[simp] theorem State.mapSlots_baseAddress (f : SlotId → Slot → Slot) : (s.mapSlots f).baseAddress = s.baseAddress := rfl
@[simp] theorem State.mapSlots_contWritePos (f : SlotId → Slot → Slot) : (s.mapSlots f).contWritePos = s.contWritePos := rfl
@[simp] theorem State.mapSlots_basePos (f : SlotId → Slot → Slot) : (s.mapSlots f).basePos = s.basePos := rfl
@[simp] theorem State.mapSlots_en (f : SlotId → Slot → Slot) : (s.mapSlots f).en = s.en := rfl
@[simp] theorem State.mapSlots_timeBase (f : SlotId → Slot → Slot) : (s.mapSlots f).timeBase = s.timeBase := rfl
@[simp] theorem State.mapSlots_eqMaskA (f : SlotId → Slot → Slot) : (s.mapSlots f).eqMaskA = s.eqMaskA := rfl
@[simp] theorem State.mapSlots_eqMaskB (f : SlotId → Slot → Slot) : (s.mapSlots f).eqMaskB = s.eqMaskB := rfl
@[simp] theorem State.mapSlots_busErrAddr (f : SlotId → Slot → Slot) : (s.mapSlots f).busErrAddr = s.busErrAddr := rfl
@[simp] theorem State.mapSlots_ifReg (f : SlotId → Slot → Slot) : (s.mapSlots f).ifReg = s.ifReg := rfl
@[simp] theorem State.mapSlots_ien (f : SlotId → Slot → Slot) : (s.mapSlots f).ien = s.ien := rfl
@[simp] theorem State.mapSlots_seqIf (f : SlotId → Slot → Slot) : (s.mapSlots f).seqIf = s.seqIf := rfl
@[simp] theorem State.mapSlots_seqIen (f : SlotId → Slot → Slot) : (s.mapSlots f).seqIen = s.seqIen := rfl
@[simp] theorem State.mapSlots_timer (f : SlotId → Slot → Slot) : (s.mapSlots f).timer = s.timer := rfl
@[simp] theorem State.mapSlots_irqHost (f : SlotId → Slot → Slot) : (s.mapSlots f).irqHost = s.irqHost := rfl
@[simp] theorem State.mapSlots_irqSeq (f : SlotId → Slot → Slot) : (s.mapSlots f).irqSeq = s.irqSeq := rfl
@[simp] theorem State.mapSlots_fault (f : SlotId → Slot → Slot) : (s.mapSlots f).fault = s.fault := rfl
@[simp] theorem State.mapSlots_preOutstanding (f : SlotId → Slot → Slot) : (s.mapSlots f).preOutstanding = s.preOutstanding := rfl
@[simp] theorem State.mapSlots_mem (f : SlotId → Slot → Slot) : (s.mapSlots f).mem = s.mem := rfl
@[simp] theorem State.mapSlots_trace (f : SlotId → Slot → Slot) : (s.mapSlots f).trace = s.trace := rfl
@[simp] theorem State.mapSlots_hostReadData (f : SlotId → Slot → Slot) : (s.mapSlots f).hostReadData = s.hostReadData := rfl
@[simp] theorem State.mapSlots_freeDraws (f : SlotId → Slot → Slot) : (s.mapSlots f).freeDraws = s.freeDraws := rfl
@[simp] theorem State.mapSlots_schedule (f : SlotId → Slot → Slot) : (s.mapSlots f).schedule = s.schedule := rfl
@[simp] theorem State.mapSlots_params (f : SlotId → Slot → Slot) : (s.mapSlots f).params = s.params := rfl
@[simp] theorem State.mapSlots_deferralArmed (f : SlotId → Slot → Slot) : (s.mapSlots f).deferralArmed = s.deferralArmed := rfl
@[simp] theorem State.mapSlots_layout (f : SlotId → Slot → Slot) : (s.mapSlots f).layout = s.layout := rfl
@[simp] theorem State.mapSlots_target (f : SlotId → Slot → Slot) (base : BaseIndex) (o : Nat) : (s.mapSlots f).target base o = s.target base o := rfl
@[simp] theorem State.mapSlots_pred (f : SlotId → Slot → Slot) (p : Predicate) (v d : Word) : (s.mapSlots f).pred p v d = s.pred p v d := rfl
@[simp] theorem State.mapSlots_regionAt (f : SlotId → Slot → Slot) (addr : Word) : (s.mapSlots f).regionAt addr = s.regionAt addr := rfl
@[simp] theorem State.mapSlots_inWindow (f : SlotId → Slot → Slot) (addr : Word) : (s.mapSlots f).inWindow addr = s.inWindow addr := rfl
@[simp] theorem State.mapSlots_touchesWindow (f : SlotId → Slot → Slot) (addr : Word) : (s.mapSlots f).touchesWindow addr = s.touchesWindow addr := rfl
@[simp] theorem State.mapSlots_plainAnswer (f : SlotId → Slot → Slot) {α : Type} (addr : Word) (v : α) : (s.mapSlots f).plainAnswer addr v = s.plainAnswer addr v := rfl
@[simp] theorem State.mapSlots_busRead (f : SlotId → Slot → Slot) (addr : Word) : (s.mapSlots f).busRead addr = s.busRead addr := rfl
@[simp] theorem State.mapSlots_busWrite (f : SlotId → Slot → Slot) (addr v : Word) : (s.mapSlots f).busWrite addr v = s.busWrite addr v := rfl

/-! ## abortSlots -/

@[simp] theorem State.abortSlots_absoluteDelayCounter (T : SlotId → Bool) : (s.abortSlots T).absoluteDelayCounter = s.absoluteDelayCounter := rfl
@[simp] theorem State.abortSlots_signalBitmask (T : SlotId → Bool) : (s.abortSlots T).signalBitmask = s.signalBitmask := rfl
@[simp] theorem State.abortSlots_triggerBitmask (T : SlotId → Bool) : (s.abortSlots T).triggerBitmask = s.triggerBitmask := rfl
@[simp] theorem State.abortSlots_baseAddress (T : SlotId → Bool) : (s.abortSlots T).baseAddress = s.baseAddress := rfl
@[simp] theorem State.abortSlots_contWritePos (T : SlotId → Bool) : (s.abortSlots T).contWritePos = s.contWritePos := rfl
@[simp] theorem State.abortSlots_basePos (T : SlotId → Bool) : (s.abortSlots T).basePos = s.basePos := rfl
@[simp] theorem State.abortSlots_en (T : SlotId → Bool) : (s.abortSlots T).en = s.en := rfl
@[simp] theorem State.abortSlots_timeBase (T : SlotId → Bool) : (s.abortSlots T).timeBase = s.timeBase := rfl
@[simp] theorem State.abortSlots_eqMaskA (T : SlotId → Bool) : (s.abortSlots T).eqMaskA = s.eqMaskA := rfl
@[simp] theorem State.abortSlots_eqMaskB (T : SlotId → Bool) : (s.abortSlots T).eqMaskB = s.eqMaskB := rfl
@[simp] theorem State.abortSlots_busErrAddr (T : SlotId → Bool) : (s.abortSlots T).busErrAddr = s.busErrAddr := rfl
@[simp] theorem State.abortSlots_ifReg (T : SlotId → Bool) : (s.abortSlots T).ifReg = s.ifReg := rfl
@[simp] theorem State.abortSlots_ien (T : SlotId → Bool) : (s.abortSlots T).ien = s.ien := rfl
@[simp] theorem State.abortSlots_seqIf (T : SlotId → Bool) : (s.abortSlots T).seqIf = s.seqIf := rfl
@[simp] theorem State.abortSlots_seqIen (T : SlotId → Bool) : (s.abortSlots T).seqIen = s.seqIen := rfl
@[simp] theorem State.abortSlots_timer (T : SlotId → Bool) : (s.abortSlots T).timer = s.timer := rfl
@[simp] theorem State.abortSlots_irqHost (T : SlotId → Bool) : (s.abortSlots T).irqHost = s.irqHost := rfl
@[simp] theorem State.abortSlots_irqSeq (T : SlotId → Bool) : (s.abortSlots T).irqSeq = s.irqSeq := rfl
@[simp] theorem State.abortSlots_fault (T : SlotId → Bool) : (s.abortSlots T).fault = s.fault := rfl
@[simp] theorem State.abortSlots_preOutstanding (T : SlotId → Bool) : (s.abortSlots T).preOutstanding = s.preOutstanding := rfl
@[simp] theorem State.abortSlots_mem (T : SlotId → Bool) : (s.abortSlots T).mem = s.mem := rfl
@[simp] theorem State.abortSlots_trace (T : SlotId → Bool) : (s.abortSlots T).trace = s.trace := rfl
@[simp] theorem State.abortSlots_hostReadData (T : SlotId → Bool) : (s.abortSlots T).hostReadData = s.hostReadData := rfl
@[simp] theorem State.abortSlots_freeDraws (T : SlotId → Bool) : (s.abortSlots T).freeDraws = s.freeDraws := rfl
@[simp] theorem State.abortSlots_schedule (T : SlotId → Bool) : (s.abortSlots T).schedule = s.schedule := rfl
@[simp] theorem State.abortSlots_params (T : SlotId → Bool) : (s.abortSlots T).params = s.params := rfl
@[simp] theorem State.abortSlots_deferralArmed (T : SlotId → Bool) : (s.abortSlots T).deferralArmed = s.deferralArmed := rfl
@[simp] theorem State.abortSlots_layout (T : SlotId → Bool) : (s.abortSlots T).layout = s.layout := rfl
@[simp] theorem State.abortSlots_target (T : SlotId → Bool) (base : BaseIndex) (o : Nat) : (s.abortSlots T).target base o = s.target base o := rfl
@[simp] theorem State.abortSlots_pred (T : SlotId → Bool) (p : Predicate) (v d : Word) : (s.abortSlots T).pred p v d = s.pred p v d := rfl
@[simp] theorem State.abortSlots_regionAt (T : SlotId → Bool) (addr : Word) : (s.abortSlots T).regionAt addr = s.regionAt addr := rfl
@[simp] theorem State.abortSlots_inWindow (T : SlotId → Bool) (addr : Word) : (s.abortSlots T).inWindow addr = s.inWindow addr := rfl
@[simp] theorem State.abortSlots_touchesWindow (T : SlotId → Bool) (addr : Word) : (s.abortSlots T).touchesWindow addr = s.touchesWindow addr := rfl
@[simp] theorem State.abortSlots_plainAnswer (T : SlotId → Bool) {α : Type} (addr : Word) (v : α) : (s.abortSlots T).plainAnswer addr v = s.plainAnswer addr v := rfl
@[simp] theorem State.abortSlots_busRead (T : SlotId → Bool) (addr : Word) : (s.abortSlots T).busRead addr = s.busRead addr := rfl
@[simp] theorem State.abortSlots_busWrite (T : SlotId → Bool) (addr v : Word) : (s.abortSlots T).busWrite addr v = s.busWrite addr v := rfl

/-! ## makePending -/

@[simp] theorem State.makePending_absoluteDelayCounter (m : SlotMask) : (s.makePending m).absoluteDelayCounter = s.absoluteDelayCounter := rfl
@[simp] theorem State.makePending_signalBitmask (m : SlotMask) : (s.makePending m).signalBitmask = s.signalBitmask := rfl
@[simp] theorem State.makePending_triggerBitmask (m : SlotMask) : (s.makePending m).triggerBitmask = s.triggerBitmask := rfl
@[simp] theorem State.makePending_baseAddress (m : SlotMask) : (s.makePending m).baseAddress = s.baseAddress := rfl
@[simp] theorem State.makePending_contWritePos (m : SlotMask) : (s.makePending m).contWritePos = s.contWritePos := rfl
@[simp] theorem State.makePending_basePos (m : SlotMask) : (s.makePending m).basePos = s.basePos := rfl
@[simp] theorem State.makePending_en (m : SlotMask) : (s.makePending m).en = s.en := rfl
@[simp] theorem State.makePending_timeBase (m : SlotMask) : (s.makePending m).timeBase = s.timeBase := rfl
@[simp] theorem State.makePending_eqMaskA (m : SlotMask) : (s.makePending m).eqMaskA = s.eqMaskA := rfl
@[simp] theorem State.makePending_eqMaskB (m : SlotMask) : (s.makePending m).eqMaskB = s.eqMaskB := rfl
@[simp] theorem State.makePending_busErrAddr (m : SlotMask) : (s.makePending m).busErrAddr = s.busErrAddr := rfl
@[simp] theorem State.makePending_ifReg (m : SlotMask) : (s.makePending m).ifReg = s.ifReg := rfl
@[simp] theorem State.makePending_ien (m : SlotMask) : (s.makePending m).ien = s.ien := rfl
@[simp] theorem State.makePending_seqIf (m : SlotMask) : (s.makePending m).seqIf = s.seqIf := rfl
@[simp] theorem State.makePending_seqIen (m : SlotMask) : (s.makePending m).seqIen = s.seqIen := rfl
@[simp] theorem State.makePending_timer (m : SlotMask) : (s.makePending m).timer = s.timer := rfl
@[simp] theorem State.makePending_irqHost (m : SlotMask) : (s.makePending m).irqHost = s.irqHost := rfl
@[simp] theorem State.makePending_irqSeq (m : SlotMask) : (s.makePending m).irqSeq = s.irqSeq := rfl
@[simp] theorem State.makePending_fault (m : SlotMask) : (s.makePending m).fault = s.fault := rfl
@[simp] theorem State.makePending_preOutstanding (m : SlotMask) : (s.makePending m).preOutstanding = s.preOutstanding := rfl
@[simp] theorem State.makePending_mem (m : SlotMask) : (s.makePending m).mem = s.mem := rfl
@[simp] theorem State.makePending_trace (m : SlotMask) : (s.makePending m).trace = s.trace := rfl
@[simp] theorem State.makePending_hostReadData (m : SlotMask) : (s.makePending m).hostReadData = s.hostReadData := rfl
@[simp] theorem State.makePending_freeDraws (m : SlotMask) : (s.makePending m).freeDraws = s.freeDraws := rfl
@[simp] theorem State.makePending_schedule (m : SlotMask) : (s.makePending m).schedule = s.schedule := rfl
@[simp] theorem State.makePending_params (m : SlotMask) : (s.makePending m).params = s.params := rfl
@[simp] theorem State.makePending_deferralArmed (m : SlotMask) : (s.makePending m).deferralArmed = s.deferralArmed := rfl
@[simp] theorem State.makePending_layout (m : SlotMask) : (s.makePending m).layout = s.layout := rfl
@[simp] theorem State.makePending_target (m : SlotMask) (base : BaseIndex) (o : Nat) : (s.makePending m).target base o = s.target base o := rfl
@[simp] theorem State.makePending_pred (m : SlotMask) (p : Predicate) (v d : Word) : (s.makePending m).pred p v d = s.pred p v d := rfl
@[simp] theorem State.makePending_regionAt (m : SlotMask) (addr : Word) : (s.makePending m).regionAt addr = s.regionAt addr := rfl
@[simp] theorem State.makePending_inWindow (m : SlotMask) (addr : Word) : (s.makePending m).inWindow addr = s.inWindow addr := rfl
@[simp] theorem State.makePending_touchesWindow (m : SlotMask) (addr : Word) : (s.makePending m).touchesWindow addr = s.touchesWindow addr := rfl
@[simp] theorem State.makePending_plainAnswer (m : SlotMask) {α : Type} (addr : Word) (v : α) : (s.makePending m).plainAnswer addr v = s.plainAnswer addr v := rfl
@[simp] theorem State.makePending_busRead (m : SlotMask) (addr : Word) : (s.makePending m).busRead addr = s.busRead addr := rfl
@[simp] theorem State.makePending_busWrite (m : SlotMask) (addr v : Word) : (s.makePending m).busWrite addr v = s.busWrite addr v := rfl

/-! ## arm -/

@[simp] theorem State.arm_slots (r : StartReason) (i : SlotId) (b : TickSource) (n : Nat) : (s.arm r i b n).slots = s.slots := rfl
@[simp] theorem State.arm_absoluteDelayCounter (r : StartReason) (i : SlotId) (b : TickSource) (n : Nat) : (s.arm r i b n).absoluteDelayCounter = s.absoluteDelayCounter := rfl
@[simp] theorem State.arm_signalBitmask (r : StartReason) (i : SlotId) (b : TickSource) (n : Nat) : (s.arm r i b n).signalBitmask = s.signalBitmask := rfl
@[simp] theorem State.arm_triggerBitmask (r : StartReason) (i : SlotId) (b : TickSource) (n : Nat) : (s.arm r i b n).triggerBitmask = s.triggerBitmask := rfl
@[simp] theorem State.arm_baseAddress (r : StartReason) (i : SlotId) (b : TickSource) (n : Nat) : (s.arm r i b n).baseAddress = s.baseAddress := rfl
@[simp] theorem State.arm_contWritePos (r : StartReason) (i : SlotId) (b : TickSource) (n : Nat) : (s.arm r i b n).contWritePos = s.contWritePos := rfl
@[simp] theorem State.arm_basePos (r : StartReason) (i : SlotId) (b : TickSource) (n : Nat) : (s.arm r i b n).basePos = s.basePos := rfl
@[simp] theorem State.arm_en (r : StartReason) (i : SlotId) (b : TickSource) (n : Nat) : (s.arm r i b n).en = s.en := rfl
@[simp] theorem State.arm_timeBase (r : StartReason) (i : SlotId) (b : TickSource) (n : Nat) : (s.arm r i b n).timeBase = s.timeBase := rfl
@[simp] theorem State.arm_eqMaskA (r : StartReason) (i : SlotId) (b : TickSource) (n : Nat) : (s.arm r i b n).eqMaskA = s.eqMaskA := rfl
@[simp] theorem State.arm_eqMaskB (r : StartReason) (i : SlotId) (b : TickSource) (n : Nat) : (s.arm r i b n).eqMaskB = s.eqMaskB := rfl
@[simp] theorem State.arm_busErrAddr (r : StartReason) (i : SlotId) (b : TickSource) (n : Nat) : (s.arm r i b n).busErrAddr = s.busErrAddr := rfl
@[simp] theorem State.arm_ifReg (r : StartReason) (i : SlotId) (b : TickSource) (n : Nat) : (s.arm r i b n).ifReg = s.ifReg := rfl
@[simp] theorem State.arm_ien (r : StartReason) (i : SlotId) (b : TickSource) (n : Nat) : (s.arm r i b n).ien = s.ien := rfl
@[simp] theorem State.arm_seqIf (r : StartReason) (i : SlotId) (b : TickSource) (n : Nat) : (s.arm r i b n).seqIf = s.seqIf := rfl
@[simp] theorem State.arm_seqIen (r : StartReason) (i : SlotId) (b : TickSource) (n : Nat) : (s.arm r i b n).seqIen = s.seqIen := rfl
@[simp] theorem State.arm_irqHost (r : StartReason) (i : SlotId) (b : TickSource) (n : Nat) : (s.arm r i b n).irqHost = s.irqHost := rfl
@[simp] theorem State.arm_irqSeq (r : StartReason) (i : SlotId) (b : TickSource) (n : Nat) : (s.arm r i b n).irqSeq = s.irqSeq := rfl
@[simp] theorem State.arm_fault (r : StartReason) (i : SlotId) (b : TickSource) (n : Nat) : (s.arm r i b n).fault = s.fault := rfl
@[simp] theorem State.arm_preOutstanding (r : StartReason) (i : SlotId) (b : TickSource) (n : Nat) : (s.arm r i b n).preOutstanding = s.preOutstanding := rfl
@[simp] theorem State.arm_mem (r : StartReason) (i : SlotId) (b : TickSource) (n : Nat) : (s.arm r i b n).mem = s.mem := rfl
@[simp] theorem State.arm_trace (r : StartReason) (i : SlotId) (b : TickSource) (n : Nat) : (s.arm r i b n).trace = s.trace := rfl
@[simp] theorem State.arm_hostReadData (r : StartReason) (i : SlotId) (b : TickSource) (n : Nat) : (s.arm r i b n).hostReadData = s.hostReadData := rfl
@[simp] theorem State.arm_freeDraws (r : StartReason) (i : SlotId) (b : TickSource) (n : Nat) : (s.arm r i b n).freeDraws = s.freeDraws := rfl
@[simp] theorem State.arm_schedule (r : StartReason) (i : SlotId) (b : TickSource) (n : Nat) : (s.arm r i b n).schedule = s.schedule := rfl
@[simp] theorem State.arm_params (r : StartReason) (i : SlotId) (b : TickSource) (n : Nat) : (s.arm r i b n).params = s.params := rfl
@[simp] theorem State.arm_slot (r : StartReason) (i : SlotId) (b : TickSource) (n : Nat) (j : SlotId) : (s.arm r i b n).slot j = s.slot j := rfl
@[simp] theorem State.arm_pc (r : StartReason) (i : SlotId) (b : TickSource) (n : Nat) (j : SlotId) : (s.arm r i b n).pc j = s.pc j := rfl
@[simp] theorem State.arm_activeSlot (r : StartReason) (i : SlotId) (b : TickSource) (n : Nat) : (s.arm r i b n).activeSlot = s.activeSlot := rfl
@[simp] theorem State.arm_layout (r : StartReason) (i : SlotId) (b : TickSource) (n : Nat) : (s.arm r i b n).layout = s.layout := rfl
@[simp] theorem State.arm_target (r : StartReason) (i : SlotId) (b : TickSource) (n : Nat) (base : BaseIndex) (o : Nat) : (s.arm r i b n).target base o = s.target base o := rfl
@[simp] theorem State.arm_pred (r : StartReason) (i : SlotId) (b : TickSource) (n : Nat) (p : Predicate) (v d : Word) : (s.arm r i b n).pred p v d = s.pred p v d := rfl
@[simp] theorem State.arm_regionAt (r : StartReason) (i : SlotId) (b : TickSource) (n : Nat) (addr : Word) : (s.arm r i b n).regionAt addr = s.regionAt addr := rfl
@[simp] theorem State.arm_inWindow (r : StartReason) (i : SlotId) (b : TickSource) (n : Nat) (addr : Word) : (s.arm r i b n).inWindow addr = s.inWindow addr := rfl
@[simp] theorem State.arm_touchesWindow (r : StartReason) (i : SlotId) (b : TickSource) (n : Nat) (addr : Word) : (s.arm r i b n).touchesWindow addr = s.touchesWindow addr := rfl
@[simp] theorem State.arm_plainAnswer (r : StartReason) (i : SlotId) (b : TickSource) (n : Nat) {α : Type} (addr : Word) (v : α) : (s.arm r i b n).plainAnswer addr v = s.plainAnswer addr v := rfl
@[simp] theorem State.arm_busRead (r : StartReason) (i : SlotId) (b : TickSource) (n : Nat) (addr : Word) : (s.arm r i b n).busRead addr = s.busRead addr := rfl
@[simp] theorem State.arm_busWrite (r : StartReason) (i : SlotId) (b : TickSource) (n : Nat) (addr v : Word) : (s.arm r i b n).busWrite addr v = s.busWrite addr v := rfl

/-! ## disarm -/

@[simp] theorem State.disarm_slots : (s.disarm).slots = s.slots := rfl
@[simp] theorem State.disarm_absoluteDelayCounter : (s.disarm).absoluteDelayCounter = s.absoluteDelayCounter := rfl
@[simp] theorem State.disarm_signalBitmask : (s.disarm).signalBitmask = s.signalBitmask := rfl
@[simp] theorem State.disarm_triggerBitmask : (s.disarm).triggerBitmask = s.triggerBitmask := rfl
@[simp] theorem State.disarm_baseAddress : (s.disarm).baseAddress = s.baseAddress := rfl
@[simp] theorem State.disarm_contWritePos : (s.disarm).contWritePos = s.contWritePos := rfl
@[simp] theorem State.disarm_basePos : (s.disarm).basePos = s.basePos := rfl
@[simp] theorem State.disarm_en : (s.disarm).en = s.en := rfl
@[simp] theorem State.disarm_timeBase : (s.disarm).timeBase = s.timeBase := rfl
@[simp] theorem State.disarm_eqMaskA : (s.disarm).eqMaskA = s.eqMaskA := rfl
@[simp] theorem State.disarm_eqMaskB : (s.disarm).eqMaskB = s.eqMaskB := rfl
@[simp] theorem State.disarm_busErrAddr : (s.disarm).busErrAddr = s.busErrAddr := rfl
@[simp] theorem State.disarm_ifReg : (s.disarm).ifReg = s.ifReg := rfl
@[simp] theorem State.disarm_ien : (s.disarm).ien = s.ien := rfl
@[simp] theorem State.disarm_seqIf : (s.disarm).seqIf = s.seqIf := rfl
@[simp] theorem State.disarm_seqIen : (s.disarm).seqIen = s.seqIen := rfl
@[simp] theorem State.disarm_irqHost : (s.disarm).irqHost = s.irqHost := rfl
@[simp] theorem State.disarm_irqSeq : (s.disarm).irqSeq = s.irqSeq := rfl
@[simp] theorem State.disarm_fault : (s.disarm).fault = s.fault := rfl
@[simp] theorem State.disarm_preOutstanding : (s.disarm).preOutstanding = s.preOutstanding := rfl
@[simp] theorem State.disarm_mem : (s.disarm).mem = s.mem := rfl
@[simp] theorem State.disarm_trace : (s.disarm).trace = s.trace := rfl
@[simp] theorem State.disarm_hostReadData : (s.disarm).hostReadData = s.hostReadData := rfl
@[simp] theorem State.disarm_freeDraws : (s.disarm).freeDraws = s.freeDraws := rfl
@[simp] theorem State.disarm_schedule : (s.disarm).schedule = s.schedule := rfl
@[simp] theorem State.disarm_params : (s.disarm).params = s.params := rfl
@[simp] theorem State.disarm_slot (j : SlotId) : (s.disarm).slot j = s.slot j := rfl
@[simp] theorem State.disarm_pc (j : SlotId) : (s.disarm).pc j = s.pc j := rfl
@[simp] theorem State.disarm_activeSlot  : (s.disarm).activeSlot = s.activeSlot := rfl
@[simp] theorem State.disarm_layout  : (s.disarm).layout = s.layout := rfl
@[simp] theorem State.disarm_target (base : BaseIndex) (o : Nat) : (s.disarm).target base o = s.target base o := rfl
@[simp] theorem State.disarm_pred (p : Predicate) (v d : Word) : (s.disarm).pred p v d = s.pred p v d := rfl
@[simp] theorem State.disarm_regionAt (addr : Word) : (s.disarm).regionAt addr = s.regionAt addr := rfl
@[simp] theorem State.disarm_inWindow (addr : Word) : (s.disarm).inWindow addr = s.inWindow addr := rfl
@[simp] theorem State.disarm_touchesWindow (addr : Word) : (s.disarm).touchesWindow addr = s.touchesWindow addr := rfl
@[simp] theorem State.disarm_plainAnswer {α : Type} (addr : Word) (v : α) : (s.disarm).plainAnswer addr v = s.plainAnswer addr v := rfl
@[simp] theorem State.disarm_busRead (addr : Word) : (s.disarm).busRead addr = s.busRead addr := rfl
@[simp] theorem State.disarm_busWrite (addr v : Word) : (s.disarm).busWrite addr v = s.busWrite addr v := rfl

/-! ## raiseFatal -/

@[simp] theorem State.raiseFatal_slots (r : FaultRecord) : (s.raiseFatal r).slots = s.slots := rfl
@[simp] theorem State.raiseFatal_absoluteDelayCounter (r : FaultRecord) : (s.raiseFatal r).absoluteDelayCounter = s.absoluteDelayCounter := rfl
@[simp] theorem State.raiseFatal_signalBitmask (r : FaultRecord) : (s.raiseFatal r).signalBitmask = s.signalBitmask := rfl
@[simp] theorem State.raiseFatal_triggerBitmask (r : FaultRecord) : (s.raiseFatal r).triggerBitmask = s.triggerBitmask := rfl
@[simp] theorem State.raiseFatal_baseAddress (r : FaultRecord) : (s.raiseFatal r).baseAddress = s.baseAddress := rfl
@[simp] theorem State.raiseFatal_contWritePos (r : FaultRecord) : (s.raiseFatal r).contWritePos = s.contWritePos := rfl
@[simp] theorem State.raiseFatal_basePos (r : FaultRecord) : (s.raiseFatal r).basePos = s.basePos := rfl
@[simp] theorem State.raiseFatal_en (r : FaultRecord) : (s.raiseFatal r).en = s.en := rfl
@[simp] theorem State.raiseFatal_timeBase (r : FaultRecord) : (s.raiseFatal r).timeBase = s.timeBase := rfl
@[simp] theorem State.raiseFatal_eqMaskA (r : FaultRecord) : (s.raiseFatal r).eqMaskA = s.eqMaskA := rfl
@[simp] theorem State.raiseFatal_eqMaskB (r : FaultRecord) : (s.raiseFatal r).eqMaskB = s.eqMaskB := rfl
@[simp] theorem State.raiseFatal_busErrAddr (r : FaultRecord) : (s.raiseFatal r).busErrAddr = s.busErrAddr := rfl
@[simp] theorem State.raiseFatal_ifReg (r : FaultRecord) : (s.raiseFatal r).ifReg = s.ifReg := rfl
@[simp] theorem State.raiseFatal_ien (r : FaultRecord) : (s.raiseFatal r).ien = s.ien := rfl
@[simp] theorem State.raiseFatal_seqIf (r : FaultRecord) : (s.raiseFatal r).seqIf = s.seqIf := rfl
@[simp] theorem State.raiseFatal_seqIen (r : FaultRecord) : (s.raiseFatal r).seqIen = s.seqIen := rfl
@[simp] theorem State.raiseFatal_timer (r : FaultRecord) : (s.raiseFatal r).timer = s.timer := rfl
@[simp] theorem State.raiseFatal_irqHost (r : FaultRecord) : (s.raiseFatal r).irqHost = s.irqHost := rfl
@[simp] theorem State.raiseFatal_irqSeq (r : FaultRecord) : (s.raiseFatal r).irqSeq = s.irqSeq := rfl
@[simp] theorem State.raiseFatal_preOutstanding (r : FaultRecord) : (s.raiseFatal r).preOutstanding = s.preOutstanding := rfl
@[simp] theorem State.raiseFatal_mem (r : FaultRecord) : (s.raiseFatal r).mem = s.mem := rfl
@[simp] theorem State.raiseFatal_trace (r : FaultRecord) : (s.raiseFatal r).trace = s.trace := rfl
@[simp] theorem State.raiseFatal_hostReadData (r : FaultRecord) : (s.raiseFatal r).hostReadData = s.hostReadData := rfl
@[simp] theorem State.raiseFatal_freeDraws (r : FaultRecord) : (s.raiseFatal r).freeDraws = s.freeDraws := rfl
@[simp] theorem State.raiseFatal_schedule (r : FaultRecord) : (s.raiseFatal r).schedule = s.schedule := rfl
@[simp] theorem State.raiseFatal_params (r : FaultRecord) : (s.raiseFatal r).params = s.params := rfl
@[simp] theorem State.raiseFatal_slot (r : FaultRecord) (j : SlotId) : (s.raiseFatal r).slot j = s.slot j := rfl
@[simp] theorem State.raiseFatal_pc (r : FaultRecord) (j : SlotId) : (s.raiseFatal r).pc j = s.pc j := rfl
@[simp] theorem State.raiseFatal_activeSlot (r : FaultRecord) : (s.raiseFatal r).activeSlot = s.activeSlot := rfl
@[simp] theorem State.raiseFatal_deferralArmed (r : FaultRecord) : (s.raiseFatal r).deferralArmed = s.deferralArmed := rfl
@[simp] theorem State.raiseFatal_layout (r : FaultRecord) : (s.raiseFatal r).layout = s.layout := rfl
@[simp] theorem State.raiseFatal_target (r : FaultRecord) (base : BaseIndex) (o : Nat) : (s.raiseFatal r).target base o = s.target base o := rfl
@[simp] theorem State.raiseFatal_pred (r : FaultRecord) (p : Predicate) (v d : Word) : (s.raiseFatal r).pred p v d = s.pred p v d := rfl
@[simp] theorem State.raiseFatal_regionAt (r : FaultRecord) (addr : Word) : (s.raiseFatal r).regionAt addr = s.regionAt addr := rfl
@[simp] theorem State.raiseFatal_inWindow (r : FaultRecord) (addr : Word) : (s.raiseFatal r).inWindow addr = s.inWindow addr := rfl
@[simp] theorem State.raiseFatal_touchesWindow (r : FaultRecord) (addr : Word) : (s.raiseFatal r).touchesWindow addr = s.touchesWindow addr := rfl
@[simp] theorem State.raiseFatal_plainAnswer (r : FaultRecord) {α : Type} (addr : Word) (v : α) : (s.raiseFatal r).plainAnswer addr v = s.plainAnswer addr v := rfl
@[simp] theorem State.raiseFatal_busRead (r : FaultRecord) (addr : Word) : (s.raiseFatal r).busRead addr = s.busRead addr := rfl
@[simp] theorem State.raiseFatal_busWrite (r : FaultRecord) (addr v : Word) : (s.raiseFatal r).busWrite addr v = s.busWrite addr v := rfl

/-! ## raiseFlags -/

@[simp] theorem State.raiseFlags_slots (c : Conditions) : (s.raiseFlags c).slots = s.slots := rfl
@[simp] theorem State.raiseFlags_absoluteDelayCounter (c : Conditions) : (s.raiseFlags c).absoluteDelayCounter = s.absoluteDelayCounter := rfl
@[simp] theorem State.raiseFlags_signalBitmask (c : Conditions) : (s.raiseFlags c).signalBitmask = s.signalBitmask := rfl
@[simp] theorem State.raiseFlags_triggerBitmask (c : Conditions) : (s.raiseFlags c).triggerBitmask = s.triggerBitmask := rfl
@[simp] theorem State.raiseFlags_baseAddress (c : Conditions) : (s.raiseFlags c).baseAddress = s.baseAddress := rfl
@[simp] theorem State.raiseFlags_contWritePos (c : Conditions) : (s.raiseFlags c).contWritePos = s.contWritePos := rfl
@[simp] theorem State.raiseFlags_basePos (c : Conditions) : (s.raiseFlags c).basePos = s.basePos := rfl
@[simp] theorem State.raiseFlags_en (c : Conditions) : (s.raiseFlags c).en = s.en := rfl
@[simp] theorem State.raiseFlags_timeBase (c : Conditions) : (s.raiseFlags c).timeBase = s.timeBase := rfl
@[simp] theorem State.raiseFlags_eqMaskA (c : Conditions) : (s.raiseFlags c).eqMaskA = s.eqMaskA := rfl
@[simp] theorem State.raiseFlags_eqMaskB (c : Conditions) : (s.raiseFlags c).eqMaskB = s.eqMaskB := rfl
@[simp] theorem State.raiseFlags_busErrAddr (c : Conditions) : (s.raiseFlags c).busErrAddr = s.busErrAddr := rfl
@[simp] theorem State.raiseFlags_ien (c : Conditions) : (s.raiseFlags c).ien = s.ien := rfl
@[simp] theorem State.raiseFlags_seqIen (c : Conditions) : (s.raiseFlags c).seqIen = s.seqIen := rfl
@[simp] theorem State.raiseFlags_timer (c : Conditions) : (s.raiseFlags c).timer = s.timer := rfl
@[simp] theorem State.raiseFlags_irqHost (c : Conditions) : (s.raiseFlags c).irqHost = s.irqHost := rfl
@[simp] theorem State.raiseFlags_irqSeq (c : Conditions) : (s.raiseFlags c).irqSeq = s.irqSeq := rfl
@[simp] theorem State.raiseFlags_fault (c : Conditions) : (s.raiseFlags c).fault = s.fault := rfl
@[simp] theorem State.raiseFlags_preOutstanding (c : Conditions) : (s.raiseFlags c).preOutstanding = s.preOutstanding := rfl
@[simp] theorem State.raiseFlags_mem (c : Conditions) : (s.raiseFlags c).mem = s.mem := rfl
@[simp] theorem State.raiseFlags_trace (c : Conditions) : (s.raiseFlags c).trace = s.trace := rfl
@[simp] theorem State.raiseFlags_hostReadData (c : Conditions) : (s.raiseFlags c).hostReadData = s.hostReadData := rfl
@[simp] theorem State.raiseFlags_freeDraws (c : Conditions) : (s.raiseFlags c).freeDraws = s.freeDraws := rfl
@[simp] theorem State.raiseFlags_schedule (c : Conditions) : (s.raiseFlags c).schedule = s.schedule := rfl
@[simp] theorem State.raiseFlags_params (c : Conditions) : (s.raiseFlags c).params = s.params := rfl
@[simp] theorem State.raiseFlags_slot (c : Conditions) (j : SlotId) : (s.raiseFlags c).slot j = s.slot j := rfl
@[simp] theorem State.raiseFlags_pc (c : Conditions) (j : SlotId) : (s.raiseFlags c).pc j = s.pc j := rfl
@[simp] theorem State.raiseFlags_activeSlot (c : Conditions) : (s.raiseFlags c).activeSlot = s.activeSlot := rfl
@[simp] theorem State.raiseFlags_executor (c : Conditions) : (s.raiseFlags c).executor = s.executor := rfl
@[simp] theorem State.raiseFlags_deferralArmed (c : Conditions) : (s.raiseFlags c).deferralArmed = s.deferralArmed := rfl
@[simp] theorem State.raiseFlags_layout (c : Conditions) : (s.raiseFlags c).layout = s.layout := rfl
@[simp] theorem State.raiseFlags_target (c : Conditions) (base : BaseIndex) (o : Nat) : (s.raiseFlags c).target base o = s.target base o := rfl
@[simp] theorem State.raiseFlags_pred (c : Conditions) (p : Predicate) (v d : Word) : (s.raiseFlags c).pred p v d = s.pred p v d := rfl
@[simp] theorem State.raiseFlags_regionAt (c : Conditions) (addr : Word) : (s.raiseFlags c).regionAt addr = s.regionAt addr := rfl
@[simp] theorem State.raiseFlags_inWindow (c : Conditions) (addr : Word) : (s.raiseFlags c).inWindow addr = s.inWindow addr := rfl
@[simp] theorem State.raiseFlags_touchesWindow (c : Conditions) (addr : Word) : (s.raiseFlags c).touchesWindow addr = s.touchesWindow addr := rfl
@[simp] theorem State.raiseFlags_plainAnswer (c : Conditions) {α : Type} (addr : Word) (v : α) : (s.raiseFlags c).plainAnswer addr v = s.plainAnswer addr v := rfl
@[simp] theorem State.raiseFlags_busRead (c : Conditions) (addr : Word) : (s.raiseFlags c).busRead addr = s.busRead addr := rfl
@[simp] theorem State.raiseFlags_busWrite (c : Conditions) (addr v : Word) : (s.raiseFlags c).busWrite addr v = s.busWrite addr v := rfl

/-! ## recompute -/

@[simp] theorem State.recompute_slots : (s.recompute).slots = s.slots := rfl
@[simp] theorem State.recompute_absoluteDelayCounter : (s.recompute).absoluteDelayCounter = s.absoluteDelayCounter := rfl
@[simp] theorem State.recompute_signalBitmask : (s.recompute).signalBitmask = s.signalBitmask := rfl
@[simp] theorem State.recompute_triggerBitmask : (s.recompute).triggerBitmask = s.triggerBitmask := rfl
@[simp] theorem State.recompute_baseAddress : (s.recompute).baseAddress = s.baseAddress := rfl
@[simp] theorem State.recompute_contWritePos : (s.recompute).contWritePos = s.contWritePos := rfl
@[simp] theorem State.recompute_basePos : (s.recompute).basePos = s.basePos := rfl
@[simp] theorem State.recompute_en : (s.recompute).en = s.en := rfl
@[simp] theorem State.recompute_timeBase : (s.recompute).timeBase = s.timeBase := rfl
@[simp] theorem State.recompute_eqMaskA : (s.recompute).eqMaskA = s.eqMaskA := rfl
@[simp] theorem State.recompute_eqMaskB : (s.recompute).eqMaskB = s.eqMaskB := rfl
@[simp] theorem State.recompute_busErrAddr : (s.recompute).busErrAddr = s.busErrAddr := rfl
@[simp] theorem State.recompute_ifReg : (s.recompute).ifReg = s.ifReg := rfl
@[simp] theorem State.recompute_ien : (s.recompute).ien = s.ien := rfl
@[simp] theorem State.recompute_seqIf : (s.recompute).seqIf = s.seqIf := rfl
@[simp] theorem State.recompute_seqIen : (s.recompute).seqIen = s.seqIen := rfl
@[simp] theorem State.recompute_timer : (s.recompute).timer = s.timer := rfl
@[simp] theorem State.recompute_fault : (s.recompute).fault = s.fault := rfl
@[simp] theorem State.recompute_preOutstanding : (s.recompute).preOutstanding = s.preOutstanding := rfl
@[simp] theorem State.recompute_mem : (s.recompute).mem = s.mem := rfl
@[simp] theorem State.recompute_trace : (s.recompute).trace = s.trace := rfl
@[simp] theorem State.recompute_hostReadData : (s.recompute).hostReadData = s.hostReadData := rfl
@[simp] theorem State.recompute_freeDraws : (s.recompute).freeDraws = s.freeDraws := rfl
@[simp] theorem State.recompute_schedule : (s.recompute).schedule = s.schedule := rfl
@[simp] theorem State.recompute_params : (s.recompute).params = s.params := rfl
@[simp] theorem State.recompute_slot (j : SlotId) : (s.recompute).slot j = s.slot j := rfl
@[simp] theorem State.recompute_pc (j : SlotId) : (s.recompute).pc j = s.pc j := rfl
@[simp] theorem State.recompute_activeSlot  : (s.recompute).activeSlot = s.activeSlot := rfl
@[simp] theorem State.recompute_executor  : (s.recompute).executor = s.executor := rfl
@[simp] theorem State.recompute_deferralArmed  : (s.recompute).deferralArmed = s.deferralArmed := rfl
@[simp] theorem State.recompute_layout  : (s.recompute).layout = s.layout := rfl
@[simp] theorem State.recompute_target (base : BaseIndex) (o : Nat) : (s.recompute).target base o = s.target base o := rfl
@[simp] theorem State.recompute_pred (p : Predicate) (v d : Word) : (s.recompute).pred p v d = s.pred p v d := rfl
@[simp] theorem State.recompute_regionAt (addr : Word) : (s.recompute).regionAt addr = s.regionAt addr := rfl
@[simp] theorem State.recompute_inWindow (addr : Word) : (s.recompute).inWindow addr = s.inWindow addr := rfl
@[simp] theorem State.recompute_touchesWindow (addr : Word) : (s.recompute).touchesWindow addr = s.touchesWindow addr := rfl
@[simp] theorem State.recompute_plainAnswer {α : Type} (addr : Word) (v : α) : (s.recompute).plainAnswer addr v = s.plainAnswer addr v := rfl
@[simp] theorem State.recompute_busRead (addr : Word) : (s.recompute).busRead addr = s.busRead addr := rfl
@[simp] theorem State.recompute_busWrite (addr v : Word) : (s.recompute).busWrite addr v = s.busWrite addr v := rfl

/-! ## logAccess -/

@[simp] theorem State.logAccess_slots (x : BusAccess) : (s.logAccess x).slots = s.slots := rfl
@[simp] theorem State.logAccess_absoluteDelayCounter (x : BusAccess) : (s.logAccess x).absoluteDelayCounter = s.absoluteDelayCounter := rfl
@[simp] theorem State.logAccess_signalBitmask (x : BusAccess) : (s.logAccess x).signalBitmask = s.signalBitmask := rfl
@[simp] theorem State.logAccess_triggerBitmask (x : BusAccess) : (s.logAccess x).triggerBitmask = s.triggerBitmask := rfl
@[simp] theorem State.logAccess_baseAddress (x : BusAccess) : (s.logAccess x).baseAddress = s.baseAddress := rfl
@[simp] theorem State.logAccess_contWritePos (x : BusAccess) : (s.logAccess x).contWritePos = s.contWritePos := rfl
@[simp] theorem State.logAccess_basePos (x : BusAccess) : (s.logAccess x).basePos = s.basePos := rfl
@[simp] theorem State.logAccess_en (x : BusAccess) : (s.logAccess x).en = s.en := rfl
@[simp] theorem State.logAccess_timeBase (x : BusAccess) : (s.logAccess x).timeBase = s.timeBase := rfl
@[simp] theorem State.logAccess_eqMaskA (x : BusAccess) : (s.logAccess x).eqMaskA = s.eqMaskA := rfl
@[simp] theorem State.logAccess_eqMaskB (x : BusAccess) : (s.logAccess x).eqMaskB = s.eqMaskB := rfl
@[simp] theorem State.logAccess_busErrAddr (x : BusAccess) : (s.logAccess x).busErrAddr = s.busErrAddr := rfl
@[simp] theorem State.logAccess_ifReg (x : BusAccess) : (s.logAccess x).ifReg = s.ifReg := rfl
@[simp] theorem State.logAccess_ien (x : BusAccess) : (s.logAccess x).ien = s.ien := rfl
@[simp] theorem State.logAccess_seqIf (x : BusAccess) : (s.logAccess x).seqIf = s.seqIf := rfl
@[simp] theorem State.logAccess_seqIen (x : BusAccess) : (s.logAccess x).seqIen = s.seqIen := rfl
@[simp] theorem State.logAccess_timer (x : BusAccess) : (s.logAccess x).timer = s.timer := rfl
@[simp] theorem State.logAccess_irqHost (x : BusAccess) : (s.logAccess x).irqHost = s.irqHost := rfl
@[simp] theorem State.logAccess_irqSeq (x : BusAccess) : (s.logAccess x).irqSeq = s.irqSeq := rfl
@[simp] theorem State.logAccess_fault (x : BusAccess) : (s.logAccess x).fault = s.fault := rfl
@[simp] theorem State.logAccess_preOutstanding (x : BusAccess) : (s.logAccess x).preOutstanding = s.preOutstanding := rfl
@[simp] theorem State.logAccess_mem (x : BusAccess) : (s.logAccess x).mem = s.mem := rfl
@[simp] theorem State.logAccess_hostReadData (x : BusAccess) : (s.logAccess x).hostReadData = s.hostReadData := rfl
@[simp] theorem State.logAccess_freeDraws (x : BusAccess) : (s.logAccess x).freeDraws = s.freeDraws := rfl
@[simp] theorem State.logAccess_schedule (x : BusAccess) : (s.logAccess x).schedule = s.schedule := rfl
@[simp] theorem State.logAccess_params (x : BusAccess) : (s.logAccess x).params = s.params := rfl
@[simp] theorem State.logAccess_slot (x : BusAccess) (j : SlotId) : (s.logAccess x).slot j = s.slot j := rfl
@[simp] theorem State.logAccess_pc (x : BusAccess) (j : SlotId) : (s.logAccess x).pc j = s.pc j := rfl
@[simp] theorem State.logAccess_activeSlot (x : BusAccess) : (s.logAccess x).activeSlot = s.activeSlot := rfl
@[simp] theorem State.logAccess_executor (x : BusAccess) : (s.logAccess x).executor = s.executor := rfl
@[simp] theorem State.logAccess_deferralArmed (x : BusAccess) : (s.logAccess x).deferralArmed = s.deferralArmed := rfl
@[simp] theorem State.logAccess_layout (x : BusAccess) : (s.logAccess x).layout = s.layout := rfl
@[simp] theorem State.logAccess_target (x : BusAccess) (base : BaseIndex) (o : Nat) : (s.logAccess x).target base o = s.target base o := rfl
@[simp] theorem State.logAccess_pred (x : BusAccess) (p : Predicate) (v d : Word) : (s.logAccess x).pred p v d = s.pred p v d := rfl
@[simp] theorem State.logAccess_regionAt (x : BusAccess) (addr : Word) : (s.logAccess x).regionAt addr = s.regionAt addr := rfl
@[simp] theorem State.logAccess_inWindow (x : BusAccess) (addr : Word) : (s.logAccess x).inWindow addr = s.inWindow addr := rfl
@[simp] theorem State.logAccess_touchesWindow (x : BusAccess) (addr : Word) : (s.logAccess x).touchesWindow addr = s.touchesWindow addr := rfl
@[simp] theorem State.logAccess_plainAnswer (x : BusAccess) {α : Type} (addr : Word) (v : α) : (s.logAccess x).plainAnswer addr v = s.plainAnswer addr v := rfl

/-! ## The fields an update writes -/

@[simp] theorem State.arm_timer (r : StartReason) (i : SlotId) (b : TickSource) (n : Nat) :
    (s.arm r i b n).timer = ⟨true, r, i, b, n⟩ := rfl
@[simp] theorem State.disarm_timer_armed : s.disarm.timer.armed = false := rfl
@[simp] theorem State.disarm_timer_reason : s.disarm.timer.reason = s.timer.reason := rfl
@[simp] theorem State.disarm_timer_slot : s.disarm.timer.slot = s.timer.slot := rfl
@[simp] theorem State.disarm_timer_tb : s.disarm.timer.tb = s.timer.tb := rfl
@[simp] theorem State.disarm_timer_remaining : s.disarm.timer.remaining = s.timer.remaining := rfl
@[simp] theorem State.raiseFatal_fault (r : FaultRecord) : (s.raiseFatal r).fault = some r := rfl
@[simp] theorem State.raiseFlags_ifReg (c : Conditions) : (s.raiseFlags c).ifReg = s.ifReg ||| c := rfl
@[simp] theorem State.raiseFlags_seqIf (c : Conditions) : (s.raiseFlags c).seqIf = s.seqIf ||| c := rfl
@[simp] theorem State.recompute_irqHost : s.recompute.irqHost = lineOf s.ifReg s.ien := rfl
@[simp] theorem State.recompute_irqSeq : s.recompute.irqSeq = lineOf s.seqIf s.seqIen := rfl
@[simp] theorem State.logAccess_trace (x : BusAccess) : (s.logAccess x).trace = x :: s.trace := rfl

/-! ## Slots under the updates that write them -/

theorem State.slot_updateSlot (i j : SlotId) (f : Slot → Slot) :
    (s.updateSlot i f).slot j = if i = j then f (s.slot j) else s.slot j := by
  unfold State.slot State.updateSlot
  by_cases h : i = j
  · subst h; simp
  · simp [h, Fin.val_inj]

@[simp] theorem State.slot_updateSlot_self (i : SlotId) (f : Slot → Slot) :
    (s.updateSlot i f).slot i = f (s.slot i) := by simp [State.slot_updateSlot]

theorem State.slot_updateSlot_of_ne {i j : SlotId} (f : Slot → Slot) (h : i ≠ j) :
    (s.updateSlot i f).slot j = s.slot j := by simp [State.slot_updateSlot, h]

@[simp] theorem State.slot_mapSlots (j : SlotId) (f : SlotId → Slot → Slot) :
    (s.mapSlots f).slot j = f j (s.slot j) := by
  simp [State.slot, State.mapSlots]

theorem State.slot_setSlotState (i j : SlotId) (x : SlotState) :
    (s.setSlotState i x).slot j = if i = j then { s.slot j with state := x } else s.slot j :=
  s.slot_updateSlot i j _

theorem State.slot_setPc (i j : SlotId) (x : Word) :
    (s.setPc i x).slot j = if i = j then { s.slot j with currentAddress := x } else s.slot j :=
  s.slot_updateSlot i j _

@[simp] theorem State.slot_setPc_state (i j : SlotId) (x : Word) : ((s.setPc i x).slot j).state = (s.slot j).state := by
  rw [State.slot_setPc]; split <;> rfl

@[simp] theorem State.pc_setPc_self (i : SlotId) (x : Word) : (s.setPc i x).pc i = x := by
  simp [State.pc, State.slot_setPc]

@[simp] theorem State.slot_abortSlots (j : SlotId) (T : SlotId → Bool) :
    (s.abortSlots T).slot j = if T j then (s.slot j).aborted else s.slot j := by
  simp [State.abortSlots]

@[simp] theorem State.slot_makePending (j : SlotId) (m : SlotMask) :
    (s.makePending m).slot j = if inMask m j then { s.slot j with state := .pending } else s.slot j := by
  simp [State.makePending]

/-! ## Slot records -/

@[simp] theorem Slot.clearDelay_state (x : Slot) : x.clearDelay.state = x.state := rfl
@[simp] theorem Slot.clearDelay_currentAddress (x : Slot) : x.clearDelay.currentAddress = x.currentAddress := rfl
@[simp] theorem Slot.clearDelay_startAddress (x : Slot) : x.clearDelay.startAddress = x.startAddress := rfl
@[simp] theorem Slot.clearDelay_hardwareStartSelect (x : Slot) : x.clearDelay.hardwareStartSelect = x.hardwareStartSelect := rfl
@[simp] theorem Slot.clearDelay_hardwareTriggerMode (x : Slot) : x.clearDelay.hardwareTriggerMode = x.hardwareTriggerMode := rfl
@[simp] theorem Slot.clearDelay_disableAbsoluteDelayReset (x : Slot) : x.clearDelay.disableAbsoluteDelayReset = x.disableAbsoluteDelayReset := rfl
@[simp] theorem Slot.clearDelay_movSwapAddresses (x : Slot) : x.clearDelay.movSwapAddresses = x.movSwapAddresses := rfl
@[simp] theorem Slot.clearDelay_delayRemainingTicksOrTopValue (x : Slot) : x.clearDelay.delayRemainingTicksOrTopValue = 0 := rfl
@[simp] theorem Slot.clearDelay_delayIsRelative (x : Slot) : x.clearDelay.delayIsRelative = false := rfl
@[simp] theorem Slot.clearDelay_waitSigPred (x : Slot) : x.clearDelay.waitSigPred = x.waitSigPred := rfl
@[simp] theorem Slot.clearDelay_waitSigData (x : Slot) : x.clearDelay.waitSigData = x.waitSigData := rfl
@[simp] theorem Slot.aborted_state (x : Slot) : x.aborted.state = .idle := rfl
@[simp] theorem Slot.aborted_currentAddress (x : Slot) : x.aborted.currentAddress = x.currentAddress := rfl
@[simp] theorem Slot.aborted_startAddress (x : Slot) : x.aborted.startAddress = x.startAddress := rfl
@[simp] theorem Slot.aborted_hardwareStartSelect (x : Slot) : x.aborted.hardwareStartSelect = x.hardwareStartSelect := rfl
@[simp] theorem Slot.aborted_hardwareTriggerMode (x : Slot) : x.aborted.hardwareTriggerMode = x.hardwareTriggerMode := rfl
@[simp] theorem Slot.aborted_disableAbsoluteDelayReset (x : Slot) : x.aborted.disableAbsoluteDelayReset = x.disableAbsoluteDelayReset := rfl
@[simp] theorem Slot.aborted_movSwapAddresses (x : Slot) : x.aborted.movSwapAddresses = x.movSwapAddresses := rfl
@[simp] theorem Slot.aborted_delayRemainingTicksOrTopValue (x : Slot) : x.aborted.delayRemainingTicksOrTopValue = 0 := rfl
@[simp] theorem Slot.aborted_delayIsRelative (x : Slot) : x.aborted.delayIsRelative = false := rfl
@[simp] theorem Slot.aborted_waitSigPred (x : Slot) : x.aborted.waitSigPred = x.waitSigPred := rfl
@[simp] theorem Slot.aborted_waitSigData (x : Slot) : x.aborted.waitSigData = x.waitSigData := rfl
@[simp] theorem Slot.resumed_state (x : Slot) : x.resumed.state = .running := rfl
@[simp] theorem Slot.resumed_currentAddress (x : Slot) : x.resumed.currentAddress = x.currentAddress := rfl
@[simp] theorem Slot.resumed_startAddress (x : Slot) : x.resumed.startAddress = x.startAddress := rfl
@[simp] theorem Slot.resumed_hardwareStartSelect (x : Slot) : x.resumed.hardwareStartSelect = x.hardwareStartSelect := rfl
@[simp] theorem Slot.resumed_hardwareTriggerMode (x : Slot) : x.resumed.hardwareTriggerMode = x.hardwareTriggerMode := rfl
@[simp] theorem Slot.resumed_disableAbsoluteDelayReset (x : Slot) : x.resumed.disableAbsoluteDelayReset = x.disableAbsoluteDelayReset := rfl
@[simp] theorem Slot.resumed_movSwapAddresses (x : Slot) : x.resumed.movSwapAddresses = x.movSwapAddresses := rfl
@[simp] theorem Slot.resumed_delayRemainingTicksOrTopValue (x : Slot) : x.resumed.delayRemainingTicksOrTopValue = 0 := rfl
@[simp] theorem Slot.resumed_delayIsRelative (x : Slot) : x.resumed.delayIsRelative = false := rfl
@[simp] theorem Slot.resumed_waitSigPred (x : Slot) : x.resumed.waitSigPred = x.waitSigPred := rfl
@[simp] theorem Slot.resumed_waitSigData (x : Slot) : x.resumed.waitSigData = x.waitSigData := rfl
@[simp] theorem Slot.started_state (x : Slot) : x.started.state = .running := rfl
@[simp] theorem Slot.started_currentAddress (x : Slot) : x.started.currentAddress = x.startAddress := rfl
@[simp] theorem Slot.started_startAddress (x : Slot) : x.started.startAddress = x.startAddress := rfl
@[simp] theorem Slot.started_hardwareStartSelect (x : Slot) : x.started.hardwareStartSelect = x.hardwareStartSelect := rfl
@[simp] theorem Slot.started_hardwareTriggerMode (x : Slot) : x.started.hardwareTriggerMode = x.hardwareTriggerMode := rfl
@[simp] theorem Slot.started_disableAbsoluteDelayReset (x : Slot) : x.started.disableAbsoluteDelayReset = x.disableAbsoluteDelayReset := rfl
@[simp] theorem Slot.started_movSwapAddresses (x : Slot) : x.started.movSwapAddresses = x.movSwapAddresses := rfl
@[simp] theorem Slot.started_delayRemainingTicksOrTopValue (x : Slot) : x.started.delayRemainingTicksOrTopValue = 0 := rfl
@[simp] theorem Slot.started_delayIsRelative (x : Slot) : x.started.delayIsRelative = false := rfl
@[simp] theorem Slot.started_waitSigPred (x : Slot) : x.started.waitSigPred = .allSet := rfl
@[simp] theorem Slot.started_waitSigData (x : Slot) : x.started.waitSigData = 0 := rfl

end Sys2Proof.Machine
end

