-- ==== Sys2Proof/Laws/Operands.lean ====
section
/-! SUPPORT. The lowest slot of a set, masks, the active slot and the executor's slot: what each reader says, once. -/

namespace Sys2Proof.Machine

/-! ## The named constants are the sizes of the types (00_scope.md R5) -/

theorem slotId_size : Fintype.card SlotId = Config.numSlots := rfl
theorem allSlots_size : allSlots.length = Config.numSlots := rfl
theorem baseIndex_size : Fintype.card BaseIndex = Config.numBase := rfl
theorem word_size (w : Word) : w.toNat < 2 ^ Config.wordBits := w.isLt
theorem encoding_size : Config.opcodeLow + Config.opcodeWidth = Config.wordBits := rfl

/-! ## lowest and maskOf -/

theorem allSlots_get (n : Nat) (h : n < allSlots.length) : (allSlots[n]).val = n := by
  have : n < 8 := h
  interval_cases n <;> rfl

theorem mem_allSlots (i : SlotId) : i ∈ allSlots := by fin_cases i <;> decide

theorem lowest_eq_none {p : SlotId → Bool} : lowest p = none ↔ ∀ i, p i = false := by
  simp only [lowest, List.find?_eq_none]
  exact ⟨fun h i => by simpa using h i (mem_allSlots i), fun h i _ => by simp [h i]⟩

/-- The slot `lowest` answers satisfies the predicate and no lower one does. -/
theorem lowest_eq_some {p : SlotId → Bool} {i : SlotId} :
    lowest p = some i ↔ p i = true ∧ ∀ j, j < i → p j = false := by
  simp only [lowest, List.find?_eq_some_iff_getElem]
  constructor
  · rintro ⟨hp, n, hn, hi, hlt⟩
    refine ⟨hp, fun j hj => ?_⟩
    have hin : i.val = n := by rw [← hi]; exact allSlots_get n hn
    have hj' : j.val < n := by rw [← hin]; exact hj
    have e : allSlots[j.val]'(by omega) = j := Fin.ext (allSlots_get _ _)
    simpa [e] using hlt j.val hj'
  · rintro ⟨hp, hlt⟩
    refine ⟨hp, i.val, i.isLt, Fin.ext (allSlots_get _ _), fun n hn => ?_⟩
    have hl : n < allSlots.length := lt_trans hn i.isLt
    have := hlt (allSlots[n]'hl) (by rw [Fin.lt_def, allSlots_get]; exact hn)
    simp [this]

theorem lowest_isSome {p : SlotId → Bool} : (lowest p).isSome = true ↔ ∃ i, p i = true := by
  rw [← Bool.not_eq_false, Option.isSome_eq_false_iff, Option.isNone_iff_eq_none, lowest_eq_none]
  simp

/-- With one slot that satisfies the predicate, it is the lowest. -/
theorem lowest_eq_some_of_unique {p : SlotId → Bool} {i : SlotId} (h : p i = true) (hu : ∀ j, p j = true → j = i) :
    lowest p = some i := by
  rw [lowest_eq_some]
  refine ⟨h, fun j hj => ?_⟩
  cases hp : p j with
  | false => rfl
  | true => rw [hu j hp] at hj; exact absurd hj (lt_irrefl _)

@[simp] theorem inMask_maskOf (p : SlotId → Bool) (i : SlotId) : inMask (maskOf p) i = p i := by
  simp [inMask, maskOf]

@[simp] theorem inMask_zero (i : SlotId) : inMask 0#8 i = false := by simp [inMask]

theorem inMask_and_not (m n : SlotMask) (i : SlotId) : inMask (m &&& ~~~n) i = (inMask m i && !inMask n i) := by
  simp [inMask]

theorem inMask_bit (i j : SlotId) : inMask (1#8 <<< i.val) j = decide (i = j) := by
  revert i j; decide

theorem slotMask_ext {m n : SlotMask} (h : ∀ i, inMask m i = inMask n i) : m = n := by
  apply BitVec.eq_of_getLsbD_eq
  intro k hk
  exact h ⟨k, hk⟩

theorem slotMask_eq_zero {m : SlotMask} : m = 0 ↔ ∀ i, inMask m i = false :=
  ⟨fun h i => by simp [h], fun h => slotMask_ext fun i => by simp [h i]⟩

/-! ## The active slot -/

theorem State.activeSlot_eq_none {s : State} : s.activeSlot = none ↔ ∀ i, (s.slot i).state.active = false :=
  lowest_eq_none

theorem State.active_of_activeSlot {s : State} {a : SlotId} (h : s.activeSlot = some a) : (s.slot a).state.active = true :=
  (lowest_eq_some.mp h).1

theorem State.activeSlot_of_active {s : State} (h1 : s.OneActive) {a : SlotId} (h : (s.slot a).state.active = true) :
    s.activeSlot = some a :=
  lowest_eq_some_of_unique h fun j hj => h1 j a hj h

/-- The active slot depends on the slots' states only. -/
theorem State.activeSlot_congr {s t : State} (h : ∀ i, (s.slot i).state.active = (t.slot i).state.active) :
    s.activeSlot = t.activeSlot := by
  simp only [State.activeSlot, h]

/-! ## The executor -/

/-- The condition of 40_execution_cycle.md R110. -/
theorem State.executor_eq_some {s : State} {a : SlotId} :
    s.executor = some a ↔ s.activeSlot = some a ∧ s.fault = none ∧ (s.slot a).state = .running ∧ s.deferralArmed = false := by
  unfold State.executor
  cases h : s.activeSlot with
  | none => simp
  | some b =>
    simp only [Bool.and_eq_true, Option.isNone_iff_eq_none, beq_iff_eq, Bool.not_eq_true', Option.ite_none_right_eq_some,
      Option.some.injEq]
    constructor
    · rintro ⟨⟨⟨hf, hr⟩, hd⟩, rfl⟩; exact ⟨rfl, hf, hr, hd⟩
    · rintro ⟨rfl, hf, hr, hd⟩; exact ⟨⟨⟨hf, hr⟩, hd⟩, rfl⟩

theorem State.onExecutor_some {s : State} {a : SlotId} (h : s.executor = some a) (k : SlotId → Outcome) :
    s.onExecutor k = k a := by simp [State.onExecutor, h]

/-- A meaning that answers a next state ran for the executor's slot. -/
theorem State.onExecutor_next {s t : State} {k : SlotId → Outcome} (h : s.onExecutor k = .next t) :
    ∃ a, s.executor = some a ∧ k a = .next t := by
  unfold State.onExecutor at h
  cases he : s.executor with
  | none => rw [he] at h; cases h
  | some a => rw [he] at h; exact ⟨a, rfl, h⟩

/-! ## Addresses -/

@[simp] theorem wordAddr_zero (a : Word) : wordAddr a 0 = a := by simp [wordAddr]

theorem wordAddr_succ (a : Word) (k : Nat) : wordAddr a (k + 1) = wordAddr (a + 4) k := by
  have h4 : (4 : Word) = BitVec.ofNat 32 4 := rfl
  unfold wordAddr
  rw [h4]
  apply BitVec.eq_of_toNat_eq
  simp only [BitVec.toNat_add, BitVec.toNat_ofNat]
  omega

end Sys2Proof.Machine
end

