-- ==== Sys2Proof/Laws/Bus.lean ====
section
/-! SUPPORT. The bus: what a read and a write answer, and everything a run of accesses can leave behind, said once. -/

namespace Sys2Proof.Machine

/-! ## One access -/

theorem memRead_of_value {s : State} {addr v : Word} (h : s.busRead addr = .value v) :
    memRead s addr = .done v (s.logAccess (.read addr (some v))) := by simp [memRead, h]

theorem memRead_of_error {s : State} {addr : Word} (h : s.busRead addr = .error) :
    memRead s addr = .failed addr (s.logAccess (.read addr none)) := by simp [memRead, h]

theorem memWrite_of_value {s : State} {addr v : Word} {m : Memory} (h : s.busWrite addr v = .value m) :
    memWrite s addr v = .done () ({ s with mem := m }.logAccess (.write addr v true)) := by simp [memWrite, h]

theorem memWrite_of_error {s : State} {addr v : Word} (h : s.busWrite addr v = .error) :
    memWrite s addr v = .failed addr (s.logAccess (.write addr v false)) := by simp [memWrite, h]

@[simp] theorem Access.done_outcome {α : Type} (v : α) (s : State) (k : α → State → Outcome) :
    (Access.done v s).outcome k = k v s := rfl
@[simp] theorem Access.failed_outcome {α : Type} (addr : Word) (s : State) (k : α → State → Outcome) :
    (Access.failed addr s).outcome k = .next (s.busError addr) := rfl
@[simp] theorem Access.refused_outcome {α : Type} (r : Refusal) (k : α → State → Outcome) :
    (Access.refused r).outcome k = .refused r := rfl
@[simp] theorem Access.done_andThen {α β : Type} (v : α) (s : State) (k : α → State → Access β) :
    (Access.done v s).andThen k = k v s := rfl
@[simp] theorem Access.failed_andThen {α β : Type} (addr : Word) (s : State) (k : α → State → Access β) :
    (Access.failed addr s).andThen k = .failed addr s := rfl
@[simp] theorem Access.refused_andThen {α β : Type} (r : Refusal) (k : α → State → Access β) :
    (Access.refused r : Access α).andThen k = .refused r := rfl

/-! ## Plain memory -/

theorem State.PlainAt.busRead {s : State} {addr : Word} (h : s.PlainAt addr) : s.busRead addr = .value (s.word addr) := by
  obtain ⟨hw, hr, ha⟩ := h
  unfold State.busRead State.plainAnswer State.word
  rw [hw, hr]
  rcases ha with ha | ha <;> simp [ha]

theorem State.PlainAt.busWrite {s : State} {addr : Word} (h : s.PlainAt addr) (v : Word) :
    s.busWrite addr v = .value (s.mem.writeWord s.params.byteOrder addr v) := by
  obtain ⟨hw, hr, ha⟩ := h
  unfold State.busWrite State.plainAnswer
  rw [hw, hr]
  rcases ha with ha | ha <;> simp [ha]

/-- Whether an address is plain memory depends on the parameters only. -/
theorem State.PlainAt.congr {s t : State} (hp : t.params = s.params) {addr : Word} (h : s.PlainAt addr) : t.PlainAt addr := by
  unfold State.PlainAt State.touchesWindow State.inWindow State.regionAt at h ⊢
  rw [hp]; exact h

theorem memRead_plain {s : State} {addr : Word} (h : s.PlainAt addr) :
    memRead s addr = .done (s.word addr) (s.logAccess (.read addr (some (s.word addr)))) :=
  memRead_of_value h.busRead

theorem memWrite_plain {s : State} {addr : Word} (h : s.PlainAt addr) (v : Word) :
    memWrite s addr v =
      .done () ({ s with mem := s.mem.writeWord s.params.byteOrder addr v }.logAccess (.write addr v true)) :=
  memWrite_of_value (h.busWrite v)

/-! ## A bus that always answers -/

theorem State.AlwaysAnswers.congr {s t : State} (hp : t.params = s.params) {addr : Word} (h : s.AlwaysAnswers addr) :
    t.AlwaysAnswers addr := by
  unfold State.AlwaysAnswers State.touchesWindow State.inWindow State.regionAt at h ⊢
  rw [hp]; exact h

theorem State.AlwaysAnswers.busRead {s : State} {addr : Word} (h : s.AlwaysAnswers addr) :
    ∃ v, s.busRead addr = .value v := by
  obtain ⟨hw, hr⟩ := h
  unfold State.busRead
  rw [hw]
  cases hreg : s.regionAt addr with
  | none =>
    rw [hreg] at hr
    exact ⟨_, by rcases hr with ha | ha <;> simp [State.plainAnswer, ha] <;> rfl⟩
  | some k =>
    rw [hreg] at hr
    cases k with
    | device => obtain ⟨v, hv⟩ := hr.1 s.trace; exact ⟨v, by simp [hv]⟩
    | failing r w =>
      obtain ⟨rfl, rfl, ha⟩ := hr
      exact ⟨_, by rcases ha with ha | ha <;> simp [State.plainAnswer, ha] <;> rfl⟩

theorem State.AlwaysAnswers.busWrite {s : State} {addr : Word} (h : s.AlwaysAnswers addr) (v : Word) :
    ∃ m, s.busWrite addr v = .value m := by
  obtain ⟨hw, hr⟩ := h
  unfold State.busWrite
  rw [hw]
  cases hreg : s.regionAt addr with
  | none =>
    rw [hreg] at hr
    exact ⟨_, by rcases hr with ha | ha <;> simp [State.plainAnswer, ha] <;> rfl⟩
  | some k =>
    rw [hreg] at hr
    cases k with
    | device => exact ⟨s.mem, by simp [hr.2 s.trace v]⟩
    | failing r w =>
      obtain ⟨rfl, rfl, ha⟩ := hr
      exact ⟨_, by rcases ha with ha | ha <;> simp [State.plainAnswer, ha] <;> rfl⟩

/-! ## What a write can do to memory -/

theorem State.plainAnswer_value {α : Type} {s : State} {addr : Word} {v w : α} (h : s.plainAnswer addr v = .value w) :
    w = v := by
  unfold State.plainAnswer at h
  split at h
  · cases h; rfl
  · split at h <;> cases h; rfl

/-- A write that BUS takes leaves memory alone (a peripheral) or writes the word. -/
theorem State.busWrite_cases {s : State} {addr v : Word} {m : Memory} (h : s.busWrite addr v = .value m) :
    m = s.mem ∨ m = s.mem.writeWord s.params.byteOrder addr v := by
  unfold State.busWrite at h
  split at h
  · cases h
  · split at h
    · split at h
      · cases h; exact .inl rfl
      · cases h
    · cases h
    · exact .inr (State.plainAnswer_value h)

/-! ## Runs of accesses -/

/-- Every state a run of accesses can leave, completed or failed, satisfies `P`. -/
def Access.After {α : Type} (x : Access α) (P : State → Prop) : Prop :=
  match x with
  | .done _ t => P t
  | .failed _ t => P t
  | .refused _ => True

theorem Access.After.andThen {α β : Type} {x : Access α} {k : α → State → Access β} {P Q : State → Prop}
    (hx : x.After P) (hPQ : ∀ t, P t → Q t) (hk : ∀ v t, P t → (k v t).After Q) : (x.andThen k).After Q := by
  cases x with
  | done v t => exact hk v t hx
  | failed addr t => exact hPQ t hx
  | refused r => trivial

/-- What an instruction that ends in `k` after its accesses can answer: `k` of a state they leave, or a bus error there. -/
theorem Access.After.outcome_next {α : Type} {x : Access α} {k : α → State → Outcome} {P : State → Prop} {t : State}
    (hx : x.After P) (h : x.outcome k = .next t) :
    (∃ v u, x = .done v u ∧ P u ∧ k v u = .next t) ∨ ∃ addr u, P u ∧ t = u.busError addr := by
  cases x with
  | done v u => exact .inl ⟨v, u, rfl, hx, h⟩
  | failed addr u => cases h; exact .inr ⟨addr, u, hx, rfl⟩
  | refused r => cases h

theorem State.BusOnly.refl (s : State) : s.BusOnly s := rfl

theorem State.BusOnly.trans {s t u : State} (h1 : s.BusOnly t) (h2 : t.BusOnly u) : s.BusOnly u := by
  unfold State.BusOnly at *
  rw [h2, h1]

theorem State.BusOnly.logAccess (s : State) (x : BusAccess) : s.BusOnly (s.logAccess x) := rfl

theorem State.BusOnly.slot {s t : State} (h : s.BusOnly t) (i : SlotId) : t.slot i = s.slot i := by rw [h]; rfl
theorem State.BusOnly.pc {s t : State} (h : s.BusOnly t) (i : SlotId) : t.pc i = s.pc i := by rw [h]; rfl
theorem State.BusOnly.params {s t : State} (h : s.BusOnly t) : t.params = s.params := by rw [h]
theorem State.BusOnly.layout {s t : State} (h : s.BusOnly t) : t.layout = s.layout := by rw [h]; rfl
theorem State.BusOnly.executor {s t : State} (h : s.BusOnly t) : t.executor = s.executor := by rw [h]; rfl
theorem State.BusOnly.activeSlot {s t : State} (h : s.BusOnly t) : t.activeSlot = s.activeSlot := by rw [h]; rfl

/-- A read leaves memory alone. -/
theorem memRead_after (s : State) (addr : Word) : (memRead s addr).After fun t => s.BusOnly t ∧ t.mem = s.mem := by
  unfold memRead
  split
  · exact ⟨rfl, rfl⟩
  · exact ⟨rfl, rfl⟩
  · trivial

/-- A write touches only memory and the trace. -/
theorem memWrite_after (s : State) (addr v : Word) : (memWrite s addr v).After fun t => s.BusOnly t := by
  unfold memWrite
  split
  · rfl
  · rfl
  · trivial

theorem copyWords_after (step : Word) (n : Nat) (src dst : Word) (s : State) :
    (copyWords step n src dst s).After fun t => s.BusOnly t := by
  induction n generalizing src dst s with
  | zero => exact State.BusOnly.refl s
  | succ n ih =>
    unfold copyWords
    refine (memRead_after s src).andThen (fun t h => h.1) fun v t ht => ?_
    refine (memWrite_after t dst v).andThen (fun u h => ht.1.trans h) fun _ u hu => ?_
    have := ih (src + 4) (dst + step) u
    revert this
    cases copyWords step n (src + 4) (dst + step) u <;> intro h
    · exact (ht.1.trans hu).trans h
    · exact (ht.1.trans hu).trans h
    · trivial

theorem Access.After.mono {α : Type} {x : Access α} {P Q : State → Prop} (h : x.After P) (hPQ : ∀ t, P t → Q t) :
    x.After Q := by
  cases x with
  | done v t => exact hPQ t h
  | failed addr t => exact hPQ t h
  | refused r => trivial

theorem combineWords_after (op : Word → Word → Word) (n : Nat) (src dst : Word) (s : State) :
    (combineWords op n src dst s).After fun t => s.BusOnly t := by
  induction n generalizing src dst s with
  | zero => exact State.BusOnly.refl s
  | succ n ih =>
    unfold combineWords
    refine (memRead_after s src).andThen (fun t h => h.1) fun v t ht => ?_
    refine (memRead_after t dst).andThen (fun u h => ht.1.trans h.1) fun w u hu => ?_
    refine (memWrite_after u dst (op w v)).andThen (fun x h => (ht.1.trans hu.1).trans h) fun _ x hx => ?_
    exact (ih (src + 4) (dst + 4) x).mono fun y h => ((ht.1.trans hu.1).trans hx).trans h

/-! ## Runs in plain memory -/

theorem copyWords_succ (step : Word) (n : Nat) (src dst : Word) (s : State) :
    copyWords step (n + 1) src dst s = (memRead s src).andThen fun v s1 =>
      (memWrite s1 dst v).andThen fun _ s2 => copyWords step n (src + 4) (dst + step) s2 := rfl

@[simp] theorem forWords_zero (body : Nat → State → State) (s : State) : forWords 0 body s = s := rfl
theorem forWords_succ (n : Nat) (body : Nat → State → State) (s : State) :
    forWords (n + 1) body s = forWords n (fun k => body (k + 1)) (body 0 s) := by
  simp only [forWords, List.range_succ_eq_map, List.foldl_cons, List.foldl_map]

theorem State.plainCopy_params (s : State) (src dst : Word) : (s.plainCopy src dst).params = s.params := rfl

/-- Where every word of both sides is plain memory, a copy to rising addresses is the spec's loop. -/
theorem copyWords_plain (n : Nat) {src dst : Word} {s : State}
    (h : ∀ k, k < n → s.PlainAt (wordAddr src k) ∧ s.PlainAt (wordAddr dst k)) :
    copyWords 4 n src dst s = .done () (forWords n (fun k t => t.plainCopy (wordAddr src k) (wordAddr dst k)) s) := by
  induction n generalizing src dst s with
  | zero => rfl
  | succ n ih =>
    have h0 := h 0 (by omega)
    rw [wordAddr_zero, wordAddr_zero] at h0
    have hw : (s.logAccess (.read src (some (s.word src)))).PlainAt dst := h0.2
    unfold copyWords
    rw [memRead_plain h0.1, Access.done_andThen, memWrite_plain hw, Access.done_andThen, forWords_succ]
    have e : ({ s.logAccess (.read src (some (s.word src))) with mem := (s.logAccess (.read src (some (s.word src)))).mem.writeWord (s.logAccess (.read src (some (s.word src)))).params.byteOrder dst (s.word src) }).logAccess (.write dst (s.word src) true) = s.plainCopy src dst := rfl
    rw [e, ih fun k hk => ?_]
    · simp only [wordAddr_succ, wordAddr_zero]
    · have := h (k + 1) (by omega)
      simpa only [wordAddr_succ] using And.intro (this.1.congr (State.plainCopy_params s src dst)) (this.2.congr (State.plainCopy_params s src dst))

/-- The same, with one destination address (41_transfer.md R132). -/
theorem copyWords_fixed_plain (n : Nat) {src dst : Word} {s : State}
    (h : ∀ k, k < n → s.PlainAt (wordAddr src k) ∧ s.PlainAt dst) :
    copyWords 0 n src dst s = .done () (forWords n (fun k t => t.plainCopy (wordAddr src k) dst) s) := by
  induction n generalizing src s with
  | zero => rfl
  | succ n ih =>
    have h0 := h 0 (by omega)
    rw [wordAddr_zero] at h0
    have hw : (s.logAccess (.read src (some (s.word src)))).PlainAt dst := h0.2
    unfold copyWords
    rw [memRead_plain h0.1, Access.done_andThen, memWrite_plain hw, Access.done_andThen, forWords_succ]
    have e : ({ s.logAccess (.read src (some (s.word src))) with mem := (s.logAccess (.read src (some (s.word src)))).mem.writeWord (s.logAccess (.read src (some (s.word src)))).params.byteOrder dst (s.word src) }).logAccess (.write dst (s.word src) true) = s.plainCopy src dst := rfl
    have z : dst + 0 = dst := by simp
    rw [e, z, ih fun k hk => ?_]
    · simp only [wordAddr_succ, wordAddr_zero]
    · have := h (k + 1) (by omega)
      simpa only [wordAddr_succ] using And.intro (this.1.congr (State.plainCopy_params s src dst)) (this.2.congr (State.plainCopy_params s src dst))

/-- The same, for a combination (42_logical.md R150). -/
theorem combineWords_plain (op : Word → Word → Word) (n : Nat) {src dst : Word} {s : State}
    (h : ∀ k, k < n → s.PlainAt (wordAddr src k) ∧ s.PlainAt (wordAddr dst k)) :
    combineWords op n src dst s =
      .done () (forWords n (fun k t => t.plainCombine op (wordAddr src k) (wordAddr dst k)) s) := by
  induction n generalizing src dst s with
  | zero => rfl
  | succ n ih =>
    have h0 := h 0 (by omega)
    rw [wordAddr_zero, wordAddr_zero] at h0
    have hr : (s.logAccess (.read src (some (s.word src)))).PlainAt dst := h0.2
    have hw : ((s.logAccess (.read src (some (s.word src)))).logAccess (.read dst (some (s.word dst)))).PlainAt dst := h0.2
    have hd : (s.logAccess (.read src (some (s.word src)))).word dst = s.word dst := rfl
    unfold combineWords
    rw [memRead_plain h0.1, Access.done_andThen, memRead_plain hr, Access.done_andThen, hd, memWrite_plain hw,
      Access.done_andThen, forWords_succ]
    have e : ∀ v, ({ (s.logAccess (.read src (some (s.word src)))).logAccess (.read dst (some (s.word dst))) with mem := ((s.logAccess (.read src (some (s.word src)))).logAccess (.read dst (some (s.word dst)))).mem.writeWord ((s.logAccess (.read src (some (s.word src)))).logAccess (.read dst (some (s.word dst)))).params.byteOrder dst v }).logAccess (.write dst v true) = 
      { s with mem := s.mem.writeWord s.params.byteOrder dst v
               trace := .write dst v true :: .read dst (some (s.word dst)) :: .read src (some (s.word src)) :: s.trace } := fun _ => rfl
    have e2 : { s with mem := s.mem.writeWord s.params.byteOrder dst (op (s.word dst) (s.word src))
                       trace := .write dst (op (s.word dst) (s.word src)) true :: .read dst (some (s.word dst)) :: .read src (some (s.word src)) :: s.trace } = s.plainCombine op src dst := rfl
    rw [e, e2, ih fun k hk => ?_]
    · simp only [wordAddr_succ, wordAddr_zero]
    · have := h (k + 1) (by omega)
      have pp : (s.plainCombine op src dst).params = s.params := rfl
      simpa only [wordAddr_succ] using And.intro (this.1.congr pp) (this.2.congr pp)

theorem forWords_params {n : Nat} {body : Nat → State → State} {s : State} (h : ∀ k t, (body k t).params = t.params) :
    (forWords n body s).params = s.params := by
  induction n generalizing body s with
  | zero => rfl
  | succ n ih => rw [forWords_succ, ih (fun k t => h (k+1) t), h]

/-! ## Which bytes a run of accesses can change -/

/-- `t` has memory in canonical form that reads as that of `s` outside `S`. -/
def State.MemStays (s : State) (S : Word → Prop) (t : State) : Prop :=
  t.mem.wf = true ∧ ∀ x, ¬S x → t.mem.byteAt x = s.mem.byteAt x

theorem State.MemStays.trans {s t u : State} {S : Word → Prop} (h1 : s.MemStays S t) (h2 : t.MemStays S u) :
    s.MemStays S u :=
  ⟨h2.1, fun x hx => (h2.2 x hx).trans (h1.2 x hx)⟩

theorem State.MemStays.mono {s t : State} {S S' : Word → Prop} (h : s.MemStays S t) (hS : ∀ x, S x → S' x) :
    s.MemStays S' t :=
  ⟨h.1, fun x hx => h.2 x fun hs => hx (hS x hs)⟩

theorem State.MemStays.of_mem_eq {s t : State} (hw : s.mem.wf = true) (h : t.mem = s.mem) (S : Word → Prop) :
    s.MemStays S t :=
  ⟨by rw [h]; exact hw, fun x _ => by rw [h]⟩

theorem memRead_stays {s : State} (hw : s.mem.wf = true) (S : Word → Prop) (addr : Word) :
    (memRead s addr).After fun t => s.MemStays S t :=
  (memRead_after s addr).mono fun _ h => .of_mem_eq hw h.2 S

theorem memWrite_stays {s : State} (hw : s.mem.wf = true) (addr v : Word) :
    (memWrite s addr v).After fun t => s.MemStays (InWord addr) t := by
  unfold memWrite
  split
  · next m hm =>
    rcases State.busWrite_cases hm with rfl | rfl
    · exact .of_mem_eq hw rfl _
    · refine ⟨Memory.wf_writeWord hw _ _ _, fun x hx => ?_⟩
      simp only [InWord, not_or] at hx
      exact Memory.byteAt_writeWord_of_ne hw _ _ _ x hx.1 hx.2.1 hx.2.2.1 hx.2.2.2
  · exact .of_mem_eq hw rfl _
  · trivial

theorem InBlock.head {a : Word} {n : Nat} {x : Word} (h : InWord a x) : InBlock a (n + 1) x :=
  ⟨0, by omega, by simpa using h⟩

theorem InBlock.tail {a : Word} {n : Nat} {x : Word} (h : InBlock (a + 4) n x) : InBlock a (n + 1) x := by
  obtain ⟨k, hk, hx⟩ := h
  exact ⟨k + 1, by omega, by rw [wordAddr_succ]; exact hx⟩

/-- A copy of words to rising addresses changes only the bytes of the destination block. -/
theorem copyWords_stays (n : Nat) (src dst : Word) {s : State} (hw : s.mem.wf = true) :
    (copyWords 4 n src dst s).After fun t => s.MemStays (InBlock dst n) t := by
  induction n generalizing src dst s with
  | zero => exact .of_mem_eq hw rfl _
  | succ n ih =>
    unfold copyWords
    refine (memRead_stays hw (InBlock dst (n + 1)) src).andThen (fun t h => h) fun v t ht => ?_
    refine (memWrite_stays ht.1 dst v).andThen (fun u h => ht.trans (h.mono fun x => InBlock.head)) fun _ u hu => ?_
    refine (ih (src + 4) (dst + 4) hu.1).mono fun y h => ?_
    exact (ht.trans (hu.mono fun x => InBlock.head)).trans (h.mono fun x => InBlock.tail)

/-- A copy of words to one address changes only the four bytes there. -/
theorem copyWords_fixed_stays (n : Nat) (src dst : Word) {s : State} (hw : s.mem.wf = true) :
    (copyWords 0 n src dst s).After fun t => s.MemStays (fun x => 0 < n ∧ InWord dst x) t := by
  induction n generalizing src s with
  | zero => exact .of_mem_eq hw rfl _
  | succ n ih =>
    unfold copyWords
    refine (memRead_stays hw (fun x => 0 < n + 1 ∧ InWord dst x) src).andThen (fun t h => h) fun v t ht => ?_
    refine (memWrite_stays ht.1 dst v).andThen (fun u h => ht.trans (h.mono fun x hx => ⟨by omega, hx⟩)) fun _ u hu => ?_
    have h0 : dst + 0 = dst := by simp
    rw [h0]
    refine (ih (src + 4) hu.1).mono fun y h => ?_
    exact (ht.trans (hu.mono fun x hx => ⟨by omega, hx⟩)).trans (h.mono fun x hx => ⟨by omega, hx.2⟩)

/-- A combination of words changes only the bytes of the destination block. -/
theorem combineWords_stays (op : Word → Word → Word) (n : Nat) (src dst : Word) {s : State} (hw : s.mem.wf = true) :
    (combineWords op n src dst s).After fun t => s.MemStays (InBlock dst n) t := by
  induction n generalizing src dst s with
  | zero => exact .of_mem_eq hw rfl _
  | succ n ih =>
    unfold combineWords
    refine (memRead_stays hw (InBlock dst (n + 1)) src).andThen (fun t h => h) fun v t ht => ?_
    refine (memRead_stays ht.1 (InBlock dst (n + 1)) dst).andThen (fun t h => ht.trans h) fun w u hu => ?_
    refine (memWrite_stays hu.1 dst (op w v)).andThen
      (fun y h => (ht.trans hu).trans (h.mono fun x => InBlock.head)) fun _ y hy => ?_
    refine (ih (src + 4) (dst + 4) hy.1).mono fun z h => ?_
    exact ((ht.trans hu).trans (hy.mono fun x => InBlock.head)).trans (h.mono fun x => InBlock.tail)

/-! ## Bus errors -/

theorem State.busError_mem (s : State) (addr : Word) : (s.busError addr).mem = s.mem := rfl
theorem State.busError_trace (s : State) (addr : Word) : (s.busError addr).trace = s.trace := rfl
theorem State.busError_params (s : State) (addr : Word) : (s.busError addr).params = s.params := rfl

theorem State.slot_busError (s : State) (addr : Word) (i : SlotId) :
    (s.busError addr).slot i = if (s.slot i).state = .idle then s.slot i else (s.slot i).aborted := by
  unfold State.busError
  simp only [State.recompute_slot, State.raiseFlags_slot, State.slot_abortSlots, State.disarm_slot, bne_iff_ne]
  by_cases h : (s.slot i).state = .idle
  · simp only [h, not_true_eq_false, if_true, ne_eq, if_false]; rfl
  · simp only [h, not_false_eq_true, if_true, ne_eq, if_false]; rfl

/-- After a bus error every slot is Idle (60_exceptions.md R256). -/
theorem State.busError_idle (s : State) (addr : Word) (i : SlotId) : ((s.busError addr).slot i).state = .idle := by
  rw [State.slot_busError]
  split
  · assumption
  · rfl

end Sys2Proof.Machine
end

