-- ==== Sys2Proof/Laws/Decode.lean ====
section
/-! SUPPORT. Fields of a packed word, the code maps read both ways, and what the decoder answers, said once. -/

namespace Sys2Proof

/-- Quotient and remainder of a number written as a high and a low part. -/
theorem high_low_parts (a b k : Nat) (hb : b < 2 ^ k) : (a * 2 ^ k + b) / 2 ^ k = a ∧ (a * 2 ^ k + b) % 2 ^ k = b := by
  have hp : 0 < 2 ^ k := by positivity
  constructor
  · rw [Nat.add_comm, Nat.add_mul_div_right _ _ hp, Nat.div_eq_of_lt hb, Nat.zero_add]
  · rw [Nat.add_comm, Nat.add_mul_mod_self_right, Nat.mod_eq_of_lt hb]

/-- The fields of a packed word are the fields it was packed of, where each fits (30_encoding.md R82, R94). -/
theorem fields_of_packFields (l : Layout) (op b e f : Nat) (hl : l.legal = true) (hop : op < 2 ^ 4) (hb : b < 2 ^ l.baseWidth)
    (he : e < 2 ^ l.extWidth) (hf : f < 2 ^ l.o) :
    opcodeField (packFields l op b e f) = op ∧ baseField l (packFields l op b e f) = b ∧
    extField l (packFields l op b e f) = e ∧ offsetField l (packFields l op b e f) = f := by
  obtain ⟨o, p⟩ := l
  simp only [Layout.legal, Layout.baseWidth, Layout.extWidth, Config.opcodeLow, Bool.and_eq_true, decide_eq_true_eq] at *
  obtain ⟨h1, h2⟩ := hl
  obtain ⟨L, rfl⟩ := Nat.exists_eq_add_of_le h1
  obtain ⟨B, hB⟩ := Nat.exists_eq_add_of_le h2
  have eL : o + L - o = L := by omega
  have eB : 28 - (o + L) = B := by omega
  rw [eL] at he; rw [eB] at hb
  have hx : op * 2 ^ 28 + b * 2 ^ (o + L) + e * 2 ^ o + f = ((op * 2 ^ B + b) * 2 ^ L + e) * 2 ^ o + f := by
    have : (2:Nat) ^ 28 = 2 ^ B * 2 ^ L * 2 ^ o := by rw [← pow_add, ← pow_add]; congr 1; omega
    rw [this, pow_add]; ring
  have hlt : ((op * 2 ^ B + b) * 2 ^ L + e) * 2 ^ o + f < 2 ^ 32 := by
    have h32 : (2:Nat) ^ 32 = 2 ^ 4 * 2 ^ B * 2 ^ L * 2 ^ o := by rw [← pow_add, ← pow_add, ← pow_add]; congr 1; omega
    have s1 : op * 2 ^ B + b < 2 ^ 4 * 2 ^ B := by nlinarith [Nat.two_pow_pos B]
    have s2 : (op * 2 ^ B + b) * 2 ^ L + e < 2 ^ 4 * 2 ^ B * 2 ^ L := by nlinarith [Nat.two_pow_pos L]
    rw [h32]; nlinarith [Nat.two_pow_pos o]
  have hn : (packFields ⟨o, o + L⟩ op b e f).toNat = ((op * 2 ^ B + b) * 2 ^ L + e) * 2 ^ o + f := by
    simp only [packFields, BitVec.toNat_ofNat, Config.opcodeLow]
    rw [hx, Nat.mod_eq_of_lt hlt]
  have q1 := high_low_parts ((op * 2 ^ B + b) * 2 ^ L + e) f o hf
  have q2 := high_low_parts (op * 2 ^ B + b) e L he
  have q3 := high_low_parts op b B hb
  have d2 : (((op * 2 ^ B + b) * 2 ^ L + e) * 2 ^ o + f) / 2 ^ (o + L) = op * 2 ^ B + b := by
    rw [pow_add, ← Nat.div_div_eq_div_mul, q1.1, q2.1]
  have d3 : (((op * 2 ^ B + b) * 2 ^ L + e) * 2 ^ o + f) / 2 ^ 28 = op := by
    rw [hB, pow_add, ← Nat.div_div_eq_div_mul, d2, q3.1]
  refine ⟨?_, ?_, ?_, ?_⟩
  · simp only [opcodeField, field, hn, Config.opcodeLow, Config.opcodeWidth, d3]; exact Nat.mod_eq_of_lt hop
  · simp only [baseField, field, hn, Layout.baseWidth, Config.opcodeLow, eB, d2, q3.2]
  · simp only [extField, field, hn, Layout.extWidth, eL, q1.1, q2.2]
  · simp only [offsetField, field, hn, Nat.pow_zero, Nat.div_one, q1.2]

/-! ## OPCODE_MAP and EXT_MAP, read both ways -/

/-- The opcode of an opcode's own value. -/
theorem opcodeOf_opcodeValue {m : Config.EncodingMaps} {op : Opcode} (h : opcodeValue m op < 16) :
    opcodeOf m (opcodeValue m op) = op := by
  have hl : m.opcodes.toList.idxOf op < m.opcodes.toList.length := by rw [Vector.length_toList]; exact h
  rw [opcodeOf, opcodeValue, ← List.getD_eq_getElem _ _ hl |>.symm, List.getElem_idxOf]

/-- The value of a value's own opcode, where no opcode has two. -/
theorem opcodeValue_opcodeOf {m : Config.EncodingMaps} (hm : m.oneToOne = true) {n : Nat} (h : n < 16) :
    opcodeValue m (opcodeOf m n) = n := by
  have hl : n < m.opcodes.toList.length := by rw [Vector.length_toList]; exact h
  have hd : m.opcodes.toList.Nodup := by
    simp only [Config.EncodingMaps.oneToOne, Bool.and_eq_true, decide_eq_true_eq] at hm
    exact hm.1.1.1.1.1.1.1
  rw [opcodeOf, opcodeValue, List.getD_eq_getElem _ _ hl, List.Nodup.idxOf_getElem hd]

/-- A row that stands in the list is what its ext value selects, where no ext value stands twice. -/
theorem lookup_eq_some_of_mem {α : Type} {rows : List (Nat × α)} (h : (rows.map (·.1)).Nodup) {n : Nat} {a : α}
    (hr : (n, a) ∈ rows) : rows.lookup n = some a := by
  induction rows with
  | nil => cases hr
  | cons r rows ih =>
    obtain ⟨k, b⟩ := r
    simp only [List.map_cons, List.nodup_cons] at h
    rw [List.lookup_cons]
    rcases List.mem_cons.mp hr with he | hr
    · cases he; simp
    · have hne : n ≠ k := fun e => h.1 (e ▸ List.mem_map_of_mem (f := Prod.fst) hr)
      rw [beq_eq_false_iff_ne.mpr hne]
      exact ih h.2 hr

theorem mem_of_lookup_eq_some {α : Type} {rows : List (Nat × α)} {n : Nat} {a : α} (h : rows.lookup n = some a) :
    (n, a) ∈ rows := by
  induction rows with
  | nil => cases h
  | cons r rows ih =>
    obtain ⟨k, b⟩ := r
    rw [List.lookup_cons] at h
    split at h
    · next he => cases h; rw [beq_iff_eq] at he; subst he; exact List.mem_cons_self
    · exact List.mem_cons_of_mem _ (ih h)

theorem mem_of_codeOf_eq_some {α : Type} [DecidableEq α] {rows : List (Nat × α)} {n : Nat} {a : α} (h : codeOf rows a = some n) :
    (n, a) ∈ rows := by
  rw [codeOf, Option.map_eq_some_iff] at h
  obtain ⟨r, hr, rfl⟩ := h
  have h2 : r.2 = a := by simpa using List.find?_some hr
  rw [← h2]
  exact List.mem_of_find?_eq_some hr

/-- Where the rows are one to one, an ext value selects an alternative exactly if it is the alternative's code. -/
theorem alternativeOf_eq_some {α : Type} [DecidableEq α] {rows : List (Nat × α)} (h : rowsOneToOne rows = true) {n : Nat}
    {a : α} : alternativeOf rows n = some a ↔ codeOf rows a = some n := by
  simp only [rowsOneToOne, Bool.and_eq_true, decide_eq_true_eq] at h
  refine ⟨fun hl => ?_, fun hc => lookup_eq_some_of_mem h.1 (mem_of_codeOf_eq_some hc)⟩
  have hmem := mem_of_lookup_eq_some hl
  cases hc : codeOf rows a with
  | none =>
    rw [codeOf, Option.map_eq_none_iff, List.find?_eq_none] at hc
    exact absurd (by simp) (hc _ hmem)
  | some k =>
    have hk := mem_of_codeOf_eq_some hc
    have := List.inj_on_of_nodup_map h.2 hk hmem rfl
    cases this
    rfl

theorem requireExt_eq_ok {α : Type} {x : Option α} {mk : α → Instr} {i : Instr} :
    requireExt x mk = .ok i ↔ ∃ a, x = some a ∧ mk a = i := by
  cases x <;> simp [requireExt]

/-! ## Well-formed instructions -/

theorem Instr.extFits_iff {m : Config.EncodingMaps} {l : Layout} {i : Instr} :
    i.extFits m l = true ↔ ∃ e, i.ext m = some e ∧ e < 2 ^ l.extWidth := by
  unfold Instr.extFits
  cases i.ext m <;> simp

theorem Instr.opcodeValue_lt_of_wellFormed {m : Config.EncodingMaps} {l : Layout} {i : Instr} (h : i.wellFormed m l = true) :
    opcodeValue m i.opcode < 16 := by
  simp only [Instr.wellFormed, Bool.and_eq_true] at h
  exact of_decide_eq_true h.1

/-! ## The decoder -/

theorem opcodeField_lt (w : Word) : opcodeField w < 16 := Nat.mod_lt _ (by decide)

/-- Reserved is decoded before anything else is looked at (30_encoding.md R93). -/
theorem decode_reserved {m : Config.EncodingMaps} (l : Layout) {w : Word} (h : opcodeOf m (opcodeField w) = .reserved) :
    decode m l w = .ok (.reserved (w.setWidth 28)) := by
  rw [decode, if_pos h]

/-- A word of another opcode under a legal layout, with a base index in range (30_encoding.md R93). -/
theorem decode_of_fields {m : Config.EncodingMaps} {l : Layout} {w : Word} {b : BaseIndex}
    (h : opcodeOf m (opcodeField w) ≠ .reserved) (hl : l.legal = true) (hb : baseField l w = b.val) :
    decode m l w = instrOf m (opcodeOf m (opcodeField w)) b (extField l w) (offsetField l w) w := by
  have hlt : baseField l w < Config.numBase := hb ▸ b.isLt
  rw [decode, if_neg h, if_neg (by simp [hl]), dif_pos hlt]
  congr 1
  exact Fin.ext hb

/-- The decoder answers an instruction only for Reserved, or with every check passed (30_encoding.md R93). -/
theorem decode_eq_ok {m : Config.EncodingMaps} {l : Layout} {w : Word} {i : Instr} (h : decode m l w = .ok i) :
    (opcodeOf m (opcodeField w) = .reserved ∧ i = .reserved (w.setWidth 28)) ∨
    (opcodeOf m (opcodeField w) ≠ .reserved ∧ l.legal = true ∧ ∃ b : BaseIndex, b.val = baseField l w ∧
      instrOf m (opcodeOf m (opcodeField w)) b (extField l w) (offsetField l w) w = .ok i) := by
  by_cases hr : opcodeOf m (opcodeField w) = .reserved
  · rw [decode_reserved l hr] at h
    cases h
    exact .inl ⟨hr, rfl⟩
  · rw [decode, if_neg hr] at h
    split at h
    · cases h
    · next hl =>
      split at h
      · next hb => exact .inr ⟨hr, by simpa using hl, ⟨_, hb⟩, rfl, h⟩
      · cases h

/-- The encoding of Reserved as a number (30_encoding.md R94). -/
theorem encode_reserved_toNat {m : Config.EncodingMaps} (l : Layout) (payload : BitVec 28) (h : opcodeValue m .reserved < 16) :
    (encode m l (.reserved payload)).toNat = opcodeValue m .reserved * 2 ^ 28 + payload.toNat := by
  have hp := payload.isLt
  simp only [encode, BitVec.toNat_ofNat, Config.opcodeLow]
  exact Nat.mod_eq_of_lt (by omega)

/-- The encoding of Reserved: its opcode's value before its payload (30_encoding.md R94). -/
theorem encode_reserved {m : Config.EncodingMaps} (l : Layout) (payload : BitVec 28) (h : opcodeValue m .reserved < 16) :
    encode m l (.reserved payload) = BitVec.ofNat 4 (opcodeValue m .reserved) ++ payload := by
  apply BitVec.eq_of_toNat_eq
  rw [BitVec.toNat_append, ← Nat.shiftLeft_add_eq_or_of_lt payload.isLt, Nat.shiftLeft_eq, encode_reserved_toNat l payload h,
    BitVec.toNat_ofNat, Nat.mod_eq_of_lt h]

/-- The opcode field of the encoding of Reserved. -/
theorem opcodeField_encode_reserved {m : Config.EncodingMaps} (l : Layout) (payload : BitVec 28)
    (h : opcodeValue m .reserved < 16) : opcodeField (encode m l (.reserved payload)) = opcodeValue m .reserved := by
  have hp := payload.isLt
  rw [opcodeField, field, encode_reserved_toNat l payload h, Config.opcodeLow, Config.opcodeWidth]
  omega

end Sys2Proof
end

