-- ==== Sys2Proof/Laws/Sequencer.lean ====
section
/-! SUPPORT. What each operation of the timer, the counter and the arbiter can answer, said once. -/

namespace Sys2Proof.Machine

/-! ## A settled operation -/

/-- A settled operation leaves its state, or records its fault on the state at its start (60_exceptions.md R251). -/
theorem State.settle_eq_next {s t : State} {x : Except Raise State} (h : s.settle x = .next t) :
    x = .ok t ∨ ∃ e, x = .error e ∧ t = { s with preOutstanding := e.preOutstanding }.raiseFatal e.record := by
  cases x with
  | ok u => cases h; exact .inl rfl
  | error r => cases h; exact .inr ⟨r, rfl, rfl⟩

/-! ## Arming a delay (60_exceptions.md R264) -/

@[simp] theorem State.disarm_arm (s : State) (r : StartReason) (i : SlotId) (tb : TickSource) (n : Nat) :
    s.disarm.arm r i tb n = s.arm r i tb n := rfl

/-- The delay count is at least 1: the whole count of a relative delay, the distance to the threshold of an absolute one. -/
theorem remainingDelayTicks_eq_ok {s : State} {x : Slot} {n : Nat} (h : remainingDelayTicks s x = .ok n) :
    1 ≤ n ∧ (x.delayIsRelative = true → n = x.delayRemainingTicksOrTopValue.toNat ∨
        (x.delayRemainingTicksOrTopValue = 0 ∧ s.params.relDelayZero = .nextTick ∧ n = 1)) ∧
      (x.delayIsRelative = false → s.absoluteDelayCounter < x.delayRemainingTicksOrTopValue.toNat ∧
        n = x.delayRemainingTicksOrTopValue.toNat - s.absoluteDelayCounter) := by
  unfold remainingDelayTicks at h
  split at h
  · next hr =>
    split at h
    · next h0 =>
      split at h
      · cases h
      · next hp => cases h; exact ⟨le_rfl, fun _ => .inr ⟨h0, hp, rfl⟩, fun hf => by rw [hr] at hf; cases hf⟩
    · next h0 =>
      cases h
      refine ⟨?_, fun _ => .inl rfl, fun hf => by rw [hr] at hf; cases hf⟩
      have : x.delayRemainingTicksOrTopValue.toNat ≠ 0 := fun e => h0 (BitVec.eq_of_toNat_eq e)
      omega
  · next hr =>
    split at h
    · cases h
    · next hlt => cases h; exact ⟨by omega, fun hf => absurd hf hr, fun _ => ⟨by omega, rfl⟩⟩

/-- `ArmDelay` arms the timer for the slot, on the configured base, with the delay count. -/
theorem armDelay_eq_ok {s t : State} {i : SlotId} (h : armDelay s i = .ok t) :
    ∃ tb n, s.timeBase.source = some tb ∧ remainingDelayTicks s (s.slot i) = .ok n ∧ t = s.arm .delay i tb n := by
  unfold armDelay at h
  split at h
  · cases h
  · next tb htb =>
    split at h
    · cases h
    · next n hn => cases h; exact ⟨tb, n, htb, hn, rfl⟩

/-- The kinds of fault `ArmDelay` raises. -/
theorem armDelay_eq_error {s : State} {i : SlotId} {k : FaultKind} (h : armDelay s i = .error k) :
    k = .clockTimeBase ∨ k = .delayThresholdPassed ∨ k = .zeroRelativeDelay := by
  have key : ∀ x, remainingDelayTicks s x = .error k → k = .delayThresholdPassed ∨ k = .zeroRelativeDelay := by
    intro x hx
    unfold remainingDelayTicks at hx
    repeat' split at hx
    all_goals cases hx
    · exact .inr rfl
    · exact .inl rfl
  unfold armDelay at h
  split at h
  · cases h; exact .inl rfl
  · split at h
    · next hk => cases h; exact .inr (key _ hk)
    · cases h

theorem rearmDelay_eq_ok {s t : State} {i : SlotId} (h : rearmDelay s i = .ok t) :
    ∃ tb n, s.timeBase.source = some tb ∧ remainingDelayTicks s (s.slot i) = .ok n ∧ t = s.arm .delay i tb n := by
  unfold rearmDelay at h
  split at h
  · cases h
  · next u hu => cases h; exact armDelay_eq_ok hu

theorem rearmDelay_eq_error {s : State} {i : SlotId} {r : Raise} (h : rearmDelay s i = .error r) :
    r = Raise.ofResume s r.record.kind i ∧
      (r.record.kind = .clockTimeBase ∨ r.record.kind = .delayThresholdPassed ∨ r.record.kind = .zeroRelativeDelay) := by
  unfold rearmDelay at h
  split at h
  · next k hk => cases h; exact ⟨rfl, armDelay_eq_error hk⟩
  · cases h

/-! ## The counter (60_exceptions.md R267 to R269) -/

theorem countTick_eq_ok {s t : State} {src : TickSource} {n : Nat} (h : countTick s src n = .ok t) :
    (s.timeBase.source = some src ∧ s.absoluteDelayCounter + n ≤ s.params.absCounterLimit ∧
      t = { s with absoluteDelayCounter := s.absoluteDelayCounter + n }) ∨ (s.timeBase.source ≠ some src ∧ t = s) := by
  unfold countTick at h
  split at h
  · split at h
    · cases h; exact .inl ⟨‹_›, ‹_›, rfl⟩
    · cases h
  · cases h; exact .inr ⟨‹_›, rfl⟩

theorem countTick_eq_error {s : State} {src : TickSource} {n : Nat} {r : Raise} (h : countTick s src n = .error r) :
    r = Raise.ofSlot s .counterOverflow s.activeSlot ∧ s.timeBase.source = some src ∧
      s.params.absCounterLimit < s.absoluteDelayCounter + n := by
  unfold countTick at h
  split at h
  · split at h
    · cases h
    · next hb hn => cases h; exact ⟨rfl, hb, by omega⟩
  · cases h

/-- The counter is zero; the active slot's absolute Delay is armed against it, if it is in one (R268). -/
theorem zeroAndRestart_eq_ok {s t : State} (h : zeroAndRestart s = .ok t) :
    (t = { s with absoluteDelayCounter := 0 } ∧
      ∀ a, s.activeSlot = some a → ¬((s.slot a).state = .inDelay ∧ (s.slot a).delayIsRelative = false)) ∨
    ∃ a tb, s.activeSlot = some a ∧ (s.slot a).state = .inDelay ∧ (s.slot a).delayIsRelative = false ∧
      s.timeBase.source = some tb ∧ 1 ≤ (s.slot a).delayRemainingTicksOrTopValue.toNat ∧
      t = { s with absoluteDelayCounter := 0 }.arm .delay a tb (s.slot a).delayRemainingTicksOrTopValue.toNat := by
  have e : ({ s with absoluteDelayCounter := 0 } : State).activeSlot = s.activeSlot := rfl
  simp only [zeroAndRestart, e] at h
  cases ha : s.activeSlot with
  | none => rw [ha] at h; cases h; exact .inl ⟨rfl, by simp⟩
  | some a =>
    rw [ha] at h
    simp only at h
    split at h
    · next hd =>
      obtain ⟨tb, n, htb, hn, rfl⟩ := rearmDelay_eq_ok h
      obtain ⟨h1, -, h3⟩ := remainingDelayTicks_eq_ok hn
      obtain ⟨h4, rfl⟩ := h3 hd.2
      exact .inr ⟨a, tb, rfl, hd.1, hd.2, htb, h1, rfl⟩
    · next hd => cases h; exact .inl ⟨rfl, by rintro b hb; cases hb; exact hd⟩

theorem zeroAndRestart_eq_error {s : State} {r : Raise} (h : zeroAndRestart s = .error r) :
    r.record.kind = .clockTimeBase ∨ r.record.kind = .delayThresholdPassed ∨ r.record.kind = .zeroRelativeDelay := by
  have e : ({ s with absoluteDelayCounter := 0 } : State).activeSlot = s.activeSlot := rfl
  simp only [zeroAndRestart, e] at h
  split at h
  · split at h
    · exact (rearmDelay_eq_error h).2
    · cases h
  · cases h

/-- While the timer is not armed the flushed ticks only count: `resetAbsCounterUnarmed` is `ResetAbsCounter` there (log 25). -/
theorem resetAbsCounter_of_unarmed {s : State} (h : s.timer.armed = false) : resetAbsCounter s = resetAbsCounterUnarmed s := by
  unfold resetAbsCounter resetAbsCounterUnarmed tick
  simp only
  split
  · rfl
  · cases hc : countTick { s with preOutstanding := 0 } .preCountOverflow s.preOutstanding with
    | error r => rfl
    | ok u =>
      have hu : u.timer.armed = false := by
        rcases countTick_eq_ok hc with ⟨-, -, rfl⟩ | ⟨-, rfl⟩ <;> exact h
      have hd : countDown u .preCountOverflow s.preOutstanding = .ok u := by
        unfold countDown; rw [if_neg (by simp [hu])]
      simp only [hd]

/-! ## What an operation may change -/

/-- `t` is `s` but for what the timer, the counter, the arbiter and a bus error write: slot states and working fields, the
timer, the counter, the outstanding overflows, the bus-error address, the flags (which only rise) and the lines. -/
structure State.SequencerOnly (s t : State) : Prop where
  rest : t = { s with
    slots := t.slots, absoluteDelayCounter := t.absoluteDelayCounter, timer := t.timer, ifReg := t.ifReg, seqIf := t.seqIf,
    irqHost := t.irqHost, irqSeq := t.irqSeq, preOutstanding := t.preOutstanding, busErrAddr := t.busErrAddr }
  config : ∀ i, t.slot i = { s.slot i with
    state := (t.slot i).state, currentAddress := (t.slot i).currentAddress,
    delayRemainingTicksOrTopValue := (t.slot i).delayRemainingTicksOrTopValue, delayIsRelative := (t.slot i).delayIsRelative,
    waitSigPred := (t.slot i).waitSigPred, waitSigData := (t.slot i).waitSigData }
  ifRises : ∀ k, s.ifReg.getLsbD k = true → t.ifReg.getLsbD k = true
  seqIfRises : ∀ k, s.seqIf.getLsbD k = true → t.seqIf.getLsbD k = true

theorem State.SequencerOnly.refl (s : State) : s.SequencerOnly s := ⟨rfl, fun _ => rfl, fun _ h => h, fun _ h => h⟩

theorem State.SequencerOnly.trans {s t u : State} (h1 : s.SequencerOnly t) (h2 : t.SequencerOnly u) : s.SequencerOnly u where
  rest := by rw [h2.rest, h1.rest]
  config i := by rw [h2.config i, h1.config i]
  ifRises k h := h2.ifRises k (h1.ifRises k h)
  seqIfRises k h := h2.seqIfRises k (h1.seqIfRises k h)

/-- An update of one slot record that keeps its configuration. -/
theorem State.SequencerOnly.updateSlot (s : State) (i : SlotId) {f : Slot → Slot}
    (hf : ∀ x, f x = { x with
      state := (f x).state, currentAddress := (f x).currentAddress,
      delayRemainingTicksOrTopValue := (f x).delayRemainingTicksOrTopValue, delayIsRelative := (f x).delayIsRelative,
      waitSigPred := (f x).waitSigPred, waitSigData := (f x).waitSigData }) : s.SequencerOnly (s.updateSlot i f) where
  rest := rfl
  config j := by
    rw [State.slot_updateSlot]
    split
    · next h => subst h; exact hf _
    · rfl
  ifRises _ h := h
  seqIfRises _ h := h

/-- An update of every slot record that keeps their configuration. -/
theorem State.SequencerOnly.mapSlots (s : State) {f : SlotId → Slot → Slot}
    (hf : ∀ i x, f i x = { x with
      state := (f i x).state, currentAddress := (f i x).currentAddress,
      delayRemainingTicksOrTopValue := (f i x).delayRemainingTicksOrTopValue, delayIsRelative := (f i x).delayIsRelative,
      waitSigPred := (f i x).waitSigPred, waitSigData := (f i x).waitSigData }) : s.SequencerOnly (s.mapSlots f) where
  rest := rfl
  config j := by rw [State.slot_mapSlots]; exact hf j _
  ifRises _ h := h
  seqIfRises _ h := h

theorem State.SequencerOnly.timer (s : State) (x : Timer) : s.SequencerOnly { s with timer := x } :=
  ⟨rfl, fun _ => rfl, fun _ h => h, fun _ h => h⟩
theorem State.SequencerOnly.arm (s : State) (r : StartReason) (i : SlotId) (tb : TickSource) (n : Nat) :
    s.SequencerOnly (s.arm r i tb n) := .timer s _
theorem State.SequencerOnly.disarm (s : State) : s.SequencerOnly s.disarm := .timer s _
theorem State.SequencerOnly.counter (s : State) (n : Nat) : s.SequencerOnly { s with absoluteDelayCounter := n } :=
  ⟨rfl, fun _ => rfl, fun _ h => h, fun _ h => h⟩
theorem State.SequencerOnly.preOutstanding (s : State) (n : Nat) : s.SequencerOnly { s with preOutstanding := n } :=
  ⟨rfl, fun _ => rfl, fun _ h => h, fun _ h => h⟩
theorem State.SequencerOnly.raiseFlags (s : State) (c : Conditions) : s.SequencerOnly (s.raiseFlags c).recompute :=
  ⟨rfl, fun _ => rfl, fun k h => by simp [h], fun k h => by simp [h]⟩

theorem armDelay_only {s t : State} {i : SlotId} (h : armDelay s i = .ok t) : s.SequencerOnly t := by
  obtain ⟨tb, n, -, -, rfl⟩ := armDelay_eq_ok h; exact .arm ..

theorem rearmDelay_only {s t : State} {i : SlotId} (h : rearmDelay s i = .ok t) : s.SequencerOnly t := by
  obtain ⟨tb, n, -, -, rfl⟩ := rearmDelay_eq_ok h; exact .arm ..

theorem countTick_only {s t : State} {src : TickSource} {n : Nat} (h : countTick s src n = .ok t) : s.SequencerOnly t := by
  rcases countTick_eq_ok h with ⟨-, -, rfl⟩ | ⟨-, rfl⟩
  · exact .counter ..
  · exact .refl _

theorem zeroAndRestart_only {s t : State} (h : zeroAndRestart s = .ok t) : s.SequencerOnly t := by
  rcases zeroAndRestart_eq_ok h with ⟨rfl, -⟩ | ⟨a, tb, -, -, -, -, -, rfl⟩
  · exact .counter ..
  · exact (State.SequencerOnly.counter s 0).trans (.arm ..)

theorem resetAbsCounterUnarmed_only {s t : State} (h : resetAbsCounterUnarmed s = .ok t) : s.SequencerOnly t := by
  unfold resetAbsCounterUnarmed at h
  simp only at h
  split at h
  · exact (State.SequencerOnly.preOutstanding s 0).trans (zeroAndRestart_only h)
  · split at h
    · cases h
    · next u hu =>
      exact ((State.SequencerOnly.preOutstanding s 0).trans (countTick_only hu)).trans (zeroAndRestart_only h)

theorem postStartAtExpiry_only {s t : State} {i : SlotId} (h : postStartAtExpiry s i = .ok t) : s.SequencerOnly t := by
  unfold postStartAtExpiry at h
  split at h
  · cases h
  · split at h
    · cases h; exact .refl _
    · exact resetAbsCounterUnarmed_only h

theorem expireDelay_only {s t : State} {i : SlotId} (h : expireDelay s i = .ok t) : s.SequencerOnly t := by
  unfold expireDelay at h
  split at h
  · cases h
  · split at h
    · exact rearmDelay_only h
    · cases h; exact .updateSlot s i fun _ => rfl

theorem expirePollRetry_only {s t : State} {i : SlotId} (h : expirePollRetry s i = .ok t) : s.SequencerOnly t := by
  unfold expirePollRetry at h
  split at h
  · cases h
  · cases h; exact .updateSlot s i fun _ => rfl

theorem expire_only {s t : State} (h : expire s = .ok t) : s.SequencerOnly t := by
  refine (State.SequencerOnly.disarm s).trans ?_
  unfold expire at h
  split at h
  · exact postStartAtExpiry_only h
  · exact expireDelay_only h
  · exact expirePollRetry_only h

/-- A countdown that concerns the timer leaves it lower, or expires it; another changes nothing (60_exceptions.md R261). -/
theorem countDown_eq_ok {s t : State} {src : TickSource} {n : Nat} (h : countDown s src n = .ok t) :
    t = s ∨ (s.timer.armed = true ∧ s.timer.tb = src ∧
      ((n < s.timer.remaining ∧ t = { s with timer := { s.timer with remaining := s.timer.remaining - n } }) ∨
        (s.timer.remaining ≤ n ∧ expire { s with timer := { s.timer with remaining := 0 } } = .ok t))) := by
  unfold countDown at h
  split at h
  · next hc =>
    simp only at h
    refine .inr ⟨hc.1, hc.2.1, ?_⟩
    split at h
    · next h0 => rw [h0] at h; exact .inr ⟨by omega, h⟩
    · cases h; exact .inl ⟨by omega, rfl⟩
  · cases h; exact .inl rfl

theorem countDown_only {s t : State} {src : TickSource} {n : Nat} (h : countDown s src n = .ok t) : s.SequencerOnly t := by
  rcases countDown_eq_ok h with rfl | ⟨-, -, ⟨-, rfl⟩ | ⟨-, h⟩⟩
  · exact .refl _
  · exact .timer ..
  · exact (State.SequencerOnly.timer s _).trans (expire_only h)

theorem tick_eq_ok {s t : State} {src : TickSource} {n : Nat} (h : tick s src n = .ok t) :
    ∃ u, countTick s src n = .ok u ∧ countDown u src n = .ok t := by
  unfold tick at h
  split at h
  · cases h
  · next u hu => exact ⟨u, hu, h⟩

theorem tick_only {s t : State} {src : TickSource} {n : Nat} (h : tick s src n = .ok t) : s.SequencerOnly t := by
  obtain ⟨u, h1, h2⟩ := tick_eq_ok h
  exact (countTick_only h1).trans (countDown_only h2)

/-- A counter reset flushes one tick if overflows are outstanding, then zeroes and restarts (60_exceptions.md R268). -/
theorem resetAbsCounter_eq_ok {s t : State} (h : resetAbsCounter s = .ok t) :
    (s.preOutstanding = 0 ∧ zeroAndRestart { s with preOutstanding := 0 } = .ok t) ∨
    (s.preOutstanding ≠ 0 ∧
      ∃ u, tick { s with preOutstanding := 0 } .preCountOverflow s.preOutstanding = .ok u ∧ zeroAndRestart u = .ok t) := by
  unfold resetAbsCounter at h
  simp only at h
  split at h
  · exact .inl ⟨‹_›, h⟩
  · next hn =>
    split at h
    · cases h
    · next u hu => exact .inr ⟨hn, u, hu, h⟩

theorem resetAbsCounter_only {s t : State} (h : resetAbsCounter s = .ok t) : s.SequencerOnly t := by
  rcases resetAbsCounter_eq_ok h with ⟨-, h⟩ | ⟨-, u, h1, h2⟩
  · exact (State.SequencerOnly.preOutstanding s 0).trans (zeroAndRestart_only h)
  · exact ((State.SequencerOnly.preOutstanding s 0).trans (tick_only h1)).trans (zeroAndRestart_only h2)

theorem startDeferred_only (s : State) (i : SlotId) : s.SequencerOnly (startDeferred s i) :=
  (State.SequencerOnly.updateSlot s i (f := Slot.started) fun _ => rfl).trans (.arm ..)

theorem start_only {s t : State} {i : SlotId} {deferred : Bool} (h : start s i deferred = .ok t) : s.SequencerOnly t := by
  unfold start postStart at h
  split at h
  · cases h; exact startDeferred_only s i
  · refine (State.SequencerOnly.updateSlot s i (f := Slot.started) fun _ => rfl).trans ?_
    split at h
    · cases h
    · split at h
      · cases h; exact .refl _
      · exact resetAbsCounter_only h

theorem makePending_only (s : State) (m : SlotMask) : s.SequencerOnly (s.makePending m) :=
  .mapSlots s fun i x => by split <;> rfl

/-- The arbiter: with no slot active the lowest of a mask starts and the others become Pending; otherwise all become Pending
(45_sequencer.md R214). -/
theorem arbitrate_eq_ok {s t : State} {m : SlotMask} {deferred : Bool} (h : arbitrate s m deferred = .ok t) :
    (∃ i0, s.activeSlot = none ∧ lowest (inMask m) = some i0 ∧
      start (s.makePending (m &&& ~~~(1#8 <<< i0.val))) i0 deferred = .ok t) ∨
    ((s.activeSlot = none → m = 0) ∧ t = s.makePending m) := by
  unfold arbitrate at h
  split at h
  · next i0 h1 h2 => exact .inl ⟨i0, h1, h2, h⟩
  · next hn =>
    cases h
    refine .inr ⟨fun ha => ?_, rfl⟩
    cases hl : lowest (inMask m) with
    | none => exact slotMask_eq_zero.mpr (lowest_eq_none.mp hl)
    | some i0 => exact absurd hl (hn i0 ha)

theorem arbitrate_only {s t : State} {m : SlotMask} {deferred : Bool} (h : arbitrate s m deferred = .ok t) :
    s.SequencerOnly t := by
  rcases arbitrate_eq_ok h with ⟨i0, -, -, h⟩ | ⟨-, rfl⟩
  · exact (makePending_only s _).trans (start_only h)
  · exact makePending_only s m

/-- A request that answers did nothing, or arbitrated a mask of Idle slots (45_sequencer.md R214). -/
theorem requestStart_eq_ok {s t : State} {m : SlotMask} {deferred : Bool} (h : requestStart s m deferred = .ok t) :
    t = s ∨ ∃ m', (∀ i, inMask m' i = true → inMask m i = true ∧ (s.slot i).state = .idle) ∧ arbitrate s m' deferred = .ok t := by
  have key : requestIdle s m deferred = .ok t →
      t = s ∨ ∃ m', (∀ i, inMask m' i = true → inMask m i = true ∧ (s.slot i).state = .idle) ∧
        arbitrate s m' deferred = .ok t := by
    intro h
    unfold requestIdle at h
    split at h
    · next hl =>
      refine .inr ⟨m, fun i hi => ⟨hi, ?_⟩, h⟩
      have := lowest_eq_none.mp hl i
      simpa [notIdleIn, hi] using this
    · split at h
      · cases h
      · split at h
        · cases h; exact .inl rfl
        · refine .inr ⟨_, fun i hi => ?_, h⟩
          rw [inMask_and_not, notIdleIn, inMask_maskOf] at hi
          simp only [Bool.and_eq_true, Bool.not_eq_true', Bool.and_eq_false_imp, bne_eq_false_iff_eq] at hi
          exact ⟨hi.1, hi.2 hi.1⟩
  unfold requestStart at h
  split at h
  · cases h; exact .inl rfl
  · split at h
    · exact key h
    · split at h
      · cases h
      · cases h; exact .inl rfl
      · exact key h

theorem requestStart_only {s t : State} {m : SlotMask} {deferred : Bool} (h : requestStart s m deferred = .ok t) :
    s.SequencerOnly t := by
  rcases requestStart_eq_ok h with rfl | ⟨m', -, h⟩
  · exact .refl _
  · exact arbitrate_only h

theorem dispatch_only (s : State) : s.SequencerOnly (dispatch s) := by
  unfold dispatch
  split
  · exact startDeferred_only s _
  · exact .refl _

theorem complete_only (s : State) (a : SlotId) : s.SequencerOnly (complete s a) :=
  ((State.SequencerOnly.updateSlot s a fun _ => rfl).trans (.raiseFlags ..)).trans (dispatch_only _)

theorem abortOnly_only (s : State) (m : SlotMask) : s.SequencerOnly (abortOnly s m) := by
  have h1 : s.SequencerOnly (if abortHits s m then s.disarm else s) := by
    split
    · exact .disarm s
    · exact .refl s
  have h2 := h1.trans (.mapSlots _ (f := fun i x => if abortTargets s m i then x.aborted else x) fun i x => by split <;> rfl)
  unfold abortOnly
  simp only
  split
  · exact h2.trans (.raiseFlags ..)
  · exact h2

theorem abort_only (s : State) (m : SlotMask) : s.SequencerOnly (abort s m) := by
  unfold abort
  split
  · exact (abortOnly_only s m).trans (dispatch_only _)
  · exact abortOnly_only s m

end Sys2Proof.Machine
end

