-- ==== Sys2Proof/Laws/Step.lean ====
section
/-! SUPPORT. The step: whose turn it takes, and the executor's turn as fetch, decode and `exec`. -/

namespace Sys2Proof.Machine

theorem step_of_fault {s : State} {r : FaultRecord} (h : s.fault = some r) : step s = .fault (.faultState r) := by
  unfold step; rw [h]

theorem step_of_no_fault {s : State} (h : s.fault = none) : step s = takeTurn (nextTurn s).1 s.turnStart := by
  unfold step; rw [h]; rfl

/-- A step that answers a next state took a turn from a state without a fault. -/
theorem step_eq_next {s t : State} (h : step s = .next t) :
    s.fault = none ∧ takeTurn (nextTurn s).1 s.turnStart = .next t := by
  cases hf : s.fault with
  | some r => rw [step_of_fault hf] at h; cases h
  | none => exact ⟨rfl, by rw [← step_of_no_fault hf]; exact h⟩

@[simp] theorem State.turnStart_executor (s : State) : s.turnStart.executor = s.executor := rfl
@[simp] theorem State.turnStart_pc (s : State) (a : SlotId) : s.turnStart.pc a = s.pc a := rfl
@[simp] theorem State.turnStart_slot (s : State) (i : SlotId) : s.turnStart.slot i = s.slot i := rfl
@[simp] theorem State.turnStart_busRead (s : State) (addr : Word) : s.turnStart.busRead addr = s.busRead addr := rfl
@[simp] theorem State.turnStart_params (s : State) : s.turnStart.params = s.params := rfl
@[simp] theorem State.turnStart_layout (s : State) : s.turnStart.layout = s.layout := rfl

/-- The executor's turn: fetch, decode, run (40_execution_cycle.md R116). -/
theorem step_executor {s : State} {a : SlotId} (h : s.ExecutorMoves a) :
    step s = (fetch s.turnStart a).outcome fun w t => decodeAndExec a w t := by
  rw [step_of_no_fault (State.executor_eq_some.mp h.1).2.1, h.2]
  have h2 : s.turnStart.executor = some a := h.1
  simp only [takeTurn, executorStep, h2]

theorem step_executor_fetched {s : State} {a : SlotId} {w : Word} (h : s.ExecutorMoves a)
    (hb : s.busRead (s.pc a) = .value w) :
    step s = decodeAndExec a w (s.turnStart.logAccess (.read (s.pc a) (some w))) := by
  have hf : fetch s.turnStart a = .done w (s.turnStart.logAccess (.read (s.pc a) (some w))) :=
    memRead_of_value (s := s.turnStart) (addr := s.pc a) hb
  rw [step_executor h, hf]
  rfl

/-- What the executor's turn can answer as a next state: it is not enabled and changes nothing; the fetch is a bus error; the
word decodes to nothing; or the instruction answers. -/
theorem executorStep_eq_next {s t : State} (h : executorStep s = .next t) :
    (s.executor = none ∧ t = s) ∨
    ∃ a, s.executor = some a ∧
      ((s.busRead (s.pc a) = .error ∧ t = (s.logAccess (.read (s.pc a) none)).busError (s.pc a)) ∨
      ∃ w, s.busRead (s.pc a) = .value w ∧
        ((∃ r, decode s.params.maps s.layout w = .error r ∧ t = (s.logAccess (.read (s.pc a) (some w))).raiseFatal
            (FaultRecord.ofInstr (decodeFaultKind r) a (s.pc a) w)) ∨
        ∃ i, decode s.params.maps s.layout w = .ok i ∧ exec i (s.logAccess (.read (s.pc a) (some w))) = .next t)) := by
  unfold executorStep at h
  cases he : s.executor with
  | none => rw [he] at h; cases h; exact .inl ⟨rfl, rfl⟩
  | some a =>
    rw [he] at h
    refine .inr ⟨a, rfl, ?_⟩
    simp only [fetch] at h
    cases hb : s.busRead (s.pc a) with
    | error => rw [memRead_of_error hb] at h; cases h; exact .inl ⟨rfl, rfl⟩
    | noMeaning r => simp only [memRead, hb] at h; cases h
    | value w =>
      rw [memRead_of_value hb] at h
      refine .inr ⟨w, rfl, ?_⟩
      simp only [Access.done_outcome, decodeAndExec, State.logAccess_layout, State.logAccess_params] at h
      cases hd : decode s.params.maps s.layout w with
      | error r => rw [hd] at h; cases h; exact .inl ⟨r, rfl, rfl⟩
      | ok i => rw [hd] at h; exact .inr ⟨i, rfl, h⟩

end Sys2Proof.Machine
end

