-- ==== Sys2Proof/Laws/Exec.lean ====
section
/-! SUPPORT. What an instruction may change, said once for all of them. -/

namespace Sys2Proof.Machine

theorem busError_only (s : State) (addr : Word) : s.SequencerOnly (s.busError addr) := by
  have h0 : s.SequencerOnly { s with busErrAddr := addr } := ⟨rfl, fun _ => rfl, fun _ h => h, fun _ h => h⟩
  refine ((h0.trans (.disarm _)).trans (.mapSlots _ (f := fun i x => if (s.slot i).state != SlotState.idle then x.aborted else x)
    fun i x => ?_)).trans (.raiseFlags ..)
  split <;> rfl

/-- After its accesses an instruction changes what the sequencer's operations change, or records a fault, or (SetTrig) writes
the trigger bitmask. -/
inductive ExecEffect (i : Instr) (u t : State) : Prop where
  | sequencer (h : u.SequencerOnly t)
  | fault (r : FaultRecord) (h : t = u.raiseFatal r)
  | trigger (op : TrigOp) (base : BaseIndex) (offset : Nat) (hi : i = .setTrig op base offset) (v : Word)
      (h : State.SequencerOnly { u with triggerBitmask := v } t)

theorem continueAt_only {s t : State} {a : SlotId} {next : Word} (h : s.continueAt a next = .next t) : s.SequencerOnly t := by
  cases h; exact .updateSlot s a fun _ => rfl

theorem execEffect_of_outcome {α : Type} {i : Instr} {s t : State} {x : Access α} {k : α → State → Outcome}
    (hx : x.After fun u => s.BusOnly u) (hk : ∀ v u, s.BusOnly u → k v u = .next t → ExecEffect i u t)
    (h : x.outcome k = .next t) : ∃ u, s.BusOnly u ∧ ExecEffect i u t := by
  rcases hx.outcome_next h with ⟨v, u, -, hu, h⟩ | ⟨addr, u, hu, rfl⟩
  · exact ⟨u, hu, hk v u hu h⟩
  · exact ⟨u, hu, .sequencer (busError_only u addr)⟩

theorem memRead_only (s : State) (addr : Word) : (memRead s addr).After fun t => s.BusOnly t :=
  (memRead_after s addr).mono fun _ h => h.1

/-- What `exec` may change, for all sixteen instructions. -/
theorem exec_effect {s t : State} {i : Instr} (h : exec i s = .next t) : ∃ u, s.BusOnly u ∧ ExecEffect i u t := by
  cases i with
  | write base offset n =>
    obtain ⟨a, -, h⟩ := State.onExecutor_next h
    exact execEffect_of_outcome (copyWords_after ..) (fun _ _ _ h => .sequencer (continueAt_only h)) h
  | writeNoInc base offset n =>
    obtain ⟨a, -, h⟩ := State.onExecutor_next h
    exact execEffect_of_outcome (copyWords_after ..) (fun _ _ _ h => .sequencer (continueAt_only h)) h
  | movNoInc base offset n =>
    obtain ⟨a, -, h⟩ := State.onExecutor_next h
    exact execEffect_of_outcome (copyWords_after ..) (fun _ _ _ h => .sequencer (continueAt_only h)) h
  | mov base offset n =>
    obtain ⟨a, -, h⟩ := State.onExecutor_next h
    refine execEffect_of_outcome ?_ (fun _ _ _ h => .sequencer (continueAt_only h)) h
    split <;> exact copyWords_after ..
  | moveBlock base offset n =>
    obtain ⟨a, -, h⟩ := State.onExecutor_next h
    refine execEffect_of_outcome ?_ (fun _ _ _ h => .sequencer (continueAt_only h)) h
    refine (memRead_only s _).andThen (fun _ h => h) fun v u hu => ?_
    split <;> exact (copyWords_after ..).mono fun _ h => hu.trans h
  | and base offset n =>
    obtain ⟨a, -, h⟩ := State.onExecutor_next h
    exact execEffect_of_outcome (combineWords_after ..) (fun _ _ _ h => .sequencer (continueAt_only h)) h
  | xor base offset n =>
    obtain ⟨a, -, h⟩ := State.onExecutor_next h
    exact execEffect_of_outcome (combineWords_after ..) (fun _ _ _ h => .sequencer (continueAt_only h)) h
  | or base offset n =>
    obtain ⟨a, -, h⟩ := State.onExecutor_next h
    exact execEffect_of_outcome (combineWords_after ..) (fun _ _ _ h => .sequencer (continueAt_only h)) h
  | delay mode base offset =>
    obtain ⟨a, -, h⟩ := State.onExecutor_next h
    refine execEffect_of_outcome (memRead_only ..) (fun v u _ h => ?_) h
    split at h
    · next w hw =>
      cases h
      exact .sequencer ((State.SequencerOnly.updateSlot u a (f := fun x => x.delayed (s.pc a) v mode) fun _ => rfl).trans
        (armDelay_only hw))
    · cases h; exact .fault _ rfl
  | waitForReg p base offset =>
    obtain ⟨a, -, h⟩ := State.onExecutor_next h
    refine execEffect_of_outcome ?_ (fun v u _ h => ?_) h
    · refine (memRead_only s _).andThen (fun _ h => h) fun v t ht => ?_
      exact (memRead_only t _).andThen (fun _ h => ht.trans h) fun w u hu => ht.trans hu
    · split at h
      · exact .sequencer (continueAt_only h)
      · cases h
        exact .sequencer ((State.SequencerOnly.updateSlot u a fun _ => rfl).trans (.arm ..))
  | waitForSig p base offset =>
    obtain ⟨a, -, h⟩ := State.onExecutor_next h
    refine execEffect_of_outcome (memRead_only ..) (fun v u _ h => ?_) h
    split at h
    · exact .sequencer (continueAt_only h)
    · cases h; exact .sequencer (.updateSlot u a fun _ => rfl)
  | jump mode base offset =>
    obtain ⟨a, -, h⟩ := State.onExecutor_next h
    exact execEffect_of_outcome (memRead_only ..) (fun _ _ _ h => .sequencer (continueAt_only h)) h
  | setTrig op base offset =>
    obtain ⟨a, -, h⟩ := State.onExecutor_next h
    exact execEffect_of_outcome (memRead_only ..) (fun _ _ _ h => .trigger op base offset rfl _ (continueAt_only h)) h
  | skipCond cond base offset =>
    obtain ⟨a, -, h⟩ := State.onExecutor_next h
    refine execEffect_of_outcome ?_ (fun _ _ _ h => .sequencer (continueAt_only h)) h
    cases cond with
    | reg p =>
      refine (memRead_only s _).andThen (fun _ h => h) fun v t ht => ?_
      exact (memRead_only t _).andThen (fun _ h => ht.trans h) fun w u hu => ht.trans hu
    | sig p => exact (memRead_only s _).andThen (fun _ h => h) fun v t ht => ht
  | endSeqOrNop op base offset =>
    obtain ⟨a, -, h⟩ := State.onExecutor_next h
    cases op with
    | nop => exact ⟨s, .refl s, .sequencer (continueAt_only h)⟩
    | endSeq => cases h; exact ⟨s, .refl s, .sequencer (complete_only s a)⟩
  | reserved payload =>
    obtain ⟨a, -, h⟩ := State.onExecutor_next h
    cases h; exact ⟨s, .refl s, .fault _ rfl⟩

end Sys2Proof.Machine
end

