-- ==== Sys2Proof/Laws/PerInstr.lean ====
section
/-! SUPPORT. What holds of every instruction as syntax, one lemma per constructor. -/

namespace Sys2Proof

/-- Bits 31:28 of a well-formed instruction's word are its opcode's value (30_encoding.md R81, R87). -/
def Laws.OpcodeBits.Statement (i : Instr) : Prop :=
  ∀ (m : Config.EncodingMaps) (l : Layout), i.wellFormed m l = true → opcodeField (encode m l i) = opcodeValue m i.opcode

/-- The packed instructions: a well-formed instruction other than Reserved passes every check. -/
theorem opcodeBits_of_checks {m : Config.EncodingMaps} {l : Layout} {i : Instr}
    (h : (i.opcodeAssigned m && (l.legal && i.offsetFits l && i.extFits m l && i.baseFits l)) = true) :
    opcodeField (packFields l (opcodeValue m i.opcode) i.base ((i.ext m).getD 0) i.offset) = opcodeValue m i.opcode := by
  simp only [Bool.and_eq_true] at h
  obtain ⟨ho, ⟨⟨hl, hf⟩, he⟩, hb⟩ := h
  obtain ⟨e, h1, h2⟩ := Instr.extFits_iff.mp he
  rw [h1, Option.getD_some]
  exact (fields_of_packFields l _ _ _ _ hl (of_decide_eq_true ho) (of_decide_eq_true hb) h2 (of_decide_eq_true hf)).1

theorem Laws.OpcodeBits.write (base : BaseIndex) (offset length : Nat) :
    Laws.OpcodeBits.Statement (.write base offset length) := fun _ _ h => opcodeBits_of_checks h
theorem Laws.OpcodeBits.writeNoInc (base : BaseIndex) (offset length : Nat) :
    Laws.OpcodeBits.Statement (.writeNoInc base offset length) := fun _ _ h => opcodeBits_of_checks h
theorem Laws.OpcodeBits.mov (base : BaseIndex) (offset length : Nat) :
    Laws.OpcodeBits.Statement (.mov base offset length) := fun _ _ h => opcodeBits_of_checks h
theorem Laws.OpcodeBits.movNoInc (base : BaseIndex) (offset length : Nat) :
    Laws.OpcodeBits.Statement (.movNoInc base offset length) := fun _ _ h => opcodeBits_of_checks h
theorem Laws.OpcodeBits.moveBlock (base : BaseIndex) (offset length : Nat) :
    Laws.OpcodeBits.Statement (.moveBlock base offset length) := fun _ _ h => opcodeBits_of_checks h
theorem Laws.OpcodeBits.and (base : BaseIndex) (offset length : Nat) :
    Laws.OpcodeBits.Statement (.and base offset length) := fun _ _ h => opcodeBits_of_checks h
theorem Laws.OpcodeBits.xor (base : BaseIndex) (offset length : Nat) :
    Laws.OpcodeBits.Statement (.xor base offset length) := fun _ _ h => opcodeBits_of_checks h
theorem Laws.OpcodeBits.or (base : BaseIndex) (offset length : Nat) :
    Laws.OpcodeBits.Statement (.or base offset length) := fun _ _ h => opcodeBits_of_checks h
theorem Laws.OpcodeBits.delay (mode : DelayMode) (base : BaseIndex) (offset : Nat) :
    Laws.OpcodeBits.Statement (.delay mode base offset) := fun _ _ h => opcodeBits_of_checks h
theorem Laws.OpcodeBits.waitForReg (pred : Predicate) (base : BaseIndex) (offset : Nat) :
    Laws.OpcodeBits.Statement (.waitForReg pred base offset) := fun _ _ h => opcodeBits_of_checks h
theorem Laws.OpcodeBits.waitForSig (pred : Predicate) (base : BaseIndex) (offset : Nat) :
    Laws.OpcodeBits.Statement (.waitForSig pred base offset) := fun _ _ h => opcodeBits_of_checks h
theorem Laws.OpcodeBits.jump (mode : JumpMode) (base : BaseIndex) (offset : Nat) :
    Laws.OpcodeBits.Statement (.jump mode base offset) := fun _ _ h => opcodeBits_of_checks h
theorem Laws.OpcodeBits.setTrig (op : TrigOp) (base : BaseIndex) (offset : Nat) :
    Laws.OpcodeBits.Statement (.setTrig op base offset) := fun _ _ h => opcodeBits_of_checks h
theorem Laws.OpcodeBits.skipCond (cond : SkipCondition) (base : BaseIndex) (offset : Nat) :
    Laws.OpcodeBits.Statement (.skipCond cond base offset) := fun _ _ h => opcodeBits_of_checks h
theorem Laws.OpcodeBits.endSeqOrNop (op : EndOp) (base : BaseIndex) (offset : Nat) :
    Laws.OpcodeBits.Statement (.endSeqOrNop op base offset) := fun _ _ h => opcodeBits_of_checks h
theorem Laws.OpcodeBits.reserved (payload : BitVec 28) : Laws.OpcodeBits.Statement (.reserved payload) :=
  fun _ l h => opcodeField_encode_reserved l payload (Instr.opcodeValue_lt_of_wellFormed h)

end Sys2Proof
end

