-- ==== Sys2Proof/Laws/Turn.lean ====
section
/-! SUPPORT. What a turn of any agent can do to the state, said once. -/

namespace Sys2Proof.Machine

/-- A command write changes what the sequencer's operations change (45_sequencer.md R235). -/
theorem hostWriteCmd_only {s t : State} {v} (h : hostWriteCmd s v = .ok t) : s.SequencerOnly t := by
  unfold hostWriteCmd at h
  simp only at h
  have h1 : s.SequencerOnly (if v.extractLsb' 8 8 = 0 then s else abort s (v.extractLsb' 8 8)) := by
    split
    · exact .refl s
    · exact abort_only s _
  refine h1.trans ?_
  generalize (if v.extractLsb' 8 8 = 0 then s else abort s (v.extractLsb' 8 8)) = s1 at *
  unfold Except.andThenState at h
  split at h
  · next u hu =>
    have h2 : s1.SequencerOnly u := by
      split at hu
      · exact resetAbsCounter_only hu
      · cases hu; exact .refl _
    refine h2.trans ?_
    split at h
    · cases h; exact .refl _
    · exact requestStart_only h
  · cases h

/-- What one turn can do to the state. -/
inductive TurnEffect (s : State) (turn : Turn) (t : State) : Prop where
  | executor (ht : turn = .executor) (h : executorStep s = .next t)
  | sequencer (ht : turn ≠ .executor) (h : s.SequencerOnly t)
  | fault (ht : turn ≠ .executor) (n : Nat) (r : FaultRecord) (h : t = { s with preOutstanding := n }.raiseFatal r)
  | hostWrite (off v : Word) (r : HostReg) (ht : turn = .hostWrite .word off v) (hr : s.regAt off = some r)
      (h : hostWriteReg s r v = .ok t)
  | hostRead (ht : turn ≠ .executor) (v : Word) (n : Nat) (h : t = { s with hostReadData := v, freeDraws := n })
  | memory (m : Memory) (ht : (∃ addr v, turn = .masterWrite addr v) ∨ ∃ addr b, turn = .masterWriteByte addr b)
      (h : t = { s with mem := m })
  | signalSet (m : Word) (ht : turn = .signalSet m) (h : t = signalSet s m)
  | signalClear (m : Word) (ht : turn = .signalClear m) (h : t = signalClear s m)
  | reset (ht : turn = .reset) (h : t = resetBlock s)

theorem takeTurn_effect {s t : State} {turn : Turn} (h : takeTurn turn s = .next t) : TurnEffect s turn t := by
  have settle : ∀ {x : Except Raise State}, turn ≠ .executor → (∀ t, x = .ok t → s.SequencerOnly t) →
      s.settle x = .next t → TurnEffect s turn t := by
    intro x hn hx hs
    rcases State.settle_eq_next hs with h | ⟨e, -, h⟩
    · exact .sequencer hn (hx _ h)
    · exact .fault hn _ _ h
  cases turn <;> simp only [takeTurn] at h
  case executor => exact .executor rfl h
  case hostRead w off =>
    unfold hostRead at h
    split at h
    · cases h
    · split at h
      · cases h; exact .hostRead (by simp) _ _ rfl
      · cases h
  case hostWrite w off v =>
    unfold hostWrite at h
    split at h
    · cases h
    · next hw =>
      split at h
      · next r hr =>
        rcases State.settle_eq_next h with h | ⟨e, -, h⟩
        · exact .hostWrite off v r (by simp at hw; rw [hw]) hr h
        · exact .fault (by simp) _ _ h
      · cases h
  case masterWrite addr v =>
    unfold masterWrite at h
    split at h <;> cases h
    · exact .memory _ (.inl ⟨_, _, rfl⟩) rfl
    · exact .sequencer (by simp) (.refl _)
  case masterWriteByte addr v =>
    unfold masterWriteByte at h
    split at h
    · cases h
    · split at h <;> cases h
      · exact .sequencer (by simp) (.refl _)
      · exact .sequencer (by simp) (.refl _)
      · exact .memory _ (.inr ⟨_, _, rfl⟩) rfl
  case preAccrue => cases h; exact .sequencer (by simp) (.preOutstanding ..)
  case preOverflow =>
    unfold preOverflow at h
    split at h
    · cases h; exact .sequencer (by simp) (.refl _)
    · exact settle (by simp) (fun t h => (State.SequencerOnly.preOutstanding s 0).trans (tick_only h)) h
  case baseOverflow n =>
    unfold tickEvent at h
    split at h
    · cases h; exact .sequencer (by simp) (.refl _)
    · exact settle (by simp) (fun t h => (tick_only h)) h
  case wrapOverflow n =>
    unfold tickEvent at h
    split at h
    · cases h; exact .sequencer (by simp) (.refl _)
    · exact settle (by simp) (fun t h => (tick_only h)) h
  case captureCompare c => exact settle (by simp) (fun t h => requestStart_only h) h
  case hwEvent c => exact settle (by simp) (fun t h => requestStart_only h) h
  case pollTick => exact settle (by simp) (fun t h => countDown_only h) h
  case timerExpire =>
    unfold timerExpire at h
    split at h
    · exact settle (by simp) (fun t h => expire_only h) h
    · cases h; exact .sequencer (by simp) (.refl _)
  case signalSet m => cases h; exact .signalSet m rfl rfl
  case signalClear m => cases h; exact .signalClear m rfl rfl
  case reset => cases h; exact .reset rfl rfl

end Sys2Proof.Machine
end

