-- ==== Sys2Proof/Tests/Slice0.lean ====
section
/-! SUPPORT. The model's own tests. Expected results are those of spec/95_test_vectors.md (named in each docstring), or written
out by hand from the encodings of 30_encoding.md. -/

namespace Sys2Proof.Tests

open Sys2Proof.Machine

/-! ## Set-up (95_test_vectors.md, common set-up) -/

/-- The common set-up: O = 16, P = 24, `baseAddress[1] = 0x40000000`, EN = 1, TIMEBASE = 1, and these words in memory. -/
def bench (words : List (Word × Word)) : State :=
  { State.reset with
    contWritePos := 16
    basePos := 24
    baseAddress := State.reset.baseAddress.set 1 0x40000000
    en := true
    timeBase := .preCountOverflow
    mem := words.foldl (fun m p => m.writeWord .little p.1 p.2) [] }

/-- The common set-up with slot `a` Running at `pc`. -/
def running (a : SlotId) (pc : Word) (words : List (Word × Word)) : State :=
  (bench words).updateSlot a fun x => { x with state := .running, currentAddress := pc }

/-- The state a step answers, or reset where it stops. -/
def after (o : Outcome) : State :=
  match o with
  | .next s => s
  | _ => State.reset

/-- A step answers a next state. -/
def isNext (o : Outcome) : Bool :=
  match o with
  | .next _ => true
  | _ => false

/-- The state after `k` steps. -/
def steps : Nat → State → State
  | 0, s => s
  | k + 1, s => steps k (after (step s))

/-- The state after these turns. -/
def turns (s : State) (ts : List Turn) : State := ts.foldl (fun t x => after (takeTurn x t)) s

/-- The word at an address. -/
def wordAt (s : State) (a : Word) : Word := s.mem.readWord .little a

/-! ## WellFormed refuses what has no encoding -/

/-- Another value of OPCODE_MAP and EXT_MAP (00_scope.md R5): Write and WriteNoInc, and the modes of Jump, change places. -/
def swapped : Config.EncodingMaps :=
  { Config.EncodingMaps.default with
    opcodes := (Config.EncodingMaps.default.opcodes.set 0 .writeNoInc).set 1 .write
    jump := [(0, .absolute), (1, .relative)] }

/-- No value of bits 31:28 stands for Write. -/
theorem test_wellFormed_refuses_opcode :
    Instr.wellFormed { Config.EncodingMaps.default with opcodes := Config.EncodingMaps.default.opcodes.set 0 .mov } ⟨16, 24⟩
      (.write 1 0x10 2) = false := by decide
/-- No ext value selects the end of sequence. -/
theorem test_wellFormed_refuses_alternative :
    Instr.wellFormed { Config.EncodingMaps.default with endSeqOrNop := [(0, .nop)] } ⟨16, 24⟩ (.endSeqOrNop .endSeq 0 0) = false := by
  decide
/-- `off < 2^O`. -/
theorem test_wellFormed_refuses_offset : Instr.wellFormed .default ⟨16, 24⟩ (.write 1 0x10000 0) = false := by decide
/-- `ext < 2^(P-O)`. -/
theorem test_wellFormed_refuses_length : Instr.wellFormed .default ⟨16, 24⟩ (.write 1 0 256) = false := by decide
/-- L = 2 is too narrow for the signal variants of SkipCond (30_encoding.md R88). -/
theorem test_wellFormed_refuses_ext : Instr.wellFormed .default ⟨16, 18⟩ (.skipCond (.sig .allSet) 1 0) = false := by decide
/-- `b < 2^(28-P)`. -/
theorem test_wellFormed_refuses_base : Instr.wellFormed .default ⟨16, 25⟩ (.mov 8 0 0) = false := by decide
/-- O > P. -/
theorem test_wellFormed_refuses_layout : Instr.wellFormed .default ⟨20, 16⟩ (.mov 0 0 0) = false := by decide
/-- P > 28. -/
theorem test_wellFormed_refuses_wide_layout : Instr.wellFormed .default ⟨16, 29⟩ (.mov 0 0 0) = false := by decide
theorem test_wellFormed_accepts : Instr.wellFormed .default ⟨16, 24⟩ (.write 1 0x10 2) = true := by decide

/-! ## Decode: every constructor's word, written out -/

theorem test_decode_write : decode .default ⟨16, 24⟩ 0x01020010 = .ok (.write 1 0x10 2) := by decide
theorem test_decode_writeNoInc : decode .default ⟨16, 24⟩ 0x11020010 = .ok (.writeNoInc 1 0x10 2) := by decide
theorem test_decode_mov : decode .default ⟨16, 24⟩ 0x21020010 = .ok (.mov 1 0x10 2) := by decide
theorem test_decode_movNoInc : decode .default ⟨16, 24⟩ 0x31020010 = .ok (.movNoInc 1 0x10 2) := by decide
theorem test_decode_moveBlock : decode .default ⟨16, 24⟩ 0x41020040 = .ok (.moveBlock 1 0x40 2) := by decide
theorem test_decode_and : decode .default ⟨16, 24⟩ 0x51010020 = .ok (.and 1 0x20 1) := by decide
theorem test_decode_xor : decode .default ⟨16, 24⟩ 0x61010020 = .ok (.xor 1 0x20 1) := by decide
theorem test_decode_or : decode .default ⟨16, 24⟩ 0x71010020 = .ok (.or 1 0x20 1) := by decide
theorem test_decode_delay : decode .default ⟨16, 24⟩ 0x80010000 = .ok (.delay .relative 0 0) := by decide
theorem test_decode_waitForReg : decode .default ⟨16, 24⟩ 0x91020020 = .ok (.waitForReg .allClear 1 0x20) := by decide
theorem test_decode_waitForSig : decode .default ⟨16, 24⟩ 0xA0010000 = .ok (.waitForSig .anySet 0 0) := by decide
theorem test_decode_jump : decode .default ⟨16, 24⟩ 0xB0010000 = .ok (.jump .absolute 0 0) := by decide
theorem test_decode_setTrig : decode .default ⟨16, 24⟩ 0xC0030000 = .ok (.setTrig .toggle 0 0) := by decide
theorem test_decode_skipCond : decode .default ⟨16, 24⟩ 0xD0090000 = .ok (.skipCond (.sig .anySet) 0 0) := by decide
theorem test_decode_endSeq : decode .default ⟨16, 24⟩ 0xE0010000 = .ok (.endSeqOrNop .endSeq 0 0) := by decide
theorem test_decode_reserved : decode .default ⟨16, 24⟩ 0xF0FF0000 = .ok (.reserved 0x0FF0000) := by decide
/-- E2: a base index of 0x1020. -/
theorem test_decode_E2 : decode .default ⟨8, 12⟩ 0x01020010 = .error .baseIndexRange := by decide
/-- E3: L = 0, so ext is 0. -/
theorem test_decode_E3 : decode .default ⟨0, 0⟩ 0xE0000001 = .ok (.endSeqOrNop .nop 1 0) := by decide
/-- E4: the whole field is offset. -/
theorem test_decode_E4 : decode .default ⟨28, 28⟩ 0x0FFFFFFF = .ok (.write 0 0x0FFFFFFF 0) := by decide
/-- E5 and E6: illegal layouts. -/
theorem test_decode_E5 : decode .default ⟨20, 16⟩ 0x01020010 = .error .badLayout := by decide
theorem test_decode_E6 : decode .default ⟨16, 29⟩ 0x01020010 = .error .badLayout := by decide
/-- E7: Reserved is checked before the layout. -/
theorem test_decode_E7 : decode .default ⟨20, 16⟩ 0xF0FF0000 = .ok (.reserved 0x0FF0000) := by decide
/-- E8 to E13: the least illegal ext value of each opcode. -/
theorem test_decode_illegal_ext :
    [0x80020000, 0x90080000, 0xA0080000, 0xB0020000, 0xC0040000, 0xD0100000, 0xE0020000].all
      (fun w => decide (decode .default ⟨16, 24⟩ w = .error .invalidExt)) = true := by decide
/-- Every row of the opcode table decodes to its own constructor. -/
theorem test_table_rows :
    (List.range 16).all (fun k => ((decodeTableWord 32 (k * 2 ^ 28)).map fun i => opcodeValue .default i.opcode) == some k) = true := by
  decide
/-- R94's formula on T7's word. -/
theorem test_encode_moveBlock : encode .default ⟨16, 24⟩ (.moveBlock 1 0x40 2) = 0x41020040 := by decide
/-- Under the other map the words of T1 and K1 stand for the other instructions, and encode them again. -/
theorem test_decode_swapped :
    decode swapped ⟨16, 24⟩ 0x01020010 = .ok (.writeNoInc 1 0x10 2) ∧ decode swapped ⟨16, 24⟩ 0xB0010000 = .ok (.jump .relative 0 0) ∧
    encode swapped ⟨16, 24⟩ (.writeNoInc 1 0x10 2) = 0x01020010 ∧ encode swapped ⟨16, 24⟩ (.jump .relative 0 0) = 0xB0010000 := by decide

/-! ## Transfer (2.2) -/

/-- T1. -/
theorem test_T1 :
    let t := steps 1 (running 0 0x20000100 [(0x20000100, 0x01020010), (0x20000104, 0xDEADBEEF), (0x20000108, 0x12345678)])
    wordAt t 0x40000010 = 0xDEADBEEF ∧ wordAt t 0x40000014 = 0x12345678 ∧ t.pc 0 = 0x2000010C := by decide
/-- T3: two writes to one address; the trace shows both. -/
theorem test_T3 :
    let t := steps 1 (running 0 0x20000100 [(0x20000100, 0x11020010), (0x20000104, 0xDEADBEEF), (0x20000108, 0x12345678)])
    wordAt t 0x40000010 = 0x12345678 ∧ wordAt t 0x40000014 = 0 ∧ t.trace.length = 5 ∧ t.pc 0 = 0x2000010C := by decide
/-- T5: Mov with MOVSWAP writes the inline area. -/
theorem test_T5 :
    let s := running 0 0x20000100 [(0x20000100, 0x21020010), (0x40000010, 0xA), (0x40000014, 0xB)]
    let t := steps 1 (s.updateSlot 0 fun x => { x with movSwapAddresses := true })
    wordAt t 0x20000104 = 0xA ∧ wordAt t 0x20000108 = 0xB ∧ t.pc 0 = 0x2000010C := by decide
/-- T6: MovNoInc ignores MOVSWAP. -/
theorem test_T6 :
    let s := running 0 0x20000100 [(0x20000100, 0x31020010), (0x20000104, 1), (0x20000108, 2)]
    let t := steps 1 (s.updateSlot 0 fun x => { x with movSwapAddresses := true })
    wordAt t 0x40000010 = 2 ∧ t.pc 0 = 0x2000010C := by decide
/-- T8: MoveBlock with MOVSWAP. -/
theorem test_T8 :
    let s := running 0 0x20000100 [(0x20000100, 0x41020040), (0x20000104, 0x20000800), (0x40000040, 5), (0x40000044, 6)]
    let t := steps 1 (s.updateSlot 0 fun x => { x with movSwapAddresses := true })
    wordAt t 0x20000800 = 5 ∧ wordAt t 0x20000804 = 6 ∧ t.pc 0 = 0x20000108 := by decide
/-- T10: overlapping ranges propagate the first word. -/
theorem test_T10 :
    let t := steps 1 (running 0 0x20000100
      [(0x20000100, 0x41030044), (0x20000104, 0x40000040), (0x40000040, 7), (0x40000044, 8), (0x40000048, 9)])
    wordAt t 0x40000044 = 7 ∧ wordAt t 0x40000048 = 7 ∧ wordAt t 0x4000004C = 7 ∧ t.pc 0 = 0x20000108 := by decide
/-- T11: a bus error at the second write keeps the first. -/
theorem test_T11 :
    let s := running 0 0x20000100 [(0x20000100, 0x01020010), (0x20000104, 0xDEADBEEF), (0x20000108, 0x12345678)]
    let t := steps 1 { s with params := { s.params with regions := [⟨0x40000014, 4, .failing false true⟩] } }
    wordAt t 0x40000010 = 0xDEADBEEF ∧ wordAt t 0x40000014 = 0 ∧ t.busErrAddr = 0x40000014 ∧ t.ifReg = 0x300 ∧
      t.seqIf = 0x300 ∧ (t.slot 0).state = .idle ∧ t.pc 0 = 0x20000100 := by decide

/-! ## Logical (2.3) -/

/-- L1. -/
theorem test_L1 :
    let t := steps 1 (running 0 0x20000200 [(0x20000200, 0x51010020), (0x20000204, 0x0F0F0F0F), (0x40000020, 0xFF00FF00)])
    wordAt t 0x40000020 = 0x0F000F00 ∧ t.pc 0 = 0x20000208 := by decide
/-- L9. -/
theorem test_L9 :
    let t := steps 1 (running 0 0x20000200
      [(0x20000200, 0x61020020), (0x20000204, 0x0F0F0F0F), (0x20000208, 3), (0x40000020, 0xFF00FF00), (0x40000024, 1)])
    wordAt t 0x40000020 = 0xF00FF00F ∧ wordAt t 0x40000024 = 2 ∧ t.pc 0 = 0x2000020C := by decide
/-- L3. -/
theorem test_L3 :
    let t := steps 1 (running 0 0x20000200 [(0x20000200, 0x71010020), (0x20000204, 0x0F0F0F0F), (0x40000020, 0xFF00FF00)])
    wordAt t 0x40000020 = 0xFF0FFF0F ∧ t.pc 0 = 0x20000208 := by decide

/-! ## Predicates (2.4) -/

/-- The four bit tests of v = 5, d = 3, and the equality tests of the first row of the mask table. -/
theorem test_predicates :
    [Predicate.allSet, .anySet, .allClear, .anyClear].map (fun p => State.reset.pred p 5 3) = [false, true, false, true] ∧
    [Predicate.eqA, .neqA, .eqB, .neqB].map
      (fun p => { State.reset with eqMaskA := 0xFF00, eqMaskB := 0xFF }.pred p 0x1234 0x12FF) = [true, false, false, true] := by
  decide

/-! ## Delay, waits and signals (2.5) -/

/-- W1: five ticks take the counter from 5 to T = 10. -/
theorem test_W1 :
    let s := steps 1 { running 2 0x20000300 [(0x20000300, 0x80000000), (0x20000304, 10)] with absoluteDelayCounter := 5 }
    let t := turns s (List.replicate 4 .preAccrue ++ [.preOverflow])
    s.timer = ⟨true, .delay, 2, .preCountOverflow, 5⟩ ∧ t.timer.armed = true ∧ (t.slot 2).state = .inDelay ∧
      (turns t [.preAccrue, .preOverflow]).slot 2 =
        { Slot.reset with state := .running, currentAddress := 0x20000308 } := by decide
/-- W4: the threshold is reached; the record, and the pc as it was. -/
theorem test_W4 :
    let s := steps 1 { running 2 0x20000300 [(0x20000300, 0x80000000), (0x20000304, 5)] with absoluteDelayCounter := 5 }
    s.fault = some ⟨.delayThresholdPassed, some 2, some 0x20000300, some 0x80000000⟩ ∧ s.pc 2 = 0x20000300 := by decide
/-- W8: the countdown keeps its base, the expiry re-arms on the new one. -/
theorem test_W8 :
    let s := steps 1 { running 0 0x20000300 [(0x20000300, 0x80000000), (0x20000304, 10)] with absoluteDelayCounter := 5 }
    let t := turns { s with timeBase := .baseCountOverflow } (List.replicate 5 .preAccrue ++ [.preOverflow])
    t.timer = ⟨true, .delay, 0, .baseCountOverflow, 5⟩ ∧ (t.slot 0).state = .inDelay := by decide
/-- W10: the host's counter reset flushes two ticks, then re-arms the absolute delay. -/
theorem test_W10 :
    let s := steps 1 { running 0 0x20000300 [(0x20000300, 0x80000000), (0x20000304, 10)] with absoluteDelayCounter := 7 }
    let t := turns s [.preAccrue, .preAccrue, .hostWrite .word 0x004 0x10000]
    t.absoluteDelayCounter = 0 ∧ t.preOutstanding = 0 ∧ t.timer = ⟨true, .delay, 0, .preCountOverflow, 10⟩ := by decide
/-- W13: the poll. -/
theorem test_W13 :
    let s := steps 1 (running 0 0x20000300 [(0x20000300, 0x91000020), (0x20000304, 1), (0x40000020, 2)])
    s.timer = ⟨true, .pollRetry, 0, .pollTick, 1⟩ ∧ (s.slot 0).state = .waitingForReg ∧ s.pc 0 = 0x20000300 ∧
      ((turns s [.pollTick]).slot 0).state = .running := by decide
/-- W15 to W17: only the matching set wakes. -/
theorem test_W17 :
    let s := steps 1 { running 0 0x20000300 [(0x20000300, 0xA0010000), (0x20000304, 4)] with signalBitmask := 1 }
    let t := turns s [.signalSet 2]
    (s.slot 0).state = .waitingForSignal ∧ (s.slot 0).waitSigPred = .anySet ∧ (s.slot 0).waitSigData = 4 ∧
      (t.slot 0).state = .waitingForSignal ∧ (turns t [.signalSet 4]).pc 0 = 0x20000308 := by decide
/-- W19: a clear never wakes, the next set does. -/
theorem test_W19 :
    let s := steps 1 { running 0 0x20000300 [(0x20000300, 0xA0020000), (0x20000304, 1)] with signalBitmask := 1 }
    ((turns s [.signalClear 1]).slot 0).state = .waitingForSignal ∧
      ((turns s [.signalClear 1, .signalSet 2]).slot 0).state = .running := by decide

/-! ## Control (2.6) -/

/-- K8: a negative displacement. -/
theorem test_K8 : (steps 1 (running 0 0x20000210 [(0x20000210, 0xB0000000), (0x20000214, 0xFFFFFFF0)])).pc 0 = 0x20000208 := by
  decide
/-- K1: absolute. -/
theorem test_K1 : (steps 1 (running 0 0x20000210 [(0x20000210, 0xB0010000), (0x20000214, 0x20000200)])).pc 0 = 0x20000200 := by
  decide
/-- K12 and K13: clear and toggle. -/
theorem test_K12_K13 :
    (steps 1 { running 0 0x20000210 [(0x20000210, 0xC0020000), (0x20000214, 1)] with triggerBitmask := 0x81 }).triggerBitmask = 0x80 ∧
    (steps 1 { running 0 0x20000210 [(0x20000210, 0xC0030000), (0x20000214, 0xFF)] with triggerBitmask := 0x81 }).triggerBitmask
      = 0x7E := by decide
/-- K5: the register variant skips. -/
theorem test_K5 :
    (steps 1 (running 0 0x20000208 [(0x20000208, 0xD1000020), (0x2000020C, 1), (0x40000020, 1)])).pc 0 = 0x20000218 := by decide
/-- K7: the signal variant, no target read: the fetch and the inline word only. -/
theorem test_K7 :
    let t := steps 1 (running 0 0x20000208 [(0x20000208, 0xD0090000), (0x2000020C, 4)])
    t.pc 0 = 0x20000210 ∧ t.trace.length = 2 := by decide
/-- K15: the end starts the lowest Pending slot, deferred. -/
theorem test_K15 :
    let t := steps 1 ((running 0 0x20000210 [(0x20000210, 0xE0010000)]).updateSlot 5 fun x => { x with state := .pending })
    (t.slot 0).state = .idle ∧ t.pc 0 = 0x20000210 ∧ t.ifReg = 1 ∧ t.seqIf = 1 ∧ (t.slot 5).state = .running ∧
      t.timer = ⟨true, .deferredStart, 5, .preCountOverflow, 1⟩ := by decide
/-- E16: the fault record of Reserved; the next step stops. -/
theorem test_E16 :
    let t := steps 1 (running 3 0x20000400 [(0x20000400, 0xF0000000)])
    t.fault = some ⟨.reservedOpcode, some 3, some 0x20000400, some 0xF0000000⟩ ∧ isNext (step t) = false := by decide

/-! ## Sequencer and host (2.7, 2.8) -/

/-- Q1: slots 2, 5 and 7. -/
theorem test_Q1 :
    let t := turns (bench []) [.hostWrite .word 0x090 0x20000200, .hostWrite .word 0x004 0xA4]
    (t.slot 2).state = .running ∧ t.pc 2 = 0x20000200 ∧ (t.slot 5).state = .pending ∧ (t.slot 7).state = .pending ∧
      t.timer.armed = false ∧ t.statusWord = 0xA004 := by decide
/-- Q3: a start of a slot that is not Idle. -/
theorem test_Q3 :
    (turns (running 2 0 []) [.hostWrite .word 0x004 0x04]).fault = some ⟨.startNonIdle, some 2, none, none⟩ := by decide
/-- Q5: an abort of a Pending slot leaves the active slot's timer. -/
theorem test_Q5 :
    let s := ((running 2 0 []).arm .delay 2 .preCountOverflow 3).updateSlot 5 fun x => { x with state := .pending }
    let t := turns s [.hostWrite .word 0x004 0x2000]
    (t.slot 5).state = .idle ∧ t.timer.armed = true ∧ (t.slot 2).state = .running ∧ t.ifReg = 0x100 := by decide
/-- Q9: abort, counter reset and start in one write. -/
theorem test_Q9 :
    let s := { running 4 0 [] with absoluteDelayCounter := 9 }.updateSlot 4 fun x => { x with startAddress := 0x20000400 }
    let t := turns s [.hostWrite .word 0x004 0x00011010]
    (t.slot 4).state = .running ∧ t.pc 4 = 0x20000400 ∧ t.absoluteDelayCounter = 0 ∧ t.ifReg = 0x100 ∧ t.fault = none := by decide
/-- Q10: a hardware event starts the lowest matching slot, deferred; the other one is Pending. -/
theorem test_Q10 :
    let t := turns (bench []) [.hostWrite .word 0x08C 0x107, .hostWrite .word 0x09C 0x107, .hwEvent 7]
    (t.slot 1).state = .running ∧ (t.slot 3).state = .pending ∧
      t.timer = ⟨true, .deferredStart, 1, .preCountOverflow, 1⟩ ∧ t.executor = none := by decide
/-- Q14: the deferral's expiry resets the counter. -/
theorem test_Q14 :
    let s := { (startDeferred (bench []) 5) with absoluteDelayCounter := 9 }
    let t := turns s [.preAccrue, .preOverflow]
    t.absoluteDelayCounter = 0 ∧ t.executor = some 5 := by decide
/-- The lines (2.8, first and third row). -/
theorem test_lines :
    ({ State.reset with ifReg := 1, ien := 0, seqIf := 1, seqIen := 1 }.recompute.irqHost = false) ∧
    ({ State.reset with ifReg := 0x104, ien := 0x0FB, seqIf := 0x104, seqIen := 0x104 }.recompute.irqSeq = true) := by decide
/-- CONFIG reads back its named fields only. -/
theorem test_config_readback :
    (turns (bench []) [.hostWrite .word 0x010 0xFFFFFFFF, .hostRead .word 0x010]).hostReadData = 0x001F1F03 := by decide

/-! ## Programs (part 3) -/

/-- P1: two executor steps, the done flag, the host's line. -/
theorem test_P1 :
    let s := turns { bench [(0x20000100, 0x01020010), (0x20000104, 0xDEADBEEF), (0x20000108, 0x12345678),
      (0x2000010C, 0xE0010000)] with ien := 1 } [.hostWrite .word 0x080 0x20000100, .hostWrite .word 0x004 1]
    let t := steps 2 s
    wordAt t 0x40000014 = 0x12345678 ∧ (t.slot 0).state = .idle ∧ t.pc 0 = 0x2000010C ∧ t.ifReg = 1 ∧ t.irqHost = true ∧
      t.irqSeq = false := by decide

/-! ## The fixed interface -/

/-- Right after reset nothing is enabled: the block does nothing (70_reset_and_hazards.md R301). -/
theorem test_reset_idles : step State.reset = .next State.reset := rfl
/-- A placed word is fetched and run by the very next step, each row of the table. -/
theorem test_withFetchWord_runs :
    (List.range 16).all (fun k => isNext (step (State.reset.withFetchWord 32 (k * 2 ^ 28)))) = true := by decide
/-- The no-op of EndSeqOrNop, placed: `pc` goes on by 4. -/
theorem test_withFetchWord_nop : (after (step (State.reset.withFetchWord 32 0xE0000000))).pc 0 = 4 := by decide

/-! ## Witnesses: for each statement with hypotheses, a state and operands that meet them together -/

theorem next_after {o : Outcome} (h : isNext o = true) : o = .next (after o) := by
  cases o with
  | next s => rfl
  | fault f => cases h
  | refused r => cases h

/-- Slot 0 Running at 0x20000100 before a word, an inline word 5, and a second inline word 7. -/
def before (w : Word) : State := running 0 0x20000100 [(0x20000100, w), (0x20000104, 5), (0x20000108, 7), (0x40000010, 3)]

/-- `before`, on a bus that fails reads and writes of one word. -/
def failingAt (w addr : Word) : State :=
  { before w with params := { Config.Params.default with regions := [⟨addr, 4, .failing true true⟩] } }

theorem plainAt_of {s : State} {a : Word} (h1 : s.touchesWindow a = false) (h2 : s.regionAt a = none)
    (h3 : s.params.misaligned = .bytes) : s.PlainAt a := ⟨h1, h2, .inr h3⟩

theorem before_plain (w a : Word) : (before w).PlainAt a := plainAt_of rfl rfl rfl

theorem before_answers (w a : Word) : (before w).AlwaysAnswers a := ⟨rfl, .inr rfl⟩

theorem witness_DecodeOfEncode :
    Config.EncodingMaps.oneToOne .default = true ∧ swapped.oneToOne = true ∧
    Instr.wellFormed .default ⟨16, 24⟩ (.write 15 0xFFFF 255) = true ∧
    Instr.wellFormed swapped ⟨0, 28⟩ (.skipCond (.sig .neqB) 0 0) = true ∧
    Instr.wellFormed .default ⟨31, 0⟩ (.reserved 1) = true := by decide

theorem witness_EncodeOfDecode :
    swapped.oneToOne = true ∧ decode swapped ⟨16, 24⟩ 0x1FFFFFFF = .ok (.write 15 0xFFFF 255) ∧
    decode .default ⟨31, 0⟩ 0xFFFFFFFF = .ok (.reserved 0xFFFFFFF) := by decide

theorem witness_FieldsPartitionWord :
    Layout.legal ⟨0, 0⟩ = true ∧ Layout.legal ⟨16, 24⟩ = true ∧ Layout.legal ⟨28, 28⟩ = true := by decide

theorem witness_EncodeIsBitwiseOr :
    Instr.wellFormed .default ⟨16, 24⟩ (.write 15 0xFFFF 255) = true ∧ ∀ p, Instr.write 15 0xFFFF 255 ≠ .reserved p :=
  ⟨by decide, fun _ h => by cases h⟩

theorem witness_StepTakesTurn :
    (before 0).fault = none ∧ (before 0).schedule = [] ∧ (before 0).params.atomicRun = false ∧
    (let s := { before 0 with params := { Config.Params.default with atomicRun := true }, schedule := [.pollTick] }
     s.fault = none ∧ s.params.atomicRun = true ∧ s.executor ≠ none ∧ s.schedule = [.pollTick]) := by decide

theorem witness_StepRunsDecodedInstruction :
    let s := before 0x01020010
    s.ExecutorMoves 0 ∧ s.busRead (s.pc 0) = .value 0x01020010 ∧ decode s.params.maps s.layout 0x01020010 = .ok (.write 1 0x10 2) :=
  ⟨⟨by decide, rfl⟩, by decide, by decide⟩

theorem witness_DecodeFaultsInOrder :
    let s := before 0x0F020010
    let s1 := { s with contWritePos := 25 }
    let s2 := { s with basePos := 17, contWritePos := 0 }
    let s3 := before 0xE0020010
    (s1.ExecutorMoves 0 ∧ s1.busRead (s1.pc 0) = .value 0x0F020010 ∧ ¬(s1.contWritePos.toNat ≤ s1.basePos.toNat)) ∧
    (s2.ExecutorMoves 0 ∧ s2.busRead (s2.pc 0) = .value 0x0F020010 ∧ 16 ≤ baseField s2.layout 0x0F020010) ∧
    opcodeOf s.params.maps 0x0 ≠ .reserved ∧ opcodeOf s3.params.maps 0xE ≠ .reserved ∧
    (s3.ExecutorMoves 0 ∧ s3.busRead (s3.pc 0) = .value 0xE0020010 ∧ baseField s3.layout 0xE0020010 < 16 ∧
      s3.params.maps = .default ∧ legalExtBound 0xE ≤ extField s3.layout 0xE0020010 ∧
      ¬legalExt s3.params.maps (opcodeOf s3.params.maps 0xE) (extField s3.layout 0xE0020010)) :=
  ⟨⟨⟨by decide, rfl⟩, by decide, by decide⟩, ⟨⟨by decide, rfl⟩, by decide, by decide⟩, by decide, by decide,
    ⟨⟨by decide, rfl⟩, by decide, by decide, rfl, by decide, fun h => absurd (show 2 ∈ [0, 1] from h) (by decide)⟩⟩

theorem witness_FetchErrorAborts :
    let s := failingAt 0 0x20000100
    s.ExecutorMoves 0 ∧ s.busRead (s.pc 0) = .error := ⟨⟨by decide, rfl⟩, by decide⟩

theorem witness_FaultStateEnds : (State.reset.raiseFatal ⟨.badLayout, none, none, none⟩).fault ≠ none := by decide

/-- An executor's fault, and a counter overflow at a delivered overflow. -/
theorem witness_FaultDiscardsTheStep :
    (let s := { before 0x80000000 with timeBase := .clock }
     step s = .next (after (step s)) ∧ (after (step s)).fault = some ⟨.clockTimeBase, some 0, some 0x20000100, some 0x80000000⟩) ∧
    (let s := { bench [] with
        absoluteDelayCounter := 2 ^ 32 - 1, preOutstanding := 1, schedule := [.preOverflow] }
     step s = .next (after (step s)) ∧ (after (step s)).fault = some ⟨.counterOverflow, none, none, none⟩ ∧
       (after (step s)).absoluteDelayCounter = 2 ^ 32 - 1) :=
  ⟨⟨next_after (by decide), by decide⟩, ⟨next_after (by decide), by decide, by decide⟩⟩

theorem witness_ReservedFaults :
    let s := before 0xF0000000
    s.ExecutorMoves 0 ∧ s.busRead (s.pc 0) = .value 0xF0000000 ∧ s.params.maps.oneToOne = true ∧
      opcodeOf s.params.maps ((0xF0000000 : Word).toNat / 2 ^ 28) = .reserved :=
  ⟨⟨by decide, rfl⟩, by decide, by decide, by decide⟩

/-- The inline word fails; the target fails, without MOVSWAP and with it. The length 2 is not 0. -/
theorem witness_FirstReadErrorAborts :
    (let s := failingAt 0x80000000 0x20000104
     s.executor = some 0 ∧ s.busRead (s.pc 0 + 4) = .error ∧ (s.slot 0).movSwapAddresses = false) ∧
    (let s := (failingAt 0x21020010 0x40000010).updateSlot 0 fun x => { x with movSwapAddresses := true }
     s.executor = some 0 ∧ s.busRead (s.target 1 0x10) = .error ∧ (s.slot 0).movSwapAddresses = true) := by decide

theorem failingAt_plain (w addr x : Word) (h : regionHolds ⟨addr, 4, .failing true true⟩ x = false) : (failingAt w addr).PlainAt x :=
  plainAt_of rfl (by
    show ([_].find? _).map _ = none
    rw [List.find?_cons_of_neg (by simp [h])]
    rfl) rfl

/-- Copies: the second word's write fails (j = 1 of n = 2), the second word's read fails, the first word's read fails with MOVSWAP,
and a MoveBlock's first write fails. -/
theorem witness_TransferErrorKeepsEarlierWords :
    (let s := failingAt 0x01020010 0x40000014
     let t := forWords 1 (fun k u => u.plainCopy (wordAddr (s.pc 0 + 4) k) (wordAddr (s.target 1 0x10) k)) s
     s.executor = some 0 ∧
     (∀ k, k < 1 → s.PlainAt (wordAddr (s.pc 0 + 4) k) ∧ s.PlainAt (wordAddr (s.target 1 0x10) k)) ∧
     t.busRead (wordAddr (s.pc 0 + 4) 1) = .value 7 ∧ t.busWrite (wordAddr (s.target 1 0x10) 1) 7 = .error) ∧
    (let s := failingAt 0x01020010 0x20000108
     let t := forWords 1 (fun k u => u.plainCopy (wordAddr (s.pc 0 + 4) k) (wordAddr (s.target 1 0x10) k)) s
     s.executor = some 0 ∧
     (∀ k, k < 1 → s.PlainAt (wordAddr (s.pc 0 + 4) k) ∧ s.PlainAt (wordAddr (s.target 1 0x10) k)) ∧
     t.busRead (wordAddr (s.pc 0 + 4) 1) = .error) ∧
    (let s := (failingAt 0x21020010 0x40000010).updateSlot 0 fun x => { x with movSwapAddresses := true }
     (s.slot 0).movSwapAddresses = true ∧ s.busRead (wordAddr (s.target 1 0x10) 0) = .error) ∧
    (let s := failingAt 0x41020010 0x40000010
     s.busRead (s.pc 0 + 4) = .value 5 ∧ s.busRead (wordAddr 5 0) = .value 0 ∧
       s.busWrite (wordAddr (s.target 1 0x10) 0) 0 = .error) := by
  refine ⟨⟨by decide, ?_, by decide, by decide⟩, ⟨by decide, ?_, by decide⟩, by decide, by decide⟩ <;>
  · intro k hk
    interval_cases k
    exact ⟨failingAt_plain _ _ _ (by decide), failingAt_plain _ _ _ (by decide)⟩

/-- Combinations, j = 0: the inline word fails, the target's read fails, and only its write fails. -/
theorem witness_TransferErrorKeepsEarlierWords_logical :
    (failingAt 0x51020010 0x20000104).busRead (wordAddr 0x20000104 0) = .error ∧
    (let s := failingAt 0x51020010 0x40000010
     s.busRead (wordAddr (s.pc 0 + 4) 0) = .value 5 ∧ s.busRead (wordAddr (s.target 1 0x10) 0) = .error) ∧
    (let s := { before 0x51020010 with
        params := { Config.Params.default with regions := [⟨0x40000010, 4, .failing false true⟩] } }
     s.busRead (wordAddr (s.pc 0 + 4) 0) = .value 5 ∧ s.busRead (wordAddr (s.target 1 0x10) 0) = .value 3 ∧
       s.busWrite (wordAddr (s.target 1 0x10) 0) (3 &&& 5) = .error) := by decide

/-- Two words, and the whole range of lengths with them; the source and the fixed target alike. -/
theorem witness_WriteCopiesAscending (n : Nat) :
    (before 0x01020010).executor = some 0 ∧
    ∀ k, k < n → (before 0x01020010).PlainAt (wordAddr ((before 0x01020010).pc 0 + 4) k) ∧
      (before 0x01020010).PlainAt (wordAddr ((before 0x01020010).target 1 0x10) k) :=
  ⟨by decide, fun _ _ => ⟨before_plain _ _, before_plain _ _⟩⟩

theorem witness_WriteNoIncWritesOneAddress :
    let s := before 0x11020010
    s.executor = some 0 ∧ ∀ k, k < 2 → s.PlainAt (wordAddr (s.pc 0 + 4) k) ∧ s.PlainAt (s.target 1 0x10) :=
  ⟨by decide, fun _ _ => ⟨before_plain _ _, before_plain _ _⟩⟩

theorem witness_MovCopiesByDirection :
    let s := before 0x21020010
    s.executor = some 0 ∧ ∀ k, k < 2 → s.PlainAt (wordAddr (s.pc 0 + 4) k) ∧ s.PlainAt (wordAddr (s.target 1 0x10) k) :=
  ⟨by decide, fun _ _ => ⟨before_plain _ _, before_plain _ _⟩⟩

theorem witness_MovNoIncIgnoresSwap :
    let s := before 0x31020010
    s.executor = some 0 ∧ ∀ k, k < 2 → s.PlainAt (wordAddr (s.pc 0 + 4) k) ∧ s.PlainAt (s.target 1 0x10) :=
  ⟨by decide, fun _ _ => ⟨before_plain _ _, before_plain _ _⟩⟩

theorem witness_MoveBlockCopiesIndirect :
    let s := before 0x41020010
    s.executor = some 0 ∧ s.busRead (s.pc 0 + 4) = .value 5 ∧
      ∀ k, k < 2 → s.PlainAt (wordAddr 5 k) ∧ s.PlainAt (wordAddr (s.target 1 0x10) k) :=
  ⟨by decide, by decide, fun _ _ => ⟨before_plain _ _, before_plain _ _⟩⟩

theorem witness_LogicalOpsCombine :
    let s := before 0x51020010
    s.executor = some 0 ∧ ∀ k, k < 2 → s.PlainAt (wordAddr (s.pc 0 + 4) k) ∧ s.PlainAt (wordAddr (s.target 1 0x10) k) :=
  ⟨by decide, fun _ _ => ⟨before_plain _ _, before_plain _ _⟩⟩

theorem witness_TransfersCompleteOnAnsweringBus :
    let s := before 0x41020010
    s.executor = some 0 ∧
      (∀ k, k < 2 → s.AlwaysAnswers (wordAddr (s.pc 0 + 4) k) ∧ s.AlwaysAnswers (wordAddr (s.target 1 0x10) k)) ∧
      (∀ k, k < 2 → s.AlwaysAnswers (wordAddr (s.pc 0 + 4) k) ∧ s.AlwaysAnswers (s.target 1 0x10)) ∧
      s.busRead (s.pc 0 + 4) = .value 5 ∧
      ∀ k, k < 2 → s.AlwaysAnswers (wordAddr 5 k) ∧ s.AlwaysAnswers (wordAddr (s.target 1 0x10) k) :=
  ⟨by decide, fun _ _ => ⟨before_answers _ _, before_answers _ _⟩,
    fun _ _ => ⟨before_answers _ _, before_answers _ _⟩, by decide, fun _ _ => ⟨before_answers _ _, before_answers _ _⟩⟩

/-- One that goes on, and one whose second write fails. -/
theorem witness_TransferFrame :
    isNext (exec (.mov 1 0x10 2) (before 0x21020010)) = true ∧
    isNext (exec (.mov 1 0x10 2) (failingAt 0x21020010 0x40000014)) = true := by decide

theorem witness_MemoryFrame :
    (before 0x11020010).MemoryWf ∧ (before 0x11020010).executor = some 0 ∧
    isNext (exec (.writeNoInc 1 0x10 2) (before 0x11020010)) = true ∧
    ¬(before 0x11020010).StoresAt 0 (.writeNoInc 1 0x10 2) 0x40000014 := by
  refine ⟨by unfold State.MemoryWf; decide, by decide, by decide, ?_⟩
  simp only [State.StoresAt, InWord]
  decide

/-- One word: its source and its target lie apart. -/
theorem inBlock_one {a x : Word} (h : InBlock a 1 x) : InWord a x := by
  obtain ⟨k, hk, h⟩ := h
  interval_cases k
  simpa [wordAddr] using h

theorem apart (x : Word) (h : InBlock 0x20000104 1 x) : ¬InWord 0x40000010 x := by
  have h := inBlock_one h
  unfold InWord at h ⊢
  rcases h with rfl | rfl | rfl | rfl <;> decide

theorem witness_WriteRoundTrip :
    let s := before 0x01010010
    s.MemoryWf ∧ s.executor = some 0 ∧
      (∀ k, k < 1 → s.PlainAt (wordAddr (s.pc 0 + 4) k) ∧ s.PlainAt (wordAddr (s.target 1 0x10) k)) ∧
      ∀ x, InBlock (s.pc 0 + 4) 1 x → ¬InBlock (s.target 1 0x10) 1 x := by
  refine ⟨by unfold State.MemoryWf; decide, by decide, fun _ _ => ⟨before_plain _ _, before_plain _ _⟩, fun x hx hy => ?_⟩
  rw [show (before 0x01010010).pc 0 + 4 = 0x20000104 by decide] at hx
  rw [show (before 0x01010010).target 1 0x10 = 0x40000010 by decide] at hy
  exact apart x hx (inBlock_one hy)

/-- The least length, 1: n = 0. -/
theorem witness_WriteNoIncLeavesLastWord :
    let s := before 0x11010010
    s.MemoryWf ∧ s.executor = some 0 ∧ (∀ k, k < 0 + 1 → s.PlainAt (wordAddr (s.pc 0 + 4) k)) ∧ s.PlainAt (s.target 1 0x10) ∧
      ∀ x, InBlock (s.pc 0 + 4) (0 + 1) x → ¬InWord (s.target 1 0x10) x := by
  refine ⟨by unfold State.MemoryWf; decide, by decide, fun _ _ => before_plain _ _, before_plain _ _, fun x hx => ?_⟩
  rw [show (before 0x11010010).pc 0 + 4 = 0x20000104 by decide] at hx
  rw [show (before 0x11010010).target 1 0x10 = 0x40000010 by decide]
  exact apart x hx

theorem witness_PredicateFormulas :
    State.reset.params.eqPredForm = .maskBoth ∧
    { State.reset with params := { Config.Params.default with eqPredForm := .maskValue } }.params.eqPredForm = .maskValue := by decide

/-- The least threshold above the counter, a relative count, and a count of 0 that waits one tick. -/
theorem witness_DelaySuspends :
    (let s := { before 0x80000000 with absoluteDelayCounter := 4 }
     s.executor = some 0 ∧ s.busRead (s.pc 0 + 4) = .value 5 ∧ s.timeBase.source = some .preCountOverflow ∧
       s.absoluteDelayCounter < (5 : Word).toNat) ∧
    (5 : Word) ≠ 0 ∧
    (let s := { running 0 0x20000100 [(0x20000100, 0x80010000)] with
        params := { Config.Params.default with relDelayZero := .nextTick } }
     s.executor = some 0 ∧ s.busRead (s.pc 0 + 4) = .value 0 ∧ s.timeBase.source = some .preCountOverflow ∧
       s.params.relDelayZero = .nextTick) := by decide

/-- The Clock time base, the threshold the counter has just reached, and a relative count of 0. -/
theorem witness_DelayFaults :
    (let s := { before 0x80000000 with timeBase := .clock }
     s.executor = some 0 ∧ s.busRead (s.pc 0 + 4) = .value 5 ∧ s.timeBase = .clock) ∧
    (let s := { before 0x80000000 with absoluteDelayCounter := 5 }
     s.executor = some 0 ∧ s.busRead (s.pc 0 + 4) = .value 5 ∧ s.timeBase ≠ .clock ∧ (5 : Word).toNat ≤ s.absoluteDelayCounter) ∧
    (let s := running 0 0x20000100 [(0x20000100, 0x80010000)]
     s.executor = some 0 ∧ s.busRead (s.pc 0 + 4) = .value 0 ∧ s.timeBase ≠ .clock ∧ s.params.relDelayZero = .fault) := by decide

theorem witness_WaitForRegResult :
    let s := before 0x91000010
    s.executor = some 0 ∧ s.busRead (s.target 1 0x10) = .value 3 ∧
      (s.logAccess (.read (s.target 1 0x10) (some 3))).busRead (s.pc 0 + 4) = .value 5 ∧
      s.pred .anySet 3 5 = true ∧ s.pred .allSet 3 5 = false := by decide

theorem witness_WaitForSigResult :
    let s := before 0xA0000000
    s.executor = some 0 ∧ s.busRead (s.pc 0 + 4) = .value 5 ∧ s.pred .allClear s.signalBitmask 5 = true ∧
      s.pred .allSet s.signalBitmask 5 = false := by decide

/-- A slot that waits for any of the bits 4: a set of bit 2 wakes it, a set of bit 1 does not. -/
theorem witness_SignalEvents :
    let s := (before 0).updateSlot 0 fun x => { x with state := .waitingForSignal, waitSigPred := .anySet, waitSigData := 4 }
    s.activeSlot = some 0 ∧ (s.slot 0).state = .waitingForSignal ∧
      s.pred (s.slot 0).waitSigPred (s.signalBitmask ||| 4) (s.slot 0).waitSigData = true ∧
      s.pred (s.slot 0).waitSigPred (s.signalBitmask ||| 2) (s.slot 0).waitSigData = false := by decide

theorem witness_PollTickRetries :
    let s := ((before 0).setSlotState 0 .waitingForReg).arm .pollRetry 0 .pollTick 1
    s.timer = ⟨true, .pollRetry, 0, .pollTick, 1⟩ ∧ (s.slot 0).state = .waitingForReg ∧ (before 0).timer.armed = false := by decide

/-- A Delay armed at 4 for the threshold 6: one tick leaves it, two resume it. -/
theorem witness_DelayMonotonicity :
    let s := { ((before 0).updateSlot 0 fun x => { x with state := .inDelay, delayRemainingTicksOrTopValue := 6 }).arm
        .delay 0 .preCountOverflow 2 with absoluteDelayCounter := 4 }
    (s.slot 0).state = .inDelay ∧ (s.slot 0).delayIsRelative = false ∧ s.params.countdownModel = .eventCounted ∧
      s.absoluteDelayCounter < (s.slot 0).delayRemainingTicksOrTopValue.toNat ∧ s.timeBase.source = some .preCountOverflow ∧
      s.timer = ⟨true, .delay, 0, .preCountOverflow, (s.slot 0).delayRemainingTicksOrTopValue.toNat - s.absoluteDelayCounter⟩ ∧
      (∃ t, tick s .preCountOverflow 1 = .ok t ∧ (t.slot 0).state = .inDelay) ∧
      ∃ t, tick s .preCountOverflow 2 = .ok t ∧ (t.slot 0).state = .running :=
  ⟨by decide, by decide, by decide, by decide, by decide, by decide, ⟨_, rfl, by decide⟩, ⟨_, rfl, by decide⟩⟩

theorem witness_JumpResult :
    (let s := before 0xB0000000
     s.executor = some 0 ∧ s.busRead (s.pc 0 + 4) = .value 5) ∧
    (let s := running 0 0x20000100 [(0x20000100, 0xB0000000)]
     s.executor = some 0 ∧ s.busRead (s.pc 0 + 4) = .value 0) := by decide

theorem witness_SetTrigResult :
    let s := before 0xC0000000
    s.executor = some 0 ∧ s.busRead (s.pc 0 + 4) = .value 5 := by decide

theorem witness_SkipCondResult :
    let s := before 0xD1000010
    s.executor = some 0 ∧ s.busRead (s.target 1 0x10) = .value 3 ∧
      (s.logAccess (.read (s.target 1 0x10) (some 3))).busRead (s.pc 0 + 4) = .value 5 ∧
      s.busRead (s.pc 0 + 4) = .value 5 := by decide

/-- With slots 3 and 5 Pending, and with none. -/
theorem witness_EndSeqOrNopResult :
    (let s := ((before 0xE0010000).setSlotState 3 .pending).setSlotState 5 .pending
     s.executor = some 0 ∧ (s.slot 3).state = .pending ∧ ∀ j, j < 3 → (s.slot j).state ≠ .pending) ∧
    (before 0xE0010000).executor = some 0 ∧ ∀ i, ((before 0xE0010000).slot i).state ≠ .pending := by decide

theorem witness_OnlySetTrigWritesTriggers :
    let s := before 0xC0000000
    step s = .next (after (step s)) ∧ (after (step s)).triggerBitmask ≠ s.triggerBitmask :=
  ⟨next_after (by decide), by decide⟩

theorem witness_SignalsChangeOnlyByEvents :
    let s := { before 0 with schedule := [.signalSet 4] }
    step s = .next (after (step s)) ∧ (after (step s)).signalBitmask ≠ s.signalBitmask :=
  ⟨next_after (by decide), by decide⟩

theorem witness_EventsMakeNoBusAccess :
    let s := { before 0 with schedule := [.masterWrite 0x40000010 9] }
    step s = .next (after (step s)) ∧ (nextTurn s).1 ≠ .executor ∧ (after (step s)).mem ≠ s.mem :=
  ⟨next_after (by decide), by decide, by decide⟩

/-- The host clears IF's bit 0 and leaves SEQIF's. -/
theorem witness_FlagsClearedOnlyByHost :
    let s := { before 0 with ifReg := 1, seqIf := 1, schedule := [.hostWrite .word 0x020 0] }
    step s = .next (after (step s)) ∧ s.ifReg.getLsbD 0 = true ∧ (after (step s)).ifReg.getLsbD 0 = false ∧
      (after (step s)).seqIf.getLsbD 0 = true :=
  ⟨next_after (by decide), by decide, by decide, by decide⟩

theorem witness_ConfigurationWrittenByHostOnly :
    let s := before 0x01020010
    step s = .next (after (step s)) ∧ (nextTurn s).1 ≠ .reset ∧ ∀ w off v, (nextTurn s).1 ≠ .hostWrite w off v :=
  ⟨next_after (by decide), by decide, fun _ _ _ h => by cases h⟩

/-- Mask 0x0C with slot 2 Running and slot 3 Idle or not. -/
theorem witness_RequestStartChecks :
    (let s := { bench [] with en := false }
     s.en = false ∧ s.params.enPolicy = .fault ∧ inMask 0x0C 2 = true ∧ ∀ j, j < 2 → inMask 0x0C j = false) ∧
    (let s := { bench [] with en := false, params := { Config.Params.default with enPolicy := .ignore } }
     s.en = false ∧ s.params.enPolicy = .ignore) ∧
    (let s := running 2 0 []
     s.en = true ∧ inMask 0x0C 2 = true ∧ (s.slot 2).state ≠ .idle ∧
       (∀ j, j < 2 → inMask 0x0C j = true → (s.slot j).state = .idle) ∧ s.params.startNonIdle = .fault) ∧
    (let s := { running 2 0 [] with params := { Config.Params.default with startNonIdle := .ignore, enPolicy := .none }, en := false }
     s.params.enPolicy = .none ∧ s.params.startNonIdle = .ignore ∧ ∀ j, inMask 0x04 j = true → (s.slot j).state ≠ .idle) ∧
    (let s := { running 2 0 [] with params := { Config.Params.default with startNonIdle := .ignore } }
     s.en = true ∧ s.params.startNonIdle = .ignore ∧
       ∀ j, inMask 0x08 j = true ↔ inMask 0x0C j = true ∧ (s.slot j).state = .idle) := by decide

/-- Mask 0x0C: with slot 0 active, and with none active under either policy of DISABSDELAYRST; with overflows outstanding, which the
counter absorbs, or does not. -/
theorem witness_RequestStartArbitrates :
    (let s := before 0
     s.en = true ∧ (∀ i, inMask 0x0C i = true → (s.slot i).state = .idle) ∧ s.activeSlot = some 0) ∧
    (let s := bench []
     s.en = true ∧ (∀ i, inMask 0x0C i = true → (s.slot i).state = .idle) ∧ s.activeSlot = none ∧ inMask 0x0C 2 = true ∧
       (∀ j, j < 2 → inMask 0x0C j = false) ∧ (s.slot 2).disableAbsoluteDelayReset = false ∧ s.preOutstanding = 0) ∧
    ((bench []).updateSlot 2 fun x => { x with disableAbsoluteDelayReset := true }).activeSlot = none ∧
    (let s := { bench [] with preOutstanding := 3 }
     s.activeSlot = none ∧ s.TimerOwned ∧ s.FlushFits ∧ s.preOutstanding ≠ 0) ∧
    (let s := { bench [] with preOutstanding := 3, absoluteDelayCounter := 2 ^ 32 - 3 }
     s.activeSlot = none ∧ ¬s.FlushFits) := by
  unfold State.TimerOwned State.FlushFits
  decide

/-- Slot 0 active and slot 5 Pending; mask 0x21 takes both, 0x20 the Pending one, 0x02 none. -/
theorem witness_AbortEffect :
    let s := (before 0).setSlotState 5 .pending
    s.params.arbitrateOnAbort = false ∧ s.activeSlot = some 0 ∧ inMask 0x21 0 = true ∧
      (∀ a, s.activeSlot = some a → inMask 0x20 a = false) ∧ (inMask 0x20 5 = true ∧ (s.slot 5).state ≠ .idle) ∧
      ∀ i, ¬(inMask 0x02 i = true ∧ (s.slot i).state ≠ .idle) := by
  refine ⟨by decide, by decide, by decide, fun a h => ?_, by decide, by decide⟩
  rw [show ((before 0).setSlotState 5 .pending).activeSlot = some 0 by decide] at h
  cases h
  decide

/-- Under ARBITRATE_ON_ABORT: mask 0x09 takes slots 0 and 3, and of slots 3, 5 and 7 Pending the 5 starts. -/
theorem witness_AbortEffect_arbitrates :
    let s := ({ (((before 0).setSlotState 3 .pending).setSlotState 5 .pending).setSlotState 7 .pending with
      params := { Config.Params.default with arbitrateOnAbort := true } })
    s.params.arbitrateOnAbort = true ∧ (s.activeSlot = some 0 ∧ inMask 0x09 0 = true) ∧
      ((s.slot 5).state = .pending ∧ inMask 0x09 5 = false) ∧
      (∀ j, j < 5 → ¬((s.slot j).state = .pending ∧ inMask 0x09 j = false)) ∧
      ((abort s 0x09).slot 5).state = .running := by decide

theorem witness_ArbitrationFifo :
    ((bench []).en = true ∧ (∀ i, ((bench []).slot i).state = .idle) ∧ (bench []).preOutstanding = 0) ∧
    (let s := { bench [] with preOutstanding := 3 }
     (∀ i, (s.slot i).state = .idle) ∧ s.TimerOwned ∧ s.FlushFits) ∧
    ∀ i, (((bench []).updateSlot 2 fun x => { x with disableAbsoluteDelayReset := true }).slot i).state = .idle := by
  unfold State.TimerOwned State.FlushFits
  decide

theorem oneActive_of_only {s : State} {a : SlotId} (h : ∀ i, (s.slot i).state.active = true → i = a) : s.OneActive :=
  fun i j hi hj => (h i hi).trans (h j hj).symm

/-- With overflows outstanding, which the counter absorbs, or does not. -/
theorem witness_HostCommandOrder :
    (let s := { running 7 0x20000100 [] with preOutstanding := 3 }
     s.regAt 0x004 = some .cmd ∧ s.OneActive ∧ (s.slot 7).state.active = true ∧ s.en = true ∧
       s.params.arbitrateOnAbort = false ∧ s.FlushFits) ∧
    (let s := { running 7 0x20000100 [] with preOutstanding := 3, absoluteDelayCounter := 2 ^ 32 - 3 }
     s.OneActive ∧ (s.slot 7).state.active = true ∧ s.params.arbitrateOnAbort = false ∧ ¬s.FlushFits) := by
  refine ⟨⟨by decide, oneActive_of_only (a := 7) (by decide), by decide, by decide, by decide, ?_⟩,
    ⟨oneActive_of_only (a := 7) (by decide), by decide, by decide, ?_⟩⟩ <;>
  · unfold State.FlushFits
    decide

/-- By the end of the active sequence, by a command that aborts and starts a Pending slot, and, under ARBITRATE_ON_ABORT, by one
that aborts the active slot. -/
theorem witness_PendingStartsOnlyThroughArbiter :
    (let s := (before 0xE0010000).setSlotState 3 .pending
     step s = .next (after (step s)) ∧ (s.slot 3).state = .pending ∧ ((after (step s)).slot 3).state.active = true) ∧
    (let s := { bench [] with schedule := [.hostWrite .word 0x004 0x0808] }.setSlotState 3 .pending
     step s = .next (after (step s)) ∧ (s.slot 3).state = .pending ∧ ((after (step s)).slot 3).state.active = true) ∧
    (let s := { before 0 with
        schedule := [.hostWrite .word 0x004 0x0100]
        params := { Config.Params.default with arbitrateOnAbort := true } }.setSlotState 3 .pending
     step s = .next (after (step s)) ∧ (s.slot 3).state = .pending ∧ ((after (step s)).slot 3).state.active = true) :=
  ⟨⟨next_after (by decide), by decide, by decide⟩, ⟨next_after (by decide), by decide, by decide⟩,
    ⟨next_after (by decide), by decide, by decide⟩⟩

/-- The counter one short of its limit takes one tick and not two; a timer of 3 ticks is counted down by 2. -/
theorem witness_TickCounts :
    let s := { (before 0).arm .delay 0 .preCountOverflow 3 with absoluteDelayCounter := 2 ^ 32 - 2 }
    s.timeBase.source = some .preCountOverflow ∧ s.params.absCounterLimit < s.absoluteDelayCounter + 2 ∧
      s.absoluteDelayCounter + 1 ≤ s.params.absCounterLimit ∧ s.timer.armed = true ∧ s.timer.tb = .preCountOverflow ∧
      s.params.countdownModel = .eventCounted ∧ 2 < s.timer.remaining ∧ s.timeBase.source ≠ some .baseCountOverflow ∧
      s.timer.tb ≠ .baseCountOverflow ∧ s.disarm.timer.armed = false ∧ s.timer.remaining ≤ 3 ∧
      s.preOutstanding = 0 ∧ 0 < { s with preOutstanding := 1 }.preOutstanding := by decide

/-- A Delay at its threshold, one short of it, and a deferral; this one expires in a slot that is not Running, too. -/
theorem witness_ExpiryResumes :
    (let s := { ((before 0).updateSlot 0 fun x => { x with state := .inDelay, delayRemainingTicksOrTopValue := 6 }).arm
        .delay 0 .preCountOverflow 1 with absoluteDelayCounter := 6 }
     s.timer.slot = 0 ∧ s.timer.reason = .delay ∧ (s.slot 0).state = .inDelay ∧ (s.slot 0).delayIsRelative = false ∧
       (s.slot 0).delayRemainingTicksOrTopValue.toNat ≤ s.absoluteDelayCounter ∧ s.timeBase.source = some .preCountOverflow) ∧
    (let s := { ((before 0).updateSlot 0 fun x => { x with state := .inDelay, delayRemainingTicksOrTopValue := 6 }).arm
        .delay 0 .preCountOverflow 1 with absoluteDelayCounter := 5, timeBase := .clock }
     s.absoluteDelayCounter < (s.slot 0).delayRemainingTicksOrTopValue.toNat ∧ s.timeBase = .clock) ∧
    (let s := (before 0).arm .deferredStart 0 .preCountOverflow 1
     s.timer.slot = 0 ∧ s.timer.reason = .deferredStart ∧ (s.slot 0).state = .running ∧ s.activeSlot = some 0 ∧
       (s.slot 0).disableAbsoluteDelayReset = false ∧ s.preOutstanding = 0 ∧ ((s.setSlotState 0 .idle).slot 0).state ≠ .running) := by
  decide

/-- A deferral whose flush the counter absorbs, or does not; a poll retry; and under COUNTDOWN_MODEL = Free an armed Delay. -/
theorem witness_ExpiryResumes_flush :
    (let s := { (before 0).arm .deferredStart 0 .preCountOverflow 1 with preOutstanding := 3 }
     s.activeSlot = some 0 ∧ (s.slot 0).state = .running ∧ s.FlushFits ∧ ¬{ s with absoluteDelayCounter := 2 ^ 32 - 3 }.FlushFits) ∧
    (let s := ((before 0).setSlotState 0 .waitingForReg).arm .pollRetry 0 .pollTick 1
     s.timer.slot = 0 ∧ s.timer.reason = .pollRetry ∧ (s.slot 0).state = .waitingForReg ∧ s.params.countdownModel ≠ .free) ∧
    (let s := { ((before 0).setSlotState 0 .inDelay).arm .delay 0 .preCountOverflow 1 with
        params := { Config.Params.default with countdownModel := .free } }
     s.params.countdownModel = .free ∧ s.timer.armed = true ∧ s.timer.reason = .delay ∧ isNext (takeTurn .timerExpire s) = true) := by
  unfold State.FlushFits
  decide

/-- The active slot in an absolute Delay with threshold 6; with threshold 0, and with the Clock time base; a flush that overflows. -/
theorem witness_ResetAbsCounterResult :
    (let s := ((before 0).updateSlot 0 fun x => { x with state := .inDelay, delayRemainingTicksOrTopValue := 6 }).arm
        .delay 0 .preCountOverflow 1
     ∃ t, resetAbsCounter s = .ok t ∧ t.activeSlot = some 0 ∧ (t.slot 0).state = .inDelay ∧ (t.slot 0).delayIsRelative = false) ∧
    (let s := (before 0).setSlotState 0 .inDelay
     s.preOutstanding = 0 ∧ s.activeSlot = some 0 ∧ (s.slot 0).delayRemainingTicksOrTopValue = 0 ∧
       { s with timeBase := .clock }.timeBase = .clock) ∧
    ∃ e, tick { before 0 with absoluteDelayCounter := 2 ^ 32 - 1 } .preCountOverflow 1 = .error e :=
  ⟨⟨_, rfl, by decide, by decide, by decide⟩, by decide, ⟨_, rfl⟩⟩

/-- Every register of the reference layout is found at its offset. -/
theorem witness_HostWriteReadsBack :
    Config.referenceRegmap.all (fun e => State.reset.regAt e.1 == some e.2) = true := by decide

theorem witness_HostReadReturnsValue : State.reset.regAt 0x00C = some .seqAddr ∧ (before 0).activeSlot = some 0 := by decide

theorem witness_HostRefusesUnmapped : AccessWidth.half ≠ .word ∧ State.reset.regAt 0x0C0 = none ∧ State.reset.regAt 0x002 = none := by decide

theorem witness_ResetIsSound : Memory.wf [] = true ∧ Memory.wf [(0, 1), (2 ^ 32 - 1, 255)] = true := by decide

/-- A Delay in progress is sound, and its turn answers a next state. -/
theorem witness_StepKeepsSound :
    let s := { ((before 0).updateSlot 0 fun x => { x with state := .inDelay, delayRemainingTicksOrTopValue := 6 }).arm
        .delay 0 .preCountOverflow 6 with schedule := [.preAccrue, .preOverflow] }
    s.Sound ∧ step s = .next (after (step s)) := by
  refine ⟨⟨oneActive_of_only (a := 0) (by decide), ?_, ?_, by unfold State.CounterBounded; decide, ?_, ?_⟩, next_after (by decide)⟩
  · unfold State.TimerOwned; decide
  · unfold State.WaitersArmed; decide
  · unfold State.LinesMatch; decide
  · unfold State.MemoryWf; decide

/-- The expiry of a deferral is a resumption from a sound state. -/
theorem witness_ResumeInvariantUnreachable :
    let s := { (before 0).arm .deferredStart 0 .preCountOverflow 1 with preOutstanding := 1, schedule := [.preOverflow] }
    s.Sound ∧ step s = .next (after (step s)) := by
  refine ⟨⟨oneActive_of_only (a := 0) (by decide), ?_, ?_, by unfold State.CounterBounded; decide, ?_, ?_⟩, next_after (by decide)⟩
  · unfold State.TimerOwned; decide
  · unfold State.WaitersArmed; decide
  · unfold State.LinesMatch; decide
  · unfold State.MemoryWf; decide

end Sys2Proof.Tests
end

section
/-! SUPPORT. The invariant `State.Sound` in the form the step proofs use: three phases of the slots and the timer, and what
neither decides. -/

namespace Sys2Proof.Machine

/-! ## The phases of the slots and the timer -/

/-- No slot but `a` is active. -/
def State.OnlyActive (s : State) (a : SlotId) : Prop := ∀ i, (s.slot i).state.active = true → i = a

/-- The timer's slot is in the state the timer's reason expects and no other slot is active, whether or not the timer is armed:
what an expiry finds (60_exceptions.md R265, R266). -/
def State.TimerFits (s : State) : Prop :=
  s.OnlyActive s.timer.slot ∧ (s.slot s.timer.slot).state = s.timer.reason.slotState

/-- How the slots and the timer stand to each other (45_sequencer.md R237): no slot is active; one is, and waits for no tick; or
one is, and the armed timer is its own. -/
inductive State.Phase (s : State) : Prop where
  | quiet (hidle : ∀ i, (s.slot i).state.active = false) (htimer : s.timer.armed = false)
  | untimed (a : SlotId) (honly : s.OnlyActive a)
      (hstate : (s.slot a).state = .running ∨ (s.slot a).state = .waitingForSignal) (htimer : s.timer.armed = false)
  | timed (htimer : s.timer.armed = true) (hfits : s.TimerFits) (hticks : 1 ≤ s.timer.remaining)

/-- What the invariant says of the counter, the lines and memory. -/
structure State.Steady (s : State) : Prop where
  counterBounded : s.CounterBounded
  linesMatch : s.LinesMatch
  memoryWf : s.MemoryWf

theorem StartReason.slotState_active (r : StartReason) : r.slotState.active = true := by cases r <;> rfl

theorem State.OnlyActive.oneActive {s : State} {a : SlotId} (h : s.OnlyActive a) : s.OneActive :=
  fun i j hi hj => (h i hi).trans (h j hj).symm

/-- Of the states that are active, only InDelay and WaitingForReg wait for the timer. -/
theorem SlotState.cases_of_active {x : SlotState} (h : x.active = true) :
    (x = .running ∨ x = .waitingForSignal) ∨ x = .inDelay ∨ x = .waitingForReg := by
  cases x <;> simp_all [SlotState.active]

theorem State.TimerFits.activeSlot {s : State} (h : s.TimerFits) : s.activeSlot = some s.timer.slot :=
  State.activeSlot_of_active h.1.oneActive (by rw [h.2]; exact s.timer.reason.slotState_active)

/-- A state in a phase meets the three clauses of the invariant about slots and timer. -/
theorem State.Phase.clauses {s : State} (h : s.Phase) : s.OneActive ∧ s.TimerOwned ∧ s.WaitersArmed := by
  have active_of : ∀ {i : SlotId} {x : SlotState}, (s.slot i).state = x → x.active = true →
      (s.slot i).state.active = true := fun h hx => by rw [h]; exact hx
  cases h with
  | quiet hidle htimer =>
    refine ⟨fun i j hi => ?_, fun ht => ?_, fun i => ⟨fun hd => ?_, fun hw => ?_⟩⟩
    · simp [hidle i] at hi
    · simp [htimer] at ht
    · simpa [hidle i] using active_of hd rfl
    · simpa [hidle i] using active_of hw rfl
  | untimed a honly hstate htimer =>
    refine ⟨honly.oneActive, fun ht => by simp [htimer] at ht, fun i => ⟨fun hd => ?_, fun hw => ?_⟩⟩
    · obtain rfl := honly i (active_of hd rfl)
      simp [hd] at hstate
    · obtain rfl := honly i (active_of hw rfl)
      simp [hw] at hstate
  | timed htimer hfits hticks =>
    refine ⟨hfits.1.oneActive, fun _ => ⟨hfits.activeSlot, hfits.2, hticks⟩, fun i => ⟨fun hd => ?_, fun hw => ?_⟩⟩
    · obtain rfl := hfits.1 i (active_of hd rfl)
      refine ⟨htimer, ?_, rfl⟩
      have := hfits.2.symm.trans hd
      cases hr : s.timer.reason <;> simp_all [StartReason.slotState]
    · obtain rfl := hfits.1 i (active_of hw rfl)
      refine ⟨htimer, ?_, rfl⟩
      have := hfits.2.symm.trans hw
      cases hr : s.timer.reason <;> simp_all [StartReason.slotState]

/-- The three clauses about slots and timer put a state in a phase. -/
theorem State.phase_of_clauses {s : State} (h1 : s.OneActive) (h2 : s.TimerOwned) (h3 : s.WaitersArmed) : s.Phase := by
  cases ht : s.timer.armed with
  | true =>
    obtain ⟨ha, hstate, hticks⟩ := h2 ht
    exact .timed ht ⟨fun i hi => h1 i _ hi (State.active_of_activeSlot ha), hstate⟩ hticks
  | false =>
    cases ha : s.activeSlot with
    | none => exact .quiet (State.activeSlot_eq_none.mp ha) ht
    | some a =>
      have hact := State.active_of_activeSlot ha
      refine .untimed a (fun i hi => h1 i a hi hact) ?_ ht
      rcases SlotState.cases_of_active hact with hs | hs | hs
      · exact hs
      · simpa [ht] using ((h3 a).1 hs).1
      · simpa [ht] using ((h3 a).2 hs).1

theorem State.sound_iff {s : State} : s.Sound ↔ s.Phase ∧ s.Steady := by
  constructor
  · rintro ⟨h1, h2, h3, h4, h5, h6⟩
    exact ⟨State.phase_of_clauses h1 h2 h3, h4, h5, h6⟩
  · rintro ⟨hp, h4, h5, h6⟩
    obtain ⟨h1, h2, h3⟩ := hp.clauses
    exact ⟨h1, h2, h3, h4, h5, h6⟩

theorem State.Sound.phase {s : State} (h : s.Sound) : s.Phase := (State.sound_iff.mp h).1
theorem State.Sound.steady {s : State} (h : s.Sound) : s.Steady := (State.sound_iff.mp h).2

/-! ## What keeps a phase -/

/-- No slot's state differs but where it is inactive in both. -/
def State.SameActivity (s t : State) : Prop :=
  ∀ i, (t.slot i).state = (s.slot i).state ∨ ((s.slot i).state.active = false ∧ (t.slot i).state.active = false)

theorem State.SameActivity.active {s t : State} (h : s.SameActivity t) (i : SlotId) :
    (t.slot i).state.active = (s.slot i).state.active := by
  rcases h i with h | ⟨h1, h2⟩
  · rw [h]
  · rw [h1, h2]

theorem State.SameActivity.onlyActive {s t : State} (h : s.SameActivity t) {a : SlotId} (ha : s.OnlyActive a) :
    t.OnlyActive a := fun i hi => ha i (by rwa [← h.active i])

/-- An active state is kept. -/
theorem State.SameActivity.state {s t : State} (h : s.SameActivity t) {i : SlotId} {x : SlotState}
    (hs : (s.slot i).state = x) (hx : x.active = true) : (t.slot i).state = x := by
  rcases h i with h | ⟨h, -⟩
  · rw [h, hs]
  · simp [hs, hx] at h

/-- An update of a slot record that keeps its state. -/
theorem State.SameActivity.updateSlot (s : State) (i : SlotId) {f : Slot → Slot} (hf : ∀ x, (f x).state = x.state) :
    s.SameActivity (s.updateSlot i f) := by
  intro j
  rw [State.slot_updateSlot]
  split
  · exact .inl (hf _)
  · exact .inl rfl

/-- A phase depends on the timer and the active slots' states only. -/
theorem State.Phase.congr {s t : State} (h : s.Phase) (hs : s.SameActivity t) (ht : t.timer = s.timer) : t.Phase := by
  cases h with
  | quiet hidle htimer => exact .quiet (fun i => (hs.active i).trans (hidle i)) (by rw [ht]; exact htimer)
  | untimed a honly hstate htimer =>
    refine .untimed a (hs.onlyActive honly) ?_ (by rw [ht]; exact htimer)
    exact hstate.imp (fun h => hs.state h rfl) (fun h => hs.state h rfl)
  | timed htimer hfits hticks =>
    refine .timed (by rw [ht]; exact htimer) ⟨?_, ?_⟩ (by rw [ht]; exact hticks)
    · rw [ht]; exact hs.onlyActive hfits.1
    · rw [ht]; exact hs.state hfits.2 s.timer.reason.slotState_active

/-- A state with the same activity and timer as a sound one is sound, if its counter, lines and memory are. -/
theorem State.Sound.congr {s t : State} (h : s.Sound) (hs : s.SameActivity t) (ht : t.timer = s.timer) (hk : t.Steady) :
    t.Sound := State.sound_iff.mpr ⟨h.phase.congr hs ht, hk⟩

theorem State.Sound.quiet {s : State} (hidle : ∀ i, (s.slot i).state.active = false) (htimer : s.timer.armed = false)
    (hk : s.Steady) : s.Sound := State.sound_iff.mpr ⟨.quiet hidle htimer, hk⟩

theorem State.Sound.untimed {s : State} {a : SlotId} (honly : s.OnlyActive a)
    (hstate : (s.slot a).state = .running ∨ (s.slot a).state = .waitingForSignal) (htimer : s.timer.armed = false)
    (hk : s.Steady) : s.Sound := State.sound_iff.mpr ⟨.untimed a honly hstate htimer, hk⟩

/-- Arming the timer for the one active slot, in the state its reason expects, makes a sound state. -/
theorem State.Sound.arm {s : State} {a : SlotId} {r : StartReason} (honly : s.OnlyActive a)
    (hstate : (s.slot a).state = r.slotState) (hk : s.Steady) (tb : TickSource) {n : Nat} (hn : 1 ≤ n) :
    (s.arm r a tb n).Sound :=
  State.sound_iff.mpr ⟨.timed rfl ⟨honly, hstate⟩ hn, hk.counterBounded, hk.linesMatch, hk.memoryWf⟩

/-! ## What a sound state says of its active slot -/

theorem State.Sound.onlyActive {s : State} (h : s.Sound) {a : SlotId} (ha : s.activeSlot = some a) : s.OnlyActive a :=
  fun i hi => h.oneActive i a hi (State.active_of_activeSlot ha)

/-- With no slot active the timer is not armed. -/
theorem State.Sound.unarmed_of_none {s : State} (h : s.Sound) (ha : s.activeSlot = none) : s.timer.armed = false := by
  cases ht : s.timer.armed with
  | false => rfl
  | true => have := (h.timerOwned ht).1; rw [ha] at this; cases this

/-- The timer is not armed where the active slot waits for a signal, or runs and its start is not deferred. -/
theorem State.Sound.unarmed {s : State} (h : s.Sound) {a : SlotId} (ha : s.activeSlot = some a)
    (hstate : (s.slot a).state = .waitingForSignal ∨ ((s.slot a).state = .running ∧ s.deferralArmed = false)) :
    s.timer.armed = false := by
  cases ht : s.timer.armed with
  | false => rfl
  | true =>
    obtain ⟨hown, hslot, -⟩ := h.timerOwned ht
    rw [ha] at hown
    cases hown
    unfold State.deferralArmed at hstate
    cases hr : s.timer.reason <;> simp_all [StartReason.slotState]

/-- Where the executor moves, its slot is the one that is active, it is Running, and no timer is armed. -/
theorem State.Sound.executor {s : State} (h : s.Sound) {a : SlotId} (he : s.executor = some a) :
    s.OnlyActive a ∧ (s.slot a).state = .running ∧ s.timer.armed = false := by
  obtain ⟨ha, -, hrun, hd⟩ := State.executor_eq_some.mp he
  exact ⟨h.onlyActive ha, hrun, h.unarmed ha (.inr ⟨hrun, hd⟩)⟩

/-- An armed timer fits the slots. -/
theorem State.Sound.timerFits {s : State} (h : s.Sound) (ht : s.timer.armed = true) : s.TimerFits :=
  have ⟨ha, hstate, _⟩ := h.timerOwned ht
  ⟨h.onlyActive ha, hstate⟩

/-! ## The counter, the lines and memory -/

theorem State.recompute_linesMatch (s : State) : s.recompute.LinesMatch := ⟨rfl, rfl⟩

/-- Raising conditions and recomputing the lines (60_exceptions.md R280 to R282). -/
theorem State.Steady.raiseFlags {s : State} (h : s.Steady) (c : Conditions) : (s.raiseFlags c).recompute.Steady :=
  ⟨h.counterBounded, State.recompute_linesMatch _, h.memoryWf⟩

theorem State.Sound.setCounter {s : State} (h : s.Sound) {n : Nat} (hn : n ≤ s.params.absCounterLimit) :
    State.Sound { s with absoluteDelayCounter := n } :=
  h.congr (fun _ => .inl rfl) rfl ⟨hn, h.linesMatch, h.memoryWf⟩

theorem State.Sound.setPreOutstanding {s : State} (h : s.Sound) (n : Nat) : State.Sound { s with preOutstanding := n } :=
  h.congr (fun _ => .inl rfl) rfl ⟨h.counterBounded, h.linesMatch, h.memoryWf⟩

theorem State.Sound.setMem {s : State} (h : s.Sound) {m : Memory} (hm : m.wf = true) : State.Sound { s with mem := m } :=
  h.congr (fun _ => .inl rfl) rfl ⟨h.counterBounded, h.linesMatch, hm⟩

theorem State.Sound.raiseFatal {s : State} (h : s.Sound) (r : FaultRecord) : (s.raiseFatal r).Sound :=
  h.congr (fun _ => .inl rfl) rfl ⟨h.counterBounded, h.linesMatch, h.memoryWf⟩

theorem State.Sound.logAccess {s : State} (h : s.Sound) (x : BusAccess) : (s.logAccess x).Sound :=
  h.congr (fun _ => .inl rfl) rfl ⟨h.counterBounded, h.linesMatch, h.memoryWf⟩

/-- An update of a slot record that keeps its state. -/
theorem State.Sound.updateSlot {s : State} (h : s.Sound) (i : SlotId) {f : Slot → Slot} (hf : ∀ x, (f x).state = x.state) :
    (s.updateSlot i f).Sound :=
  h.congr (.updateSlot s i hf) rfl ⟨h.counterBounded, h.linesMatch, h.memoryWf⟩

/-- A slot's record is replaced by an active one where no other slot is active: it is the one active slot. -/
theorem State.onlyActive_updateSlot {s : State} {a : SlotId} (h : s.OnlyActive a) (f : Slot → Slot) :
    (s.updateSlot a f).OnlyActive a := by
  intro i hi
  rw [State.slot_updateSlot] at hi
  split at hi
  · next e => exact e.symm
  · exact h i hi

theorem State.Steady.updateSlot {s : State} (h : s.Steady) (i : SlotId) (f : Slot → Slot) : (s.updateSlot i f).Steady :=
  ⟨h.counterBounded, h.linesMatch, h.memoryWf⟩

theorem State.Steady.disarm {s : State} (h : s.Steady) : s.disarm.Steady :=
  ⟨h.counterBounded, h.linesMatch, h.memoryWf⟩

end Sys2Proof.Machine
end

section
/-! SUPPORT. Every operation of the timer, the counter, the arbiter and the bus leaves a sound state where it started in one. -/

namespace Sys2Proof.Machine

/-! ## The counter and the expiry of the timer -/

theorem zeroAndRestart_sound {s t : State} (hs : s.Sound) (h : zeroAndRestart s = .ok t) : t.Sound := by
  have h0 := hs.setCounter (Nat.zero_le s.params.absCounterLimit)
  rcases zeroAndRestart_eq_ok h with ⟨rfl, -⟩ | ⟨a, tb, ha, hstate, -, -, hticks, rfl⟩
  · exact h0
  · exact .arm (r := .delay) (h0.onlyActive ha) hstate h0.steady tb hticks

theorem countTick_sound {s t : State} {src : TickSource} {n : Nat} (hs : s.Sound) (h : countTick s src n = .ok t) :
    t.Sound := by
  rcases countTick_eq_ok h with ⟨-, hn, rfl⟩ | ⟨-, rfl⟩
  · exact hs.setCounter hn
  · exact hs

theorem resetAbsCounterUnarmed_sound {s t : State} (hs : s.Sound) (h : resetAbsCounterUnarmed s = .ok t) : t.Sound := by
  have h0 := hs.setPreOutstanding 0
  unfold resetAbsCounterUnarmed at h
  simp only at h
  split at h
  · exact zeroAndRestart_sound h0 h
  · split at h
    · cases h
    · next u hu => exact zeroAndRestart_sound (countTick_sound h0 hu) h

theorem postStartAtExpiry_sound {s t : State} {i : SlotId} (hs : s.Sound) (h : postStartAtExpiry s i = .ok t) : t.Sound := by
  unfold postStartAtExpiry at h
  split at h
  · cases h
  · split at h
    · cases h; exact hs
    · exact resetAbsCounterUnarmed_sound hs h

/-- A Delay that is over runs on, and one whose threshold lies ahead is armed again (60_exceptions.md R265). -/
theorem expireDelay_sound {s t : State} {i : SlotId} (honly : s.OnlyActive i) (ht : s.timer.armed = false) (hk : s.Steady)
    (h : expireDelay s i = .ok t) : t.Sound := by
  unfold expireDelay at h
  split at h
  · cases h
  · next hstate =>
    split at h
    · obtain ⟨tb, n, -, hn, rfl⟩ := rearmDelay_eq_ok h
      exact .arm (r := .delay) honly (not_ne_iff.mp hstate) hk tb (remainingDelayTicks_eq_ok hn).1
    · cases h
      exact .untimed (State.onlyActive_updateSlot honly _) (.inl (by simp)) ht (hk.updateSlot ..)

theorem expirePollRetry_sound {s t : State} {i : SlotId} (honly : s.OnlyActive i) (ht : s.timer.armed = false)
    (hk : s.Steady) (h : expirePollRetry s i = .ok t) : t.Sound := by
  unfold expirePollRetry at h
  split at h
  · cases h
  · cases h
    exact .untimed (State.onlyActive_updateSlot honly _) (.inl (by simp [State.slot_setSlotState])) ht (hk.updateSlot ..)

/-- The expiry of a timer that fits the slots; how many ticks the timer had left does not matter. -/
theorem expire_sound {s t : State} (hf : s.TimerFits) (hk : s.Steady) (h : expire s = .ok t) : t.Sound := by
  obtain ⟨honly, hstate⟩ := hf
  unfold expire at h
  split at h
  · next hr =>
    rw [hr] at hstate
    exact postStartAtExpiry_sound (.untimed (s := s.disarm) honly (.inl hstate) rfl hk.disarm) h
  · exact expireDelay_sound (s := s.disarm) honly rfl hk.disarm h
  · exact expirePollRetry_sound (s := s.disarm) honly rfl hk.disarm h

/-! ## Ticks -/

theorem countDown_sound {s t : State} {src : TickSource} {n : Nat} (hs : s.Sound) (h : countDown s src n = .ok t) :
    t.Sound := by
  have hk := hs.steady
  rcases countDown_eq_ok h with rfl | ⟨harmed, -, ⟨hn, rfl⟩ | ⟨-, h⟩⟩
  · exact hs
  · exact State.sound_iff.mpr
      ⟨.timed harmed (hs.timerFits harmed) (Nat.sub_pos_of_lt hn), hk.counterBounded, hk.linesMatch, hk.memoryWf⟩
  · exact expire_sound (s := { s with timer := { s.timer with remaining := 0 } }) (hs.timerFits harmed)
      ⟨hk.counterBounded, hk.linesMatch, hk.memoryWf⟩ h

theorem tick_sound {s t : State} {src : TickSource} {n : Nat} (hs : s.Sound) (h : tick s src n = .ok t) : t.Sound := by
  obtain ⟨u, hu, h⟩ := tick_eq_ok h
  exact countDown_sound (countTick_sound hs hu) h

theorem resetAbsCounter_sound {s t : State} (hs : s.Sound) (h : resetAbsCounter s = .ok t) : t.Sound := by
  have h0 := hs.setPreOutstanding 0
  rcases resetAbsCounter_eq_ok h with ⟨-, h⟩ | ⟨-, u, hu, h⟩
  · exact zeroAndRestart_sound h0 h
  · exact zeroAndRestart_sound (tick_sound h0 hu) h

/-! ## Start and the arbiter -/

/-- With no slot active, a slot that starts is the one that is. -/
theorem onlyActive_started {s : State} (hidle : ∀ j, (s.slot j).state.active = false) (i : SlotId) :
    (s.updateSlot i Slot.started).OnlyActive i :=
  State.onlyActive_updateSlot (fun j hj => by simp [hidle j] at hj) _

theorem startDeferred_sound {s : State} (hidle : ∀ j, (s.slot j).state.active = false) (hk : s.Steady) (i : SlotId) :
    (startDeferred s i).Sound :=
  .arm (r := .deferredStart) (onlyActive_started hidle i) (by simp [StartReason.slotState]) (hk.updateSlot ..) _ le_rfl

theorem start_sound {s t : State} {i : SlotId} {deferred : Bool} (hidle : ∀ j, (s.slot j).state.active = false)
    (ht : s.timer.armed = false) (hk : s.Steady) (h : start s i deferred = .ok t) : t.Sound := by
  have hrun : (s.updateSlot i Slot.started).Sound :=
    .untimed (onlyActive_started hidle i) (.inl (by simp)) ht (hk.updateSlot ..)
  unfold start postStart at h
  split at h
  · cases h; exact startDeferred_sound hidle hk i
  · split at h
    · cases h
    · split at h
      · cases h; exact hrun
      · exact resetAbsCounter_sound hrun h

/-- Slots that are not active become Pending. -/
theorem makePending_sameActivity {s : State} {m : SlotMask} (hm : ∀ i, inMask m i = true → (s.slot i).state.active = false) :
    s.SameActivity (s.makePending m) := by
  intro i
  rw [State.slot_makePending]
  split
  · next hi => exact .inr ⟨hm i hi, rfl⟩
  · exact .inl rfl

theorem arbitrate_sound {s t : State} {m : SlotMask} {deferred : Bool} (hs : s.Sound)
    (hm : ∀ i, inMask m i = true → (s.slot i).state = .idle) (h : arbitrate s m deferred = .ok t) : t.Sound := by
  have hk := hs.steady
  have hinactive : ∀ i, inMask m i = true → (s.slot i).state.active = false := fun i hi => by rw [hm i hi]; rfl
  rcases arbitrate_eq_ok h with ⟨i0, hnone, -, h⟩ | ⟨-, rfl⟩
  · have hidle := State.activeSlot_eq_none.mp hnone
    have hsame := makePending_sameActivity (s := s) (m := m &&& ~~~(1#8 <<< i0.val)) fun i _ => hidle i
    exact start_sound (fun j => (hsame.active j).trans (hidle j)) (hs.unarmed_of_none hnone)
      ⟨hk.counterBounded, hk.linesMatch, hk.memoryWf⟩ h
  · exact hs.congr (makePending_sameActivity hinactive) rfl ⟨hk.counterBounded, hk.linesMatch, hk.memoryWf⟩

theorem requestStart_sound {s t : State} {m : SlotMask} {deferred : Bool} (hs : s.Sound)
    (h : requestStart s m deferred = .ok t) : t.Sound := by
  rcases requestStart_eq_ok h with rfl | ⟨m', hm, h⟩
  · exact hs
  · exact arbitrate_sound hs (fun i hi => (hm i hi).2) h

/-! ## Dispatch, completion and abort -/

/-- Where no slot is active and the timer is not armed, Dispatch starts a Pending slot or does nothing. -/
theorem dispatch_sound {s : State} (hidle : ∀ j, (s.slot j).state.active = false) (ht : s.timer.armed = false)
    (hk : s.Steady) : (dispatch s).Sound := by
  unfold dispatch
  split
  · exact startDeferred_sound hidle hk _
  · exact .quiet hidle ht hk

theorem complete_sound {s : State} {a : SlotId} (hs : s.Sound) (he : s.executor = some a) : (complete s a).Sound := by
  obtain ⟨honly, -, ht⟩ := hs.executor he
  refine dispatch_sound (fun j => ?_) ht ((hs.steady.updateSlot a _).raiseFlags _)
  rw [State.recompute_slot, State.raiseFlags_slot, State.slot_setSlotState]
  split
  · rfl
  · next hj => exact Bool.eq_false_iff.mpr fun hact => hj (honly j hact).symm

/-- An aborted slot is Idle, the others are as they were. -/
theorem slot_abortOnly (s : State) (m : SlotMask) (i : SlotId) :
    (abortOnly s m).slot i = if abortTargets s m i then (s.slot i).aborted else s.slot i := by
  unfold abortOnly
  simp only
  split <;> split <;> simp

/-- An abort disarms the timer where it takes the active slot. -/
theorem abortOnly_timer (s : State) (m : SlotMask) :
    (abortOnly s m).timer = if abortHits s m then s.disarm.timer else s.timer := by
  unfold abortOnly
  simp only
  split <;> split <;> rfl

theorem abortOnly_steady {s : State} (hk : s.Steady) (m : SlotMask) : (abortOnly s m).Steady := by
  have h1 : (if abortHits s m then s.disarm else s).Steady := by
    split
    · exact hk.disarm
    · exact hk
  unfold abortOnly
  simp only
  generalize (if abortHits s m then s.disarm else s) = u at *
  have h2 : (u.abortSlots (abortTargets s m)).Steady := ⟨h1.counterBounded, h1.linesMatch, h1.memoryWf⟩
  split
  · exact h2.raiseFlags _
  · exact h2

theorem abortHits_of_activeSlot {s : State} {a : SlotId} (h : s.activeSlot = some a) (m : SlotMask) :
    abortHits s m = abortTargets s m a := by
  unfold abortHits
  rw [h]

/-- An abort that takes the active slot leaves no slot active. -/
theorem abortOnly_idle {s : State} (hs : s.Sound) {m : SlotMask} (hit : abortHits s m = true) (i : SlotId) :
    ((abortOnly s m).slot i).state.active = false := by
  unfold abortHits at hit
  split at hit
  · next a ha =>
    rw [slot_abortOnly]
    split
    · rfl
    · next hi => exact Bool.eq_false_iff.mpr fun hact => hi (by rw [hs.onlyActive ha i hact]; exact hit)
  · cases hit

/-- An abort that does not take the active slot leaves it as it is. -/
theorem abortOnly_sameActivity {s : State} (hs : s.Sound) {m : SlotMask} (hit : abortHits s m = false) :
    s.SameActivity (abortOnly s m) := by
  intro i
  rw [slot_abortOnly]
  split
  · next hi =>
    refine .inr ⟨Bool.eq_false_iff.mpr fun hact => ?_, rfl⟩
    rw [abortHits_of_activeSlot (State.activeSlot_of_active hs.oneActive hact), hi] at hit
    cases hit
  · exact .inl rfl

theorem abort_sound {s : State} (hs : s.Sound) (m : SlotMask) : (abort s m).Sound := by
  have hk := abortOnly_steady hs.steady m
  cases hit : abortHits s m with
  | true =>
    have hidle := abortOnly_idle hs hit
    have ht : (abortOnly s m).timer.armed = false := by rw [abortOnly_timer, hit]; rfl
    unfold abort
    split
    · exact dispatch_sound hidle ht hk
    · exact .quiet hidle ht hk
  | false =>
    unfold abort
    rw [hit, Bool.false_and, if_neg (by decide)]
    exact hs.congr (abortOnly_sameActivity hs hit) (by rw [abortOnly_timer, hit]; rfl) hk

/-! ## Bus errors -/

theorem busError_sound {s : State} (hk : s.Steady) (addr : Word) : (s.busError addr).Sound :=
  .quiet (fun i => by rw [State.busError_idle]; rfl) rfl
    ⟨hk.counterBounded, State.recompute_linesMatch _, hk.memoryWf⟩

end Sys2Proof.Machine
end

section
/-! SUPPORT. Every instruction and every turn keeps the state sound. -/

namespace Sys2Proof.Machine

/-! ## Runs of bus accesses -/

/-- What a run of accesses of a sound state leaves: the bus's memory in canonical form and the trace, nothing else changed. -/
def State.BusSound (s t : State) : Prop := s.BusOnly t ∧ t.mem.wf = true

theorem State.BusSound.trans {s t u : State} (h1 : s.BusSound t) (h2 : t.BusSound u) : s.BusSound u :=
  ⟨h1.1.trans h2.1, h2.2⟩

theorem State.BusSound.sound {s t : State} (h : s.BusSound t) (hs : s.Sound) : t.Sound := by
  obtain ⟨hbus, hm⟩ := h
  have hk := hs.steady
  rw [hbus]
  exact hs.congr (fun _ => .inl rfl) rfl ⟨hk.counterBounded, hk.linesMatch, hm⟩

/-- Two facts about the states a run of accesses can leave. -/
theorem Access.After.and {α : Type} {x : Access α} {P Q : State → Prop} (hP : x.After P) (hQ : x.After Q) :
    x.After fun t => P t ∧ Q t := by
  cases x with
  | done v t => exact ⟨hP, hQ⟩
  | failed addr t => exact ⟨hP, hQ⟩
  | refused r => trivial

theorem memRead_busSound {s : State} (hw : s.mem.wf = true) (addr : Word) : (memRead s addr).After s.BusSound :=
  (memRead_after s addr).mono fun _ h => ⟨h.1, by rw [h.2]; exact hw⟩

theorem copyWords_busSound {s : State} (hw : s.mem.wf = true) (n : Nat) (src dst : Word) :
    (copyWords 4 n src dst s).After s.BusSound :=
  ((copyWords_after ..).and (copyWords_stays n src dst hw)).mono fun _ h => ⟨h.1, h.2.1⟩

theorem copyWords_fixed_busSound {s : State} (hw : s.mem.wf = true) (n : Nat) (src dst : Word) :
    (copyWords 0 n src dst s).After s.BusSound :=
  ((copyWords_after ..).and (copyWords_fixed_stays n src dst hw)).mono fun _ h => ⟨h.1, h.2.1⟩

theorem combineWords_busSound (op : Word → Word → Word) {s : State} (hw : s.mem.wf = true) (n : Nat) (src dst : Word) :
    (combineWords op n src dst s).After s.BusSound :=
  ((combineWords_after ..).and (combineWords_stays op n src dst hw)).mono fun _ h => ⟨h.1, h.2.1⟩

/-- A read and the accesses after it. -/
theorem memRead_andThen_busSound {α : Type} {s : State} (hw : s.mem.wf = true) (addr : Word) {k : Word → State → Access α}
    (hk : ∀ v t, t.mem.wf = true → (k v t).After t.BusSound) : ((memRead s addr).andThen k).After s.BusSound :=
  (memRead_busSound hw addr).andThen (fun _ h => h) fun v t ht => (hk v t ht.2).mono fun _ h => ht.trans h

theorem skipTest_busSound {s : State} (hw : s.mem.wf = true) (cond : SkipCondition) (inl tgt : Word) :
    (skipTest cond inl tgt s).After s.BusSound := by
  cases cond with
  | reg p =>
    exact memRead_andThen_busSound hw tgt fun v t ht => memRead_andThen_busSound ht inl fun d u hu => ⟨.refl u, hu⟩
  | sig p => exact memRead_andThen_busSound hw inl fun d t ht => ⟨.refl t, ht⟩

/-! ## Instructions -/

/-- An instruction that ends in `k` after its accesses keeps the state sound if `k` does where the executor still runs the
instruction's slot; a bus error does in any case. -/
theorem outcome_sound {α : Type} {s t : State} {a : SlotId} {x : Access α} {k : α → State → Outcome} (hs : s.Sound)
    (he : s.executor = some a) (hx : x.After s.BusSound)
    (hk : ∀ v u, u.Sound → u.executor = some a → k v u = .next t → t.Sound) (h : x.outcome k = .next t) : t.Sound := by
  rcases hx.outcome_next h with ⟨v, u, -, hu, h⟩ | ⟨addr, u, hu, rfl⟩
  · exact hk v u (hu.sound hs) (hu.1.executor.trans he) h
  · exact busError_sound (hu.sound hs).steady addr

theorem continueAt_sound {s t : State} {a : SlotId} {next : Word} (hs : s.Sound) (h : s.continueAt a next = .next t) :
    t.Sound := by
  cases h
  exact hs.updateSlot a fun _ => rfl

/-- An instruction that goes on at the next one after its accesses. -/
theorem outcome_continueAt_sound {α : Type} {s t : State} {a : SlotId} {x : Access α} {next : α → Word} (hs : s.Sound)
    (he : s.executor = some a) (hx : x.After s.BusSound) (h : (x.outcome fun v u => u.continueAt a (next v)) = .next t) :
    t.Sound :=
  outcome_sound hs he hx (fun _ _ hu _ h => continueAt_sound hu h) h

theorem execDelay_sound (mode : DelayMode) (base : BaseIndex) (offset : Nat) {s t : State} (hs : s.Sound)
    (h : execDelay mode base offset s = .next t) : t.Sound := by
  obtain ⟨a, he, h⟩ := State.onExecutor_next h
  refine outcome_sound hs he (memRead_busSound hs.memoryWf _) (fun T u hu hue h => ?_) h
  obtain ⟨honly, -, -⟩ := hu.executor hue
  split at h
  · next w hw =>
    cases h
    obtain ⟨tb, n, -, hn, rfl⟩ := armDelay_eq_ok hw
    exact .arm (r := .delay) (State.onlyActive_updateSlot honly _) (by simp [Slot.delayed, StartReason.slotState])
      (hu.steady.updateSlot ..) tb (remainingDelayTicks_eq_ok hn).1
  · cases h; exact hu.raiseFatal _

theorem execWaitForReg_sound (p : Predicate) (base : BaseIndex) (offset : Nat) {s t : State} (hs : s.Sound)
    (h : execWaitForReg p base offset s = .next t) : t.Sound := by
  obtain ⟨a, he, h⟩ := State.onExecutor_next h
  refine outcome_sound hs he ?_ (fun vd u hu hue h => ?_) h
  · exact memRead_andThen_busSound hs.memoryWf _ fun v t ht => memRead_andThen_busSound ht _ fun d u hu => ⟨.refl u, hu⟩
  · split at h
    · exact continueAt_sound hu h
    · cases h
      exact .arm (r := .pollRetry) (State.onlyActive_updateSlot (hu.executor hue).1 _)
        (by simp [StartReason.slotState]) (hu.steady.updateSlot ..) _ le_rfl

theorem execWaitForSig_sound (p : Predicate) (base : BaseIndex) (offset : Nat) {s t : State} (hs : s.Sound)
    (h : execWaitForSig p base offset s = .next t) : t.Sound := by
  obtain ⟨a, he, h⟩ := State.onExecutor_next h
  refine outcome_sound hs he (memRead_busSound hs.memoryWf _) (fun d u hu hue h => ?_) h
  obtain ⟨honly, -, ht⟩ := hu.executor hue
  split at h
  · exact continueAt_sound hu h
  · cases h
    exact .untimed (State.onlyActive_updateSlot honly _) (.inr (by simp)) ht (hu.steady.updateSlot ..)

theorem execSetTrig_sound (op : TrigOp) (base : BaseIndex) (offset : Nat) {s t : State} (hs : s.Sound)
    (h : execSetTrig op base offset s = .next t) : t.Sound := by
  obtain ⟨a, he, h⟩ := State.onExecutor_next h
  refine outcome_sound hs he (memRead_busSound hs.memoryWf _) (fun m u hu _ h => ?_) h
  have htrig : State.Sound { u with triggerBitmask := trigApply op u.triggerBitmask m } :=
    hu.congr (fun _ => .inl rfl) rfl ⟨hu.counterBounded, hu.linesMatch, hu.memoryWf⟩
  exact continueAt_sound htrig h

theorem execEndSeqOrNop_sound (op : EndOp) (base : BaseIndex) (offset : Nat) {s t : State} (hs : s.Sound)
    (h : execEndSeqOrNop op base offset s = .next t) : t.Sound := by
  obtain ⟨a, he, h⟩ := State.onExecutor_next h
  cases op with
  | nop => exact continueAt_sound hs h
  | endSeq => cases h; exact complete_sound hs he

theorem exec_sound {i : Instr} {s t : State} (hs : s.Sound) (h : exec i s = .next t) : t.Sound := by
  have hw : s.mem.wf = true := hs.memoryWf
  cases i with
  | write base offset n =>
    obtain ⟨a, he, h⟩ := State.onExecutor_next h
    exact outcome_continueAt_sound hs he (copyWords_busSound hw ..) h
  | writeNoInc base offset n =>
    obtain ⟨a, he, h⟩ := State.onExecutor_next h
    exact outcome_continueAt_sound hs he (copyWords_fixed_busSound hw ..) h
  | mov base offset n =>
    obtain ⟨a, he, h⟩ := State.onExecutor_next h
    refine outcome_continueAt_sound hs he ?_ h
    split <;> exact copyWords_busSound hw ..
  | movNoInc base offset n =>
    obtain ⟨a, he, h⟩ := State.onExecutor_next h
    exact outcome_continueAt_sound hs he (copyWords_fixed_busSound hw ..) h
  | moveBlock base offset n =>
    obtain ⟨a, he, h⟩ := State.onExecutor_next h
    refine outcome_continueAt_sound hs he (memRead_andThen_busSound hw _ fun ind t ht => ?_) h
    split <;> exact copyWords_busSound ht ..
  | and base offset n =>
    obtain ⟨a, he, h⟩ := State.onExecutor_next h
    exact outcome_continueAt_sound hs he (combineWords_busSound _ hw ..) h
  | xor base offset n =>
    obtain ⟨a, he, h⟩ := State.onExecutor_next h
    exact outcome_continueAt_sound hs he (combineWords_busSound _ hw ..) h
  | or base offset n =>
    obtain ⟨a, he, h⟩ := State.onExecutor_next h
    exact outcome_continueAt_sound hs he (combineWords_busSound _ hw ..) h
  | delay mode base offset => exact execDelay_sound mode base offset hs h
  | waitForReg p base offset => exact execWaitForReg_sound p base offset hs h
  | waitForSig p base offset => exact execWaitForSig_sound p base offset hs h
  | jump mode base offset =>
    obtain ⟨a, he, h⟩ := State.onExecutor_next h
    exact outcome_continueAt_sound hs he (memRead_busSound hw _) h
  | setTrig op base offset => exact execSetTrig_sound op base offset hs h
  | skipCond cond base offset =>
    obtain ⟨a, he, h⟩ := State.onExecutor_next h
    exact outcome_continueAt_sound hs he (skipTest_busSound hw ..) h
  | endSeqOrNop op base offset => exact execEndSeqOrNop_sound op base offset hs h
  | reserved payload =>
    obtain ⟨a, -, h⟩ := State.onExecutor_next h
    cases h; exact hs.raiseFatal _

theorem executorStep_sound {s t : State} (hs : s.Sound) (h : executorStep s = .next t) : t.Sound := by
  rcases executorStep_eq_next h with ⟨-, rfl⟩ | ⟨a, -, ⟨-, rfl⟩ | ⟨w, -, ⟨r, -, rfl⟩ | ⟨i, -, h⟩⟩⟩
  · exact hs
  · exact busError_sound (hs.logAccess _).steady _
  · exact (hs.logAccess _).raiseFatal _
  · exact exec_sound (hs.logAccess _) h

/-! ## The host's writes -/

theorem hostWriteCmd_sound {s t : State} {v : Word} (hs : s.Sound) (h : hostWriteCmd s v = .ok t) : t.Sound := by
  unfold hostWriteCmd at h
  simp only at h
  have habort : (if v.extractLsb' 8 8 = 0 then s else abort s (v.extractLsb' 8 8)).Sound := by
    split
    · exact hs
    · exact abort_sound hs _
  generalize (if v.extractLsb' 8 8 = 0 then s else abort s (v.extractLsb' 8 8)) = s1 at *
  unfold Except.andThenState at h
  split at h
  · next u hu =>
    have hreset : u.Sound := by
      split at hu
      · exact resetAbsCounter_sound habort hu
      · cases hu; exact habort
    split at h
    · cases h; exact hreset
    · exact requestStart_sound hreset h
  · cases h

theorem hostWriteReg_sound {s t : State} {r : HostReg} {v : Word} (hs : s.Sound) (h : hostWriteReg s r v = .ok t) :
    t.Sound := by
  obtain ⟨hc, hl, hm⟩ := hs.steady
  cases r with
  | cmd => exact hostWriteCmd_sound hs h
  | status | seqAddr | busErrAddr => cases h; exact hs
  | en | config | eqMaskA | eqMaskB | baseAddr => cases h; exact hs.congr (fun _ => .inl rfl) rfl ⟨hc, hl, hm⟩
  | ifReg | ien | seqIf | seqIen => cases h; exact hs.congr (fun _ => .inl rfl) rfl ⟨hc, State.recompute_linesMatch _, hm⟩
  | seqStart i => cases h; exact hs.updateSlot i fun _ => rfl
  | seqCfg i => cases h; exact hs.updateSlot i fun _ => rfl

/-! ## The environment's events -/

/-- A signal that wakes a slot finds no timer armed: the slot waits for the signal (43_wait.md R176). -/
theorem signalSet_sound {s : State} (hs : s.Sound) (m : Word) : (signalSet s m).Sound := by
  have h1 : State.Sound { s with signalBitmask := s.signalBitmask ||| m } :=
    hs.congr (fun _ => .inl rfl) rfl ⟨hs.counterBounded, hs.linesMatch, hs.memoryWf⟩
  unfold signalSet
  simp only
  split
  · next a ha =>
    split
    · next hwait =>
      exact .untimed (State.onlyActive_updateSlot (h1.onlyActive ha) _) (.inl (by simp)) (h1.unarmed ha (.inl hwait.1))
        (h1.steady.updateSlot ..)
    · exact h1
  · exact h1

theorem reset_linesMatch : State.reset.LinesMatch := by unfold State.LinesMatch; decide

/-- Reset: nothing runs, nothing waits, the counter is 0 and the lines are down, whatever stands outside the block. -/
theorem sound_of_reset_fields {s : State} (hslots : s.slots = State.reset.slots) (htimer : s.timer = State.reset.timer)
    (hcounter : s.absoluteDelayCounter = 0) (hlines : s.LinesMatch) (hm : s.mem.wf = true) : s.Sound := by
  refine .quiet (fun i => ?_) (by rw [htimer]; rfl) ⟨by rw [State.CounterBounded, hcounter]; exact Nat.zero_le _, hlines, hm⟩
  rw [State.slot, hslots]
  simp [State.reset, Slot.reset, SlotState.active]

theorem resetBlock_sound {s : State} (hm : s.mem.wf = true) : (resetBlock s).Sound :=
  sound_of_reset_fields rfl rfl rfl reset_linesMatch hm

/-! ## The step -/

theorem settle_sound {s t : State} {x : Except Raise State} (hs : s.Sound) (hx : ∀ u, x = .ok u → u.Sound)
    (h : s.settle x = .next t) : t.Sound := by
  rcases State.settle_eq_next h with h | ⟨e, -, rfl⟩
  · exact hx t h
  · exact (hs.setPreOutstanding _).raiseFatal _

theorem tickEvent_sound {s t : State} {src : TickSource} {n : Nat} (hs : s.Sound) (h : tickEvent s src n = .next t) :
    t.Sound := by
  unfold tickEvent at h
  split at h
  · cases h; exact hs
  · exact settle_sound hs (fun _ => tick_sound hs) h

/-- A write of another master leaves memory in canonical form. -/
theorem busWrite_wf {s : State} {addr v : Word} {m : Memory} (hm : s.mem.wf = true) (h : s.busWrite addr v = .value m) :
    m.wf = true := by
  rcases State.busWrite_cases h with rfl | rfl
  · exact hm
  · exact Memory.wf_writeWord hm _ _ _

theorem takeTurn_sound {turn : Turn} {s t : State} (hs : s.Sound) (h : takeTurn turn s = .next t) : t.Sound := by
  cases turn with
  | executor => exact executorStep_sound hs h
  | hostRead w off =>
    simp only [takeTurn, hostRead] at h
    split at h
    · cases h
    · split at h
      · cases h
        exact hs.congr (fun _ => .inl rfl) rfl ⟨hs.counterBounded, hs.linesMatch, hs.memoryWf⟩
      · cases h
  | hostWrite w off v =>
    simp only [takeTurn, hostWrite] at h
    split at h
    · cases h
    · split at h
      · exact settle_sound hs (fun _ => hostWriteReg_sound hs) h
      · cases h
  | masterWrite addr v =>
    simp only [takeTurn, masterWrite] at h
    split at h <;> cases h
    · next hb => exact hs.setMem (busWrite_wf hs.memoryWf hb)
    · exact hs
  | masterWriteByte addr b =>
    simp only [takeTurn, masterWriteByte] at h
    split at h
    · cases h
    · split at h <;> cases h
      · exact hs
      · exact hs
      · exact hs.setMem (Memory.wf_setByteAt hs.memoryWf addr b)
  | preAccrue => cases h; exact hs.setPreOutstanding _
  | preOverflow =>
    simp only [takeTurn, preOverflow] at h
    split at h
    · cases h; exact hs
    · exact settle_sound hs (fun _ => tick_sound (hs.setPreOutstanding 0)) h
  | baseOverflow n => exact tickEvent_sound hs h
  | wrapOverflow n => exact tickEvent_sound hs h
  | captureCompare c => exact settle_sound hs (fun _ => requestStart_sound hs) h
  | hwEvent e => exact settle_sound hs (fun _ => requestStart_sound hs) h
  | pollTick => exact settle_sound hs (fun _ => countDown_sound hs) h
  | timerExpire =>
    simp only [takeTurn, timerExpire] at h
    split at h
    · next harmed => exact settle_sound hs (fun _ => expire_sound (hs.timerFits harmed.1) hs.steady) h
    · cases h; exact hs
  | signalSet m => cases h; exact signalSet_sound hs m
  | signalClear m =>
    cases h
    exact hs.congr (fun _ => .inl rfl) rfl ⟨hs.counterBounded, hs.linesMatch, hs.memoryWf⟩
  | reset => cases h; exact resetBlock_sound hs.memoryWf

theorem turnStart_sound {s : State} (hs : s.Sound) : s.turnStart.Sound :=
  hs.congr (fun _ => .inl rfl) rfl ⟨hs.counterBounded, hs.linesMatch, hs.memoryWf⟩

end Sys2Proof.Machine

open Sys2Proof Sys2Proof.Machine

/-- Settles O58: no slot is active after reset, the timer is not armed and no flag is set. -/
theorem resetIsSound : Obligations.ResetIsSound := by
  unfold Obligations.ResetIsSound
  intro params mem schedule hm
  exact sound_of_reset_fields rfl rfl rfl reset_linesMatch hm

/-- Settles O59, by cases on the turn that the step takes. -/
theorem stepKeepsSound : Obligations.StepKeepsSound := by
  unfold Obligations.StepKeepsSound
  intro s t hs h
  exact takeTurn_sound (turnStart_sound hs) (step_eq_next h).2

end

section
/-! SUPPORT. What the host alone configures, as one record, and the frame of a step around it and around the signals. -/

namespace Sys2Proof.Machine

/-! ## The configuration -/

/-- The fields only host writes and reset set (10_state.md R21, R24, R35 to R39, R42). -/
structure HostConfig where
  baseAddress : Vector Word 16
  contWritePos : BitVec 5
  basePos : BitVec 5
  timeBase : TimeBase
  en : Bool
  eqMaskA : Word
  eqMaskB : Word
  ien : Conditions
  seqIen : Conditions
  startAddress : SlotId → Word
  hardwareStartSelect : SlotId → BitVec 8
  hardwareTriggerMode : SlotId → BitVec 2
  disableAbsoluteDelayReset : SlotId → Bool
  movSwapAddresses : SlotId → Bool

/-- What the host has configured in a state. -/
def State.hostConfig (s : State) : HostConfig where
  baseAddress := s.baseAddress
  contWritePos := s.contWritePos
  basePos := s.basePos
  timeBase := s.timeBase
  en := s.en
  eqMaskA := s.eqMaskA
  eqMaskB := s.eqMaskB
  ien := s.ien
  seqIen := s.seqIen
  startAddress i := (s.slot i).startAddress
  hardwareStartSelect i := (s.slot i).hardwareStartSelect
  hardwareTriggerMode i := (s.slot i).hardwareTriggerMode
  disableAbsoluteDelayReset i := (s.slot i).disableAbsoluteDelayReset
  movSwapAddresses i := (s.slot i).movSwapAddresses

/-- `t` has the configuration, the parameters and the signals of `s`. -/
structure State.Keeps (s t : State) : Prop where
  config : t.hostConfig = s.hostConfig
  params : t.params = s.params
  signals : t.signalBitmask = s.signalBitmask

theorem State.Keeps.trans {s t u : State} (h1 : s.Keeps t) (h2 : t.Keeps u) : s.Keeps u :=
  ⟨h2.config.trans h1.config, h2.params.trans h1.params, h2.signals.trans h1.signals⟩

theorem State.BusOnly.keeps {s t : State} (h : s.BusOnly t) : s.Keeps t :=
  ⟨by rw [h]; rfl, h.params, by rw [h]⟩

theorem State.Keeps.triggerBitmask (s : State) (v : Word) : s.Keeps { s with triggerBitmask := v } := ⟨rfl, rfl, rfl⟩

theorem State.Keeps.raiseFatal (s : State) (r : FaultRecord) : s.Keeps (s.raiseFatal r) := ⟨rfl, rfl, rfl⟩

/-- The sequencer's operations leave the configuration and the signals alone. -/
theorem State.SequencerOnly.keeps {s t : State} (h : s.SequencerOnly t) : s.Keeps t where
  config := by
    have hstart : ∀ i, (t.slot i).startAddress = (s.slot i).startAddress := fun i => by rw [h.config i]
    have hselect : ∀ i, (t.slot i).hardwareStartSelect = (s.slot i).hardwareStartSelect := fun i => by rw [h.config i]
    have hmode : ∀ i, (t.slot i).hardwareTriggerMode = (s.slot i).hardwareTriggerMode := fun i => by rw [h.config i]
    have hreset : ∀ i, (t.slot i).disableAbsoluteDelayReset = (s.slot i).disableAbsoluteDelayReset :=
      fun i => by rw [h.config i]
    have hswap : ∀ i, (t.slot i).movSwapAddresses = (s.slot i).movSwapAddresses := fun i => by rw [h.config i]
    unfold State.hostConfig
    simp only [hstart, hselect, hmode, hreset, hswap]
    rw [h.rest]
  params := by rw [h.rest]
  signals := by rw [h.rest]

/-! ## The turns -/

/-- No instruction writes the configuration, the parameters or the signals. -/
theorem exec_keeps {i : Instr} {s t : State} (h : exec i s = .next t) : s.Keeps t := by
  obtain ⟨u, hbus, heffect⟩ := exec_effect h
  refine hbus.keeps.trans ?_
  cases heffect with
  | sequencer h => exact h.keeps
  | fault r h => rw [h]; exact .raiseFatal u r
  | trigger op base offset hi v h => exact (State.Keeps.triggerBitmask u v).trans h.keeps

theorem executorStep_keeps {s t : State} (h : executorStep s = .next t) : s.Keeps t := by
  have hlog : ∀ x, s.Keeps (s.logAccess x) := fun x => (State.BusOnly.logAccess s x).keeps
  rcases executorStep_eq_next h with ⟨-, rfl⟩ | ⟨a, -, ⟨-, rfl⟩ | ⟨w, -, ⟨r, -, rfl⟩ | ⟨i, -, h⟩⟩⟩
  · exact (State.BusOnly.refl t).keeps
  · exact (hlog _).trans (busError_only _ _).keeps
  · exact (hlog _).trans (.raiseFatal _ _)
  · exact (hlog _).trans (exec_keeps h)

/-- A host write of a register leaves the parameters and the signals alone. -/
theorem hostWriteReg_frame {s t : State} {r : HostReg} {v : Word} (h : hostWriteReg s r v = .ok t) :
    t.params = s.params ∧ t.signalBitmask = s.signalBitmask := by
  cases r with
  | cmd =>
    have hk := (hostWriteCmd_only h).keeps
    exact ⟨hk.params, hk.signals⟩
  | _ => cases h; exact ⟨rfl, rfl⟩

/-- SignalSet changes the signals and may wake the slot that waits for them (43_wait.md R176). -/
theorem signalSet_only (s : State) (m : Word) :
    State.SequencerOnly { s with signalBitmask := s.signalBitmask ||| m } (signalSet s m) := by
  unfold signalSet
  simp only
  split
  · split
    · exact .updateSlot _ _ fun _ => rfl
    · exact .refl _
  · exact .refl _

theorem signalSet_frame (s : State) (m : Word) :
    (signalSet s m).hostConfig = s.hostConfig ∧ (signalSet s m).params = s.params :=
  have hk := (signalSet_only s m).keeps
  ⟨hk.config, hk.params⟩

/-- What a turn leaves alone: the parameters in any case, the configuration but for a host write and reset, the signals but for
their events and reset. -/
structure TurnFrame (s : State) (turn : Turn) (t : State) : Prop where
  params : t.params = s.params
  config : t.hostConfig = s.hostConfig ∨ turn = .reset ∨ ∃ w off v, turn = .hostWrite w off v
  signals : t.signalBitmask = s.signalBitmask ∨ turn = .reset ∨ ∃ m, turn = .signalSet m ∨ turn = .signalClear m

theorem State.Keeps.turnFrame {s t : State} (h : s.Keeps t) (turn : Turn) : TurnFrame s turn t :=
  ⟨h.params, .inl h.config, .inl h.signals⟩

theorem takeTurn_frame {s t : State} {turn : Turn} (h : takeTurn turn s = .next t) : TurnFrame s turn t := by
  cases takeTurn_effect h with
  | executor ht h => exact (executorStep_keeps h).turnFrame turn
  | sequencer ht h => exact h.keeps.turnFrame turn
  | fault ht n r h => exact State.Keeps.turnFrame (s := s) (h ▸ ⟨rfl, rfl, rfl⟩) turn
  | hostWrite off v r ht hr h =>
    obtain ⟨hparams, hsignals⟩ := hostWriteReg_frame h
    exact ⟨hparams, .inr (.inr ⟨_, off, v, ht⟩), .inl hsignals⟩
  | hostRead ht v n h => exact State.Keeps.turnFrame (s := s) (h ▸ ⟨rfl, rfl, rfl⟩) turn
  | memory m ht h => exact State.Keeps.turnFrame (s := s) (h ▸ ⟨rfl, rfl, rfl⟩) turn
  | signalSet m ht h =>
    subst h
    obtain ⟨hconfig, hparams⟩ := signalSet_frame s m
    exact ⟨hparams, .inl hconfig, .inr (.inr ⟨m, .inl ht⟩)⟩
  | signalClear m ht h => subst h; exact ⟨rfl, .inl rfl, .inr (.inr ⟨m, .inr ht⟩)⟩
  | reset ht h => subst h; exact ⟨rfl, .inr (.inl ht), .inr (.inl ht)⟩

/-- The schedule that moves on is no part of the frame. -/
theorem step_frame {s t : State} (h : step s = .next t) : TurnFrame s (nextTurn s).1 t :=
  have hturn := takeTurn_frame (step_eq_next h).2
  ⟨hturn.params, hturn.config, hturn.signals⟩

end Sys2Proof.Machine

open Sys2Proof Sys2Proof.Machine

/-- Settles O40, by the frame of a step. -/
theorem signalsChangeOnlyByEvents : Obligations.SignalsChangeOnlyByEvents := by
  unfold Obligations.SignalsChangeOnlyByEvents
  intro s t h hchange
  exact (step_frame h).signals.resolve_left hchange

/-- Settles O43, by the frame of a step. -/
theorem configurationWrittenByHostOnly : Obligations.ConfigurationWrittenByHostOnly := by
  unfold Obligations.ConfigurationWrittenByHostOnly
  refine ⟨fun s t h => (step_frame h).params, fun s t h hreset hwrite => ?_⟩
  have heq : t.hostConfig = s.hostConfig := by
    rcases (step_frame h).config with heq | hr | ⟨w, off, v, hw⟩
    · exact heq
    · exact absurd hr hreset
    · exact absurd hw (hwrite w off v)
  simpa [State.hostConfig, funext_iff, forall_and] using heq

end

section
/-! SUPPORT. The host's register surface: what an access answers, what a write reads back, and the reset event. -/

namespace Sys2Proof.Machine

/-! ## Accesses -/

theorem hostRead_of_regAt {s : State} {off : Word} {r : HostReg} (h : s.regAt off = some r) :
    takeTurn (.hostRead .word off) s = .next (hostReadReg s r) := by
  simp [takeTurn, hostRead, h]

theorem hostWrite_of_regAt {s t : State} {off v : Word} {r : HostReg} (h : s.regAt off = some r)
    (hw : hostWriteReg s r v = .ok t) : takeTurn (.hostWrite .word off v) s = .next t := by
  simp [takeTurn, hostWrite, h, hw, State.settle]

/-- An access of another width is refused, whatever the offset (10_state.md R40). -/
theorem hostAccess_refused_of_width {width : AccessWidth} (h : width ≠ .word) (s : State) (off v : Word) :
    takeTurn (.hostRead width off) s = .refused (.hostWidth width) ∧
      takeTurn (.hostWrite width off v) s = .refused (.hostWidth width) :=
  ⟨if_pos h, if_pos h⟩

/-- A 32-bit access at an offset that is no register's is refused (10_state.md R40). -/
theorem hostAccess_refused_of_unmapped {s : State} {off : Word} (h : s.regAt off = none) (v : Word) :
    takeTurn (.hostRead .word off) s = .refused (.unmappedOffset off) ∧
      takeTurn (.hostWrite .word off v) s = .refused (.unmappedOffset off) := by
  simp [takeTurn, hostRead, hostWrite, h]

/-! ## STATUS -/

/-- The low byte of STATUS is the mask of the active slots, the next one the mask of the Pending slots (10_state.md R46). -/
theorem statusWord_getLsbD (s : State) (i : SlotId) :
    s.statusWord.getLsbD i.val = (s.slot i).state.active ∧
      s.statusWord.getLsbD (8 + i.val) = decide ((s.slot i).state = .pending) := by
  have hactive := inMask_maskOf (fun i => (s.slot i).state.active) i
  have hpending := inMask_maskOf (fun i => (s.slot i).state == .pending) i
  unfold inMask at hactive hpending
  unfold State.statusWord
  refine ⟨?_, ?_⟩
  · rw [BitVec.getLsbD_append, if_pos i.isLt, hactive]
  · rw [BitVec.getLsbD_append, if_neg (by omega), Nat.add_sub_cancel_left, BitVec.getLsbD_append, if_pos i.isLt, hpending,
      beq_eq_decide]

/-! ## What a write reads back -/

/-- The codes of CONFIG.TIMEBASE name the time bases one to one (10_state.md R38). -/
theorem code_timeBaseOf (x : BitVec 2) : (timeBaseOf x).code = x := by
  revert x; decide

/-- CONFIG reads back the three fields of the word written, each at its place (10_state.md R40). -/
theorem configWord_write (s : State) (v : Word) :
    State.configWord { s with
      timeBase := timeBaseOf (v.extractLsb' 0 2), contWritePos := v.extractLsb' 8 5, basePos := v.extractLsb' 16 5 } =
      v &&& 0x001F1F03 := by
  apply BitVec.eq_of_getLsbD_eq
  intro k hk
  simp only [State.configWord, code_timeBaseOf, BitVec.getLsbD_append, BitVec.getLsbD_extractLsb', BitVec.getLsbD_and]
  interval_cases k <;> simp

/-- SEQCFG reads back the low twelve bits of the word written (10_state.md R40). -/
theorem cfgWord_withCfg (x : Slot) (v : Word) : (x.withCfg v).cfgWord = v &&& 0xFFF := by
  apply BitVec.eq_of_getLsbD_eq
  intro k hk
  simp only [Slot.cfgWord, Slot.withCfg, BitVec.getLsbD_append, BitVec.getLsbD_extractLsb', BitVec.getLsbD_and]
  interval_cases k <;> simp

/-- The low ten bits of a word are kept by the flag and enable registers. -/
theorem setWidth_conditions (v : Word) : (v.extractLsb' 0 10).setWidth 32 = v &&& 0x3FF := by
  apply BitVec.eq_of_getLsbD_eq
  intro k hk
  interval_cases k <;> simp

theorem setWidth_en (v : Word) : (BitVec.ofBool (v.getLsbD 0)).setWidth 32 = v &&& 0x1 := by
  apply BitVec.eq_of_getLsbD_eq
  intro k hk
  interval_cases k <;> simp

theorem and_allOnes_word (v : Word) : v &&& 0xFFFFFFFF = v := BitVec.and_allOnes

/-- `t` is what a write of `v` to the register `r` with these named bits leaves of `s` (10_state.md R40, R42). -/
structure State.Written (r : HostReg) (v mask : Word) (s t : State) : Prop where
  readsBack : t.regValue r = v &&& mask
  only : s.OnlyRegister r t
  lines : r ∈ [HostReg.ifReg, .ien, .seqIf, .seqIen] → t.LinesMatch

/-- A write of a register with named bits succeeds and reads back in them. -/
theorem hostWriteReg_written {r : HostReg} {mask : Word} (hmask : namedBits r = some mask) (s : State) (v : Word) :
    ∃ t, hostWriteReg s r v = .ok t ∧ s.Written r v mask t := by
  cases r with
  | cmd | status | seqAddr | busErrAddr => cases hmask
  | en => cases hmask; exact ⟨_, rfl, setWidth_en v, rfl, by simp⟩
  | config => cases hmask; exact ⟨_, rfl, configWord_write s v, rfl, by simp⟩
  | eqMaskA | eqMaskB => cases hmask; exact ⟨_, rfl, (and_allOnes_word v).symm, rfl, by simp⟩
  | ifReg | ien | seqIf | seqIen => cases hmask; exact ⟨_, rfl, setWidth_conditions v, rfl, fun _ => ⟨rfl, rfl⟩⟩
  | baseAddr k =>
    cases hmask
    refine ⟨_, rfl, ?_, ?_, by simp⟩
    · rw [and_allOnes_word]; simp [State.regValue]
    · simp [State.OnlyRegister]
  | seqStart i =>
    cases hmask
    refine ⟨_, rfl, ?_, ?_, by simp⟩
    · rw [and_allOnes_word]; simp [State.regValue]
    · simp [State.OnlyRegister]
  | seqCfg i =>
    cases hmask
    refine ⟨_, rfl, ?_, ?_, by simp⟩
    · simp [State.regValue, cfgWord_withCfg]
    · simp only [State.OnlyRegister, State.slot_updateSlot_self]; rfl

/-- A line as the statement writes it. -/
theorem lineOf_eq_decide (flags enables : Conditions) : lineOf flags enables = decide (flags &&& enables ≠ 0) :=
  Bool.eq_iff_iff.mpr (by simp [lineOf])

/-! ## Reset -/

theorem resetBlock_slot (s : State) (i : SlotId) : (resetBlock s).slot i = Slot.reset := by
  simp [State.slot, resetBlock, State.reset]

theorem resetBlock_baseAddress (s : State) (k : BaseIndex) : (resetBlock s).baseAddress[k] = 0 := by
  simp [resetBlock, State.reset]

end Sys2Proof.Machine

open Sys2Proof Sys2Proof.Machine

/-- Settles O56: the width is checked first, then the offset. -/
theorem hostRefusesUnmapped : Obligations.HostRefusesUnmapped := by
  unfold Obligations.HostRefusesUnmapped
  intro s width off v h
  by_cases hw : width = .word
  · subst hw
    obtain ⟨hread, hwrite⟩ := hostAccess_refused_of_unmapped (h.resolve_left (by simp)) v
    exact ⟨⟨_, hread⟩, _, hwrite⟩
  · obtain ⟨hread, hwrite⟩ := hostAccess_refused_of_width hw s off v
    exact ⟨⟨_, hread⟩, _, hwrite⟩

/-- Settles O57: `resetBlock` is the reset state but for the environment's fields. -/
theorem resetInstallsValues : Obligations.ResetInstallsValues := by
  unfold Obligations.ResetInstallsValues
  intro s
  refine ⟨resetBlock s, rfl, resetBlock_slot s, rfl, rfl, rfl, resetBlock_baseAddress s, ?_⟩
  simp [resetBlock, State.reset, Timer.reset]

/-- Settles O55: a read writes the model's own fields only, and STATUS is two masks side by side. -/
theorem hostReadReturnsValue : Obligations.HostReadReturnsValue := by
  unfold Obligations.HostReadReturnsValue
  intro s
  refine ⟨fun r off h => ⟨_, hostRead_of_regAt h, rfl, rfl⟩, statusWord_getLsbD s, fun a ha => ?_⟩
  show s.seqAddrWord = _
  rw [State.seqAddrWord, ha]
  rfl

/-- Settles O54, by cases on the register. -/
theorem hostWriteReadsBack : Obligations.HostWriteReadsBack := by
  unfold Obligations.HostWriteReadsBack
  intro s r off v h
  refine ⟨fun mask hmask => ?_, fun hreadOnly => ?_, rfl⟩
  · obtain ⟨t, hw, ht⟩ := hostWriteReg_written hmask s v
    refine ⟨t, hostWrite_of_regAt h hw, ht.readsBack, ht.only, fun hr => ?_⟩
    simpa only [State.LinesMatch, lineOf_eq_decide] using ht.lines hr
  · refine hostWrite_of_regAt h ?_
    rcases hreadOnly with rfl | rfl | rfl <;> rfl

end

section
/-! SUPPORT. The copy and logical instructions as runs of bus accesses: the addresses a run accesses and where it fails, what an
answering bus makes of it, and each instruction as its run followed by the advance of `pc`. -/

namespace Sys2Proof.Machine

/-! ## Lists of accesses, newest first -/

/-- The accesses went to `addrs` in this order and the bus answered each. -/
def AllAnswered (made : List BusAccess) (addrs : List Word) : Prop :=
  (∀ y ∈ made, accessFailed y = false) ∧ made.reverse.map accessAddr = addrs

/-- The accesses are the first of those to `addrs`; the last of them, at `addr`, failed and no other did. -/
def FailsAt (made : List BusAccess) (addrs : List Word) (addr : Word) : Prop :=
  ∃ x earlier, made = x :: earlier ∧ accessFailed x = true ∧ (∀ y ∈ earlier, accessFailed y = false) ∧
    made.reverse.map accessAddr <+: addrs ∧ accessAddr x = addr

theorem AllAnswered.single {x : BusAccess} (h : accessFailed x = false) : AllAnswered [x] [accessAddr x] :=
  ⟨by simpa using h, rfl⟩

theorem FailsAt.single {x : BusAccess} (h : accessFailed x = true) : FailsAt [x] [accessAddr x] (accessAddr x) :=
  ⟨x, [], rfl, h, by simp, List.prefix_refl _, rfl⟩

theorem AllAnswered.append {made1 made2 : List BusAccess} {as bs : List Word} (h1 : AllAnswered made1 as)
    (h2 : AllAnswered made2 bs) : AllAnswered (made2 ++ made1) (as ++ bs) := by
  obtain ⟨hok1, rfl⟩ := h1
  obtain ⟨hok2, rfl⟩ := h2
  exact ⟨List.forall_mem_append.mpr ⟨hok2, hok1⟩, by simp⟩

/-- A failure among the first accesses ends the run: the later ones are not made (20_memory.md R62). -/
theorem FailsAt.extend {made : List BusAccess} {as : List Word} {addr : Word} (h : FailsAt made as addr) (bs : List Word) :
    FailsAt made (as ++ bs) addr := by
  obtain ⟨x, earlier, hmade, hx, hok, hpre, haddr⟩ := h
  exact ⟨x, earlier, hmade, hx, hok, hpre.trans (List.prefix_append as bs), haddr⟩

theorem FailsAt.append {made1 made2 : List BusAccess} {as bs : List Word} {addr : Word} (h1 : AllAnswered made1 as)
    (h2 : FailsAt made2 bs addr) : FailsAt (made2 ++ made1) (as ++ bs) addr := by
  obtain ⟨hok1, rfl⟩ := h1
  obtain ⟨x, earlier, rfl, hx, hok2, hpre, haddr⟩ := h2
  refine ⟨x, earlier ++ made1, rfl, hx, List.forall_mem_append.mpr ⟨hok2, hok1⟩, ?_, haddr⟩
  rw [List.reverse_append, List.map_append]
  exact (List.prefix_append_right_inj _).mpr hpre

/-! ## The accesses of a run -/

/-- From `s` the run makes the accesses to `addrs` in this order, or the first of them up to one that fails. -/
def Access.Makes {α : Type} (x : Access α) (s : State) (addrs : List Word) : Prop :=
  match x with
  | .done _ u => ∃ made, u.trace = made ++ s.trace ∧ AllAnswered made addrs
  | .failed addr u => ∃ made, u.trace = made ++ s.trace ∧ FailsAt made addrs addr
  | .refused _ => True

theorem Access.Makes.done {α : Type} (v : α) (s : State) : (Access.done v s).Makes s [] :=
  ⟨[], rfl, by simp [AllAnswered]⟩

theorem Access.Makes.andThen {α β : Type} {x : Access α} {k : α → State → Access β} {s : State} {as bs : List Word}
    (hx : x.Makes s as) (hk : ∀ v t, x = .done v t → (k v t).Makes t bs) : (x.andThen k).Makes s (as ++ bs) := by
  cases x with
  | done v t =>
    obtain ⟨made1, htrace1, h1⟩ := hx
    have hrest := hk v t rfl
    rw [Access.done_andThen]
    cases hkv : k v t with
    | done w u =>
      rw [hkv] at hrest
      obtain ⟨made2, htrace2, h2⟩ := hrest
      exact ⟨made2 ++ made1, by rw [htrace2, htrace1, List.append_assoc], h1.append h2⟩
    | failed addr u =>
      rw [hkv] at hrest
      obtain ⟨made2, htrace2, h2⟩ := hrest
      exact ⟨made2 ++ made1, by rw [htrace2, htrace1, List.append_assoc], .append h1 h2⟩
    | refused r => trivial
  | failed addr t =>
    obtain ⟨made, htrace, h⟩ := hx
    exact ⟨made, htrace, h.extend bs⟩
  | refused r => trivial

/-- One read, answered or not, is one access (20_memory.md R62). -/
theorem memRead_makes (s : State) (addr : Word) : (memRead s addr).Makes s [addr] := by
  unfold memRead
  split
  · exact ⟨[_], rfl, .single rfl⟩
  · exact ⟨[_], rfl, .single rfl⟩
  · trivial

/-- One write, answered or not, is one access (20_memory.md R62). -/
theorem memWrite_makes (s : State) (addr v : Word) : (memWrite s addr v).Makes s [addr] := by
  unfold memWrite
  split
  · exact ⟨[_], rfl, .single rfl⟩
  · exact ⟨[_], rfl, .single rfl⟩
  · trivial

theorem stepAddr_succ (dst step : Word) (k : Nat) :
    dst + BitVec.ofNat 32 (k + 1) * step = dst + step + BitVec.ofNat 32 k * step := by
  have hone : BitVec.ofNat 32 1 * step = step := BitVec.one_mul step
  rw [BitVec.ofNat_add, BitVec.add_mul, hone, BitVec.add_comm _ step, BitVec.add_assoc]

theorem stepAddr_four (dst : Word) (k : Nat) : dst + BitVec.ofNat 32 k * 4 = wordAddr dst k := by
  rw [wordAddr, BitVec.ofNat_mul, BitVec.mul_comm]; rfl

theorem stepAddr_zero (dst : Word) (k : Nat) : dst + BitVec.ofNat 32 k * 0 = dst := by simp

/-- The addresses of a copy are those of its first word, then those of the rest. -/
theorem copyAddrs_succ (n : Nat) (src dst step : Word) :
    copyAddrs (n + 1) src dst step = [src] ++ ([dst] ++ copyAddrs n (src + 4) (dst + step) step) := by
  simp only [copyAddrs, List.range_succ_eq_map, List.flatMap_cons, List.flatMap_map, wordAddr_succ, stepAddr_succ]
  simp

/-- The addresses of a combination are those of its first word, then those of the rest. -/
theorem combineAddrs_succ (n : Nat) (src dst : Word) :
    combineAddrs (n + 1) src dst = [src] ++ ([dst] ++ ([dst] ++ combineAddrs n (src + 4) (dst + 4))) := by
  simp only [combineAddrs, List.range_succ_eq_map, List.flatMap_cons, List.flatMap_map, wordAddr_succ]
  simp

theorem copyWords_makes (step : Word) (n : Nat) (src dst : Word) (s : State) :
    (copyWords step n src dst s).Makes s (copyAddrs n src dst step) := by
  induction n generalizing src dst s with
  | zero => exact .done () s
  | succ n ih =>
    rw [copyWords_succ, copyAddrs_succ]
    refine (memRead_makes s src).andThen fun v t _ => ?_
    exact (memWrite_makes t dst v).andThen fun _ u _ => ih (src + 4) (dst + step) u

theorem combineWords_succ (op : Word → Word → Word) (n : Nat) (src dst : Word) (s : State) :
    combineWords op (n + 1) src dst s = (memRead s src).andThen fun v s1 =>
      (memRead s1 dst).andThen fun t s2 =>
        (memWrite s2 dst (op t v)).andThen fun _ s3 => combineWords op n (src + 4) (dst + 4) s3 := rfl

theorem combineWords_makes (op : Word → Word → Word) (n : Nat) (src dst : Word) (s : State) :
    (combineWords op n src dst s).Makes s (combineAddrs n src dst) := by
  induction n generalizing src dst s with
  | zero => exact .done () s
  | succ n ih =>
    rw [combineWords_succ, combineAddrs_succ]
    refine (memRead_makes s src).andThen fun v t _ => ?_
    refine (memRead_makes t dst).andThen fun w u _ => ?_
    exact (memWrite_makes u dst (op w v)).andThen fun _ y _ => ih (src + 4) (dst + 4) y

/-! ## Everything a run of accesses does -/

/-- From `s` the run touches only memory, there only the bytes in `S`, and the trace, where it notes its accesses to `addrs`. -/
structure Access.Run {α : Type} (x : Access α) (s : State) (S : Word → Prop) (addrs : List Word) : Prop where
  only : x.After s.BusOnly
  stays : s.mem.wf = true → x.After (s.MemStays S)
  makes : x.Makes s addrs

theorem Access.Run.done {α : Type} (v : α) (s : State) (S : Word → Prop) : (Access.done v s).Run s S [] :=
  ⟨.refl s, fun hw => .of_mem_eq hw rfl S, .done v s⟩

theorem Access.Run.andThen {α β : Type} {x : Access α} {k : α → State → Access β} {s : State} {S : Word → Prop}
    {as bs : List Word} (hx : x.Run s S as) (hk : ∀ v t, x = .done v t → (k v t).Run t S bs) :
    (x.andThen k).Run s S (as ++ bs) := by
  refine ⟨?_, fun hw => ?_, hx.makes.andThen fun v t h => (hk v t h).makes⟩
  · have honly := hx.only
    cases x with
    | done v t => exact (hk v t rfl).only.mono fun _ h => State.BusOnly.trans honly h
    | failed addr t => exact honly
    | refused r => trivial
  · have hstays := hx.stays hw
    cases x with
    | done v t => exact ((hk v t rfl).stays hstays.1).mono fun _ h => State.MemStays.trans hstays h
    | failed addr t => exact hstays
    | refused r => trivial

theorem memRead_run (s : State) (S : Word → Prop) (addr : Word) : (memRead s addr).Run s S [addr] :=
  ⟨memRead_only s addr, fun hw => memRead_stays hw S addr, memRead_makes s addr⟩

theorem copyWords_run (n : Nat) (src dst : Word) (s : State) :
    (copyWords 4 n src dst s).Run s (InBlock dst n) (copyAddrs n src dst 4) :=
  ⟨copyWords_after 4 n src dst s, copyWords_stays n src dst, copyWords_makes 4 n src dst s⟩

theorem copyWords_fixed_run (n : Nat) (src dst : Word) (s : State) :
    (copyWords 0 n src dst s).Run s (fun x => 0 < n ∧ InWord dst x) (copyAddrs n src dst 0) :=
  ⟨copyWords_after 0 n src dst s, copyWords_fixed_stays n src dst, copyWords_makes 0 n src dst s⟩

theorem combineWords_run (op : Word → Word → Word) (n : Nat) (src dst : Word) (s : State) :
    (combineWords op n src dst s).Run s (InBlock dst n) (combineAddrs n src dst) :=
  ⟨combineWords_after op n src dst s, combineWords_stays op n src dst, combineWords_makes op n src dst s⟩

/-! ## Runs on a bus that answers -/

theorem State.AlwaysAnswers.memRead {s : State} {addr : Word} (h : s.AlwaysAnswers addr) :
    ∃ v t, memRead s addr = .done v t ∧ t.params = s.params := by
  obtain ⟨v, hv⟩ := h.busRead
  exact ⟨v, _, memRead_of_value hv, rfl⟩

theorem State.AlwaysAnswers.memWrite {s : State} {addr : Word} (h : s.AlwaysAnswers addr) (v : Word) :
    ∃ t, memWrite s addr v = .done () t ∧ t.params = s.params := by
  obtain ⟨m, hm⟩ := h.busWrite v
  exact ⟨_, memWrite_of_value hm, rfl⟩

/-- A copy completes where the bus answers at every address it accesses. -/
theorem copyWords_completes (step : Word) (n : Nat) {src dst : Word} {s : State}
    (h : ∀ k, k < n → s.AlwaysAnswers (wordAddr src k) ∧ s.AlwaysAnswers (dst + BitVec.ofNat 32 k * step)) :
    ∃ u, copyWords step n src dst s = .done () u := by
  induction n generalizing src dst s with
  | zero => exact ⟨s, rfl⟩
  | succ n ih =>
    obtain ⟨hsrc, hdst⟩ := h 0 n.succ_pos
    rw [wordAddr_zero] at hsrc
    rw [BitVec.zero_mul, BitVec.add_zero] at hdst
    obtain ⟨v, t, hread, ht⟩ := hsrc.memRead
    obtain ⟨u, hwrite, hu⟩ := (hdst.congr ht).memWrite v
    rw [copyWords_succ, hread, Access.done_andThen, hwrite, Access.done_andThen]
    refine ih fun k hk => ?_
    obtain ⟨hsrc, hdst⟩ := h (k + 1) (Nat.succ_lt_succ hk)
    rw [wordAddr_succ] at hsrc
    rw [stepAddr_succ] at hdst
    exact ⟨hsrc.congr (hu.trans ht), hdst.congr (hu.trans ht)⟩

/-- A copy to rising addresses completes where the bus answers at both blocks. -/
theorem copyWords_rising_completes {n : Nat} {src dst : Word} {s : State}
    (h : ∀ k, k < n → s.AlwaysAnswers (wordAddr src k) ∧ s.AlwaysAnswers (wordAddr dst k)) :
    ∃ u, copyWords 4 n src dst s = .done () u :=
  copyWords_completes 4 n (by simpa only [stepAddr_four] using h)

/-- A copy to one address completes where the bus answers at the source block and there. -/
theorem copyWords_fixed_completes {n : Nat} {src dst : Word} {s : State}
    (h : ∀ k, k < n → s.AlwaysAnswers (wordAddr src k) ∧ s.AlwaysAnswers dst) :
    ∃ u, copyWords 0 n src dst s = .done () u :=
  copyWords_completes 0 n (by simpa only [stepAddr_zero] using h)

/-- A combination completes where the bus answers at both blocks. -/
theorem combineWords_completes (op : Word → Word → Word) {n : Nat} {src dst : Word} {s : State}
    (h : ∀ k, k < n → s.AlwaysAnswers (wordAddr src k) ∧ s.AlwaysAnswers (wordAddr dst k)) :
    ∃ u, combineWords op n src dst s = .done () u := by
  induction n generalizing src dst s with
  | zero => exact ⟨s, rfl⟩
  | succ n ih =>
    obtain ⟨hsrc, hdst⟩ := h 0 n.succ_pos
    rw [wordAddr_zero] at hsrc hdst
    obtain ⟨v, t, hinline, ht⟩ := hsrc.memRead
    obtain ⟨w, u, htarget, hu⟩ := (hdst.congr ht).memRead
    obtain ⟨y, hwrite, hy⟩ := (hdst.congr (hu.trans ht)).memWrite (op w v)
    rw [combineWords_succ, hinline, Access.done_andThen, htarget, Access.done_andThen, hwrite, Access.done_andThen]
    refine ih fun k hk => ?_
    obtain ⟨hsrc, hdst⟩ := h (k + 1) (Nat.succ_lt_succ hk)
    rw [wordAddr_succ] at hsrc hdst
    have hparams := hy.trans (hu.trans ht)
    exact ⟨hsrc.congr hparams, hdst.congr hparams⟩

/-! ## The eight instructions -/

/-- The copy and logical instructions with these fields. -/
def transferInstrs (base : BaseIndex) (offset n : Nat) : List Instr :=
  [.write base offset n, .writeNoInc base offset n, .mov base offset n, .movNoInc base offset n, .moveBlock base offset n,
    .and base offset n, .xor base offset n, .or base offset n]

/-- The accesses of a copy or logical instruction that slot `a` executes (41_transfer.md R130 to R138, 42_logical.md R150 to
R152); the other instructions copy and combine nothing. -/
def State.transfer (s : State) (a : SlotId) (i : Instr) : Access Unit :=
  match i with
  | .write b f n => copyWords 4 n (s.pc a + 4) (s.target b f) s
  | .writeNoInc b f n | .movNoInc b f n => copyWords 0 n (s.pc a + 4) (s.target b f) s
  | .mov b f n =>
    if (s.slot a).movSwapAddresses = true then copyWords 4 n (s.target b f) (s.pc a + 4) s
    else copyWords 4 n (s.pc a + 4) (s.target b f) s
  | .moveBlock b f n =>
    (memRead s (s.pc a + 4)).andThen fun ind t =>
      if (s.slot a).movSwapAddresses = true then copyWords 4 n (s.target b f) ind t
      else copyWords 4 n ind (s.target b f) t
  | .and b f n => combineWords (· &&& ·) n (s.pc a + 4) (s.target b f) s
  | .xor b f n => combineWords (· ^^^ ·) n (s.pc a + 4) (s.target b f) s
  | .or b f n => combineWords (· ||| ·) n (s.pc a + 4) (s.target b f) s
  | .delay .. | .waitForReg .. | .waitForSig .. | .jump .. | .setTrig .. | .skipCond .. | .endSeqOrNop .. | .reserved .. =>
    .done () s

theorem afterInline_eq (pc : Word) (n : Nat) : afterInline pc n = pc + BitVec.ofNat 32 (4 * (1 + n)) := by
  rw [afterInline, Nat.mul_add, BitVec.ofNat_add, BitVec.add_assoc]; rfl

/-- Each of the eight is its accesses, and then goes on at the next instruction. -/
theorem exec_eq_transfer {s : State} {a : SlotId} {base : BaseIndex} {offset n : Nat} {i : Instr} (he : s.executor = some a)
    (hi : i ∈ transferInstrs base offset n) :
    exec i s = (s.transfer a i).outcome fun _ t => t.continueAt a (s.pc a + BitVec.ofNat 32 (4 * i.wordCount)) := by
  cases i with
  | moveBlock b f m => exact State.onExecutor_some he _
  | write | writeNoInc | mov | movNoInc | and | xor | or =>
    rw [Instr.wordCount, ← afterInline_eq]
    exact State.onExecutor_some he _
  | delay | waitForReg | waitForSig | jump | setTrig | skipCond | endSeqOrNop | reserved => simp [transferInstrs] at hi

/-! ## What the instructions do to the bus -/

theorem busRead_of_memRead_done {s t : State} {addr v : Word} (h : memRead s addr = .done v t) :
    s.busRead addr = .value v := by
  unfold memRead at h
  split at h
  · next w hw => cases h; exact hw
  · cases h
  · cases h

theorem moveBlock_storesAt {s : State} {a : SlotId} {ind : Word} (h : s.busRead (s.pc a + 4) = .value ind)
    (b : BaseIndex) (f n : Nat) :
    s.StoresAt a (.moveBlock b f n) = fun x =>
      if (s.slot a).movSwapAddresses = true then InBlock ind n x else InBlock (s.target b f) n x := by
  funext x
  simp only [State.StoresAt, h, BusAnswer.value.injEq, exists_eq_left']

theorem moveBlock_transferAddrs {s : State} {a : SlotId} {ind : Word} (h : s.busRead (s.pc a + 4) = .value ind)
    (b : BaseIndex) (f n : Nat) :
    s.transferAddrs a (.moveBlock b f n) = (s.pc a + 4) ::
      if (s.slot a).movSwapAddresses = true then copyAddrs n (s.target b f) ind 4 else copyAddrs n ind (s.target b f) 4 := by
  rw [State.transferAddrs, h]

/-- The direction MOVSWAP chooses decides the bytes and the addresses of a copy too. -/
theorem copyWords_swap_run {c : Prop} [Decidable c] (n : Nat) (p q : Word) (s : State) :
    (if c then copyWords 4 n p q s else copyWords 4 n q p s).Run s
      (fun x => if c then InBlock q n x else InBlock p n x)
      (if c then copyAddrs n p q 4 else copyAddrs n q p 4) := by
  by_cases h : c
  · simpa only [if_pos h] using copyWords_run n p q s
  · simpa only [if_neg h] using copyWords_run n q p s

/-- The accesses of an instruction are those its rule lists, and store to its bytes only. -/
theorem transfer_run (s : State) (a : SlotId) (i : Instr) :
    (s.transfer a i).Run s (s.StoresAt a i) (s.transferAddrs a i) := by
  cases i with
  | write b f n => exact copyWords_run ..
  | writeNoInc b f n => exact copyWords_fixed_run ..
  | movNoInc b f n => exact copyWords_fixed_run ..
  | mov b f n => exact copyWords_swap_run ..
  | moveBlock b f n =>
    refine (memRead_run s _ (s.pc a + 4)).andThen fun ind t hread => ?_
    have hind := busRead_of_memRead_done hread
    rw [moveBlock_storesAt hind]
    simp only [hind]
    exact copyWords_swap_run n (s.target b f) ind t
  | and b f n => exact combineWords_run ..
  | xor b f n => exact combineWords_run ..
  | or b f n => exact combineWords_run ..
  | delay | waitForReg | waitForSig | jump | setTrig | skipCond | endSeqOrNop | reserved => exact .done () s _

/-- Where the accesses of one of the eight complete, it goes on at the next instruction, having made them all. -/
theorem exec_of_transfer_completes {s : State} {a : SlotId} {base : BaseIndex} {offset n : Nat} {i : Instr}
    (he : s.executor = some a) (hi : i ∈ transferInstrs base offset n) (hx : ∃ u, s.transfer a i = .done () u) :
    ∃ t, exec i s = .next t ∧
      t = { s with mem := t.mem, trace := t.trace }.setPc a (s.pc a + BitVec.ofNat 32 (4 * i.wordCount)) ∧
      t.trace.map accessAddr = (s.transferAddrs a i).reverse ++ s.trace.map accessAddr := by
  obtain ⟨u, hu⟩ := hx
  have hrun := transfer_run s a i
  have hexec := exec_eq_transfer he hi
  rw [hu] at hrun hexec
  obtain ⟨honly, -, made, htrace, -, haddrs⟩ := hrun
  refine ⟨_, hexec, congrArg (State.setPc · a _) honly, ?_⟩
  rw [State.setPc_trace, htrace, ← haddrs, List.map_append, List.map_reverse, List.reverse_reverse]

/-- Mov and MoveBlock complete in either direction where the bus answers at both blocks. -/
theorem copyWords_swap_completes {c : Prop} [Decidable c] {n : Nat} {p q : Word} {s : State}
    (h : ∀ k, k < n → s.AlwaysAnswers (wordAddr p k) ∧ s.AlwaysAnswers (wordAddr q k)) :
    ∃ u, (if c then copyWords 4 n p q s else copyWords 4 n q p s) = .done () u := by
  split
  · exact copyWords_rising_completes h
  · exact copyWords_rising_completes fun k hk => (h k hk).symm

theorem moveBlock_transfer_completes {s : State} {a : SlotId} {b : BaseIndex} {f n : Nat} {ind : Word}
    (hind : s.busRead (s.pc a + 4) = .value ind)
    (h : ∀ k, k < n → s.AlwaysAnswers (wordAddr ind k) ∧ s.AlwaysAnswers (wordAddr (s.target b f) k)) :
    ∃ u, s.transfer a (.moveBlock b f n) = .done () u := by
  simp only [State.transfer, memRead_of_value hind, Access.done_andThen]
  exact copyWords_swap_completes fun k hk => (h k hk).symm

end Sys2Proof.Machine

open Sys2Proof Sys2Proof.Machine

/-- Settles O22: each instruction's accesses complete where the bus answers them, and a complete run makes the accesses of its
rule. -/
theorem transfersCompleteOnAnsweringBus : Obligations.TransfersCompleteOnAnsweringBus := by
  unfold Obligations.TransfersCompleteOnAnsweringBus
  intro s a base offset n he inl tgt completes after
  have hafter : s.pc a + BitVec.ofNat 32 (4 * (1 + n)) = after := (afterInline_eq (s.pc a) n).symm
  have hcompletes : ∀ i ∈ transferInstrs base offset n, i.wordCount = 1 + n → (∃ u, s.transfer a i = .done () u) →
      completes i after (s.transferAddrs a i) := by
    intro i hi hcount hx
    rw [← hafter, ← hcount]
    exact exec_of_transfer_completes he hi hx
  refine ⟨fun h => ⟨?_, ?_, ?_, ?_, ?_⟩, fun h => ⟨?_, ?_⟩, fun ind hind h => ?_⟩
  · exact hcompletes (.write ..) (by simp [transferInstrs]) rfl (copyWords_rising_completes h)
  · exact hcompletes (.mov ..) (by simp [transferInstrs]) rfl (copyWords_swap_completes fun k hk => (h k hk).symm)
  · exact hcompletes (.and ..) (by simp [transferInstrs]) rfl (combineWords_completes _ h)
  · exact hcompletes (.xor ..) (by simp [transferInstrs]) rfl (combineWords_completes _ h)
  · exact hcompletes (.or ..) (by simp [transferInstrs]) rfl (combineWords_completes _ h)
  · exact hcompletes (.writeNoInc ..) (by simp [transferInstrs]) rfl (copyWords_fixed_completes h)
  · exact hcompletes (.movNoInc ..) (by simp [transferInstrs]) rfl (copyWords_fixed_completes h)
  · rw [← moveBlock_transferAddrs hind]
    have hmem : Instr.moveBlock base offset n ∈ transferInstrs base offset n := by simp [transferInstrs]
    exact exec_of_transfer_completes he hmem (moveBlock_transfer_completes hind h)

/-- Settles O23: an instruction is its run of accesses, which completes or ends at its first failure. -/
theorem transferFrame : Obligations.TransferFrame := by
  unfold Obligations.TransferFrame
  intro s t a base offset n i he hi h
  have hrun := transfer_run s a i
  rw [exec_eq_transfer he hi] at h
  cases hx : s.transfer a i with
  | done v u =>
    rw [hx] at hrun h
    obtain ⟨honly, hstays, made, htrace, hok, haddrs⟩ := hrun
    cases h
    exact ⟨u, made, honly, htrace, fun hw => (hstays hw).2, .inl ⟨rfl, hok, haddrs⟩⟩
  | failed addr u =>
    rw [hx] at hrun h
    obtain ⟨honly, hstays, made, htrace, x, earlier, hmade, hfailed, hok, hpre, rfl⟩ := hrun
    cases h
    exact ⟨u, made, honly, htrace, fun hw => (hstays hw).2, .inr ⟨x, earlier, hmade, hfailed, hok, hpre, rfl⟩⟩
  | refused r =>
    rw [hx] at h
    cases h

end

section
/-! SUPPORT. A word and its four fields, the encoder and the decoder read as one relation between fields and instructions, and
the step on a word that decodes to a fault. -/

namespace Sys2Proof

/-! ## The fields of a word -/

/-- A field is its upper part before its lower part. -/
theorem field_add (w : Word) (lo a b : Nat) : field w lo (a + b) = field w (lo + a) b * 2 ^ a + field w lo a := by
  rw [field, pow_add, Nat.mod_mul, Nat.div_div_eq_div_mul, ← pow_add, Nat.add_comm, Nat.mul_comm]
  rfl

theorem field_lt (w : Word) (lo width : Nat) : field w lo width < 2 ^ width := Nat.mod_lt _ (Nat.two_pow_pos width)

/-- The whole word as one field. -/
theorem field_zero_wordBits (w : Word) : field w 0 Config.wordBits = w.toNat := by
  rw [field, Nat.pow_zero, Nat.div_one, Nat.mod_eq_of_lt w.isLt]

theorem Layout.legal_iff {l : Layout} : l.legal = true ↔ l.o ≤ l.p ∧ l.p ≤ 28 := by
  rw [Layout.legal, Bool.and_eq_true, decide_eq_true_iff, decide_eq_true_iff]

/-- A legal layout's widths: L above O makes P, and B above P makes the opcode's position (30_encoding.md R81). -/
theorem Layout.legal_widths {l : Layout} (h : l.legal = true) :
    l.o + l.extWidth = l.p ∧ l.p + l.baseWidth = Config.opcodeLow := by
  obtain ⟨hop, hlow⟩ := Layout.legal_iff.mp h
  exact ⟨Nat.add_sub_of_le hop, Nat.add_sub_of_le hlow⟩

/-- Every word is the sum of its fields at their positions (30_encoding.md R82). -/
theorem toNat_eq_fields {l : Layout} (h : l.legal = true) (w : Word) :
    w.toNat = opcodeField w * 2 ^ Config.opcodeLow + baseField l w * 2 ^ l.p + extField l w * 2 ^ l.o + offsetField l w := by
  obtain ⟨hp, hlow⟩ := Layout.legal_widths h
  have hword : field w 0 Config.wordBits = _ := field_add w 0 Config.opcodeLow Config.opcodeWidth
  have hbelow := field_add w 0 l.p l.baseWidth
  have hoperand := field_add w 0 l.o l.extWidth
  rw [hlow, Nat.zero_add] at hbelow
  rw [hp, Nat.zero_add] at hoperand
  rw [← field_zero_wordBits, hword, hbelow, hoperand, Nat.zero_add, ← Nat.add_assoc, ← Nat.add_assoc]
  rfl

/-- Packing the fields of a word gives the word back (30_encoding.md R82, R94). -/
theorem packFields_fields {l : Layout} (h : l.legal = true) (w : Word) :
    packFields l (opcodeField w) (baseField l w) (extField l w) (offsetField l w) = w := by
  rw [packFields, ← toNat_eq_fields h, BitVec.ofNat_toNat, BitVec.setWidth_eq]

/-- Bits 31:28 are all that stands above bit 27. -/
theorem opcodeField_eq_div (w : Word) : opcodeField w = w.toNat / 2 ^ 28 :=
  Nat.mod_eq_of_lt (by have := w.isLt; simp only [Config.opcodeLow, Config.opcodeWidth]; omega)

/-! ## The sum of fields that fit is their bitwise OR -/

/-- A number whose high and low part fit their widths fits the sum of the widths. -/
theorem mul_two_pow_add_lt {a b j k : Nat} (ha : a < 2 ^ j) (hb : b < 2 ^ k) : a * 2 ^ k + b < 2 ^ (k + j) := by
  calc a * 2 ^ k + b < (a + 1) * 2 ^ k := by rw [Nat.add_mul, Nat.one_mul]; omega
    _ ≤ 2 ^ j * 2 ^ k := Nat.mul_le_mul_right _ ha
    _ = 2 ^ (k + j) := by rw [← pow_add, Nat.add_comm]

theorem ofNat_mul_two_pow_add (n a k : Nat) {b : Nat} (hb : b < 2 ^ k) :
    BitVec.ofNat n (a * 2 ^ k + b) = BitVec.ofNat n a <<< k ||| BitVec.ofNat n b := by
  have hshift : BitVec.ofNat n (a <<< k) = BitVec.ofNat n a <<< k :=
    BitVec.eq_of_toNat_eq (by simp [Nat.shiftLeft_eq])
  rw [← Nat.shiftLeft_eq, Nat.shiftLeft_add_eq_or_of_lt hb, BitVec.ofNat_or, hshift]

/-- For fields below the opcode that fit, the encoder's sum is R94's OR (30_encoding.md R94). -/
theorem packFields_eq_or {l : Layout} {b e f : Nat} (op : Nat) (hl : l.legal = true) (hb : b < 2 ^ l.baseWidth)
    (he : e < 2 ^ l.extWidth) (hf : f < 2 ^ l.o) :
    packFields l op b e f =
      (BitVec.ofNat 32 op <<< 28) ||| (BitVec.ofNat 32 b <<< l.p) ||| (BitVec.ofNat 32 e <<< l.o) ||| BitVec.ofNat 32 f := by
  obtain ⟨hp, hlow⟩ := Layout.legal_widths hl
  have hoperand : e * 2 ^ l.o + f < 2 ^ l.p := hp ▸ mul_two_pow_add_lt he hf
  have hbelow : b * 2 ^ l.p + (e * 2 ^ l.o + f) < 2 ^ Config.opcodeLow := hlow ▸ mul_two_pow_add_lt hb hoperand
  rw [packFields, Nat.add_assoc, Nat.add_assoc, ofNat_mul_two_pow_add 32 op _ hbelow, ofNat_mul_two_pow_add 32 b _ hoperand,
    ofNat_mul_two_pow_add 32 e _ hf, BitVec.or_assoc, BitVec.or_assoc]

/-! ## Instructions with the four fields -/

theorem Instr.base_lt (i : Instr) : i.base < Config.numBase := by
  cases i with
  | reserved => exact Nat.succ_pos _
  | _ => exact Fin.isLt _

/-- An instruction of another opcode than Reserved is encoded by packing its fields (30_encoding.md R94). -/
theorem encode_eq_packFields {m : Config.EncodingMaps} {i : Instr} {e : Nat} (l : Layout) (hi : i.opcode ≠ .reserved)
    (he : i.ext m = some e) : encode m l i = packFields l (opcodeValue m i.opcode) i.base e i.offset := by
  cases i with
  | reserved => exact absurd rfl hi
  | _ => exact congrArg (packFields l _ _ · _) (congrArg (Option.getD · 0) he)

/-- An instruction of another opcode than Reserved is well formed where each of its fields fits (30_encoding.md R94). -/
theorem Instr.wellFormed_iff {m : Config.EncodingMaps} {l : Layout} {i : Instr} (hi : i.opcode ≠ .reserved) :
    i.wellFormed m l = true ↔ opcodeValue m i.opcode < 16 ∧ l.legal = true ∧ i.offset < 2 ^ l.o ∧
      (∃ e, i.ext m = some e ∧ e < 2 ^ l.extWidth) ∧ i.base < 2 ^ l.baseWidth := by
  have hchecks : i.wellFormed m l = (i.opcodeAssigned m && (l.legal && i.offsetFits l && i.extFits m l && i.baseFits l)) := by
    cases i with
    | reserved => exact absurd rfl hi
    | _ => rfl
  simp only [hchecks, Bool.and_eq_true, Instr.opcodeAssigned, Instr.offsetFits, Instr.baseFits, Instr.extFits_iff,
    decide_eq_true_eq, and_assoc]
  rfl

/-- One-to-one maps give each extended opcode one-to-one rows. -/
theorem Config.EncodingMaps.oneToOne_rows {m : Config.EncodingMaps} (h : m.oneToOne = true) :
    rowsOneToOne m.delay = true ∧ rowsOneToOne m.waitForReg = true ∧ rowsOneToOne m.waitForSig = true ∧
    rowsOneToOne m.jump = true ∧ rowsOneToOne m.setTrig = true ∧ rowsOneToOne m.skipCond = true ∧
    rowsOneToOne m.endSeqOrNop = true := by
  simp only [Config.EncodingMaps.oneToOne, Bool.and_eq_true, and_assoc] at h
  exact h.2

/-- An extended opcode's ext value decodes to the alternative it is the code of. -/
theorem requireExt_alternativeOf {α : Type} [DecidableEq α] {rows : List (Nat × α)} (h : rowsOneToOne rows = true)
    {e : Nat} {mk : α → Instr} {i : Instr} :
    requireExt (alternativeOf rows e) mk = .ok i ↔ ∃ a, codeOf rows a = some e ∧ mk a = i := by
  simp only [requireExt_eq_ok, alternativeOf_eq_some h]

/-- The fields of an opcode decode to the instruction that has them (30_encoding.md R86, R88). -/
theorem instrOf_eq_ok {m : Config.EncodingMaps} (hm : m.oneToOne = true) {op : Opcode} (hop : op ≠ .reserved) {b : BaseIndex}
    {e f : Nat} {w : Word} {i : Instr} :
    instrOf m op b e f w = .ok i ↔ i.opcode = op ∧ i.base = b.val ∧ i.ext m = some e ∧ i.offset = f := by
  obtain ⟨hdelay, hreg, hsig, hjump, htrig, hskip, hend⟩ := Config.EncodingMaps.oneToOne_rows hm
  constructor
  · intro h
    cases op with
    | reserved => exact absurd rfl hop
    | write | writeNoInc | mov | movNoInc | moveBlock | and | xor | or => cases h; exact ⟨rfl, rfl, rfl, rfl⟩
    | delay | waitForReg | waitForSig | jump | setTrig | skipCond | endSeqOrNop =>
      obtain ⟨a, ha, rfl⟩ := (requireExt_alternativeOf ‹_›).mp h
      exact ⟨rfl, rfl, ha, rfl⟩
  · rintro ⟨rfl, hb, he, rfl⟩
    cases i with
    | reserved => exact absurd rfl hop
    | write | writeNoInc | mov | movNoInc | moveBlock | and | xor | or => cases Fin.ext hb; cases he; rfl
    | delay | waitForReg | waitForSig | jump | setTrig | skipCond | endSeqOrNop =>
      cases Fin.ext hb
      exact (requireExt_alternativeOf ‹_›).mpr ⟨_, he, rfl⟩

/-! ## Decoding an encoding, and encoding what was decoded -/

/-- Reserved keeps its payload. -/
theorem decode_encode_reserved {m : Config.EncodingMaps} (l : Layout) {payload : BitVec 28} (h : opcodeValue m .reserved < 16) :
    decode m l (encode m l (.reserved payload)) = .ok (.reserved payload) := by
  have hop : opcodeOf m (opcodeField (encode m l (.reserved payload))) = .reserved := by
    rw [opcodeField_encode_reserved l payload h, opcodeOf_opcodeValue h]
  rw [decode_reserved l hop, encode_reserved l payload h, BitVec.setWidth_append_eq_right]

/-- The fields a well-formed instruction was packed of select it again (30_encoding.md R93, R94). -/
theorem decode_encode_fields {m : Config.EncodingMaps} {l : Layout} {i : Instr} (hm : m.oneToOne = true)
    (hi : i.opcode ≠ .reserved) (hwf : i.wellFormed m l = true) : decode m l (encode m l i) = .ok i := by
  obtain ⟨hcode, hl, hoffset, ⟨e, he, hext⟩, hbase⟩ := (Instr.wellFormed_iff hi).mp hwf
  rw [encode_eq_packFields l hi he]
  obtain ⟨fop, fbase, fext, foffset⟩ :=
    fields_of_packFields l (opcodeValue m i.opcode) i.base e i.offset hl hcode hbase hext hoffset
  have hop : opcodeOf m (opcodeField (packFields l (opcodeValue m i.opcode) i.base e i.offset)) = i.opcode := by
    rw [fop, opcodeOf_opcodeValue hcode]
  rw [decode_of_fields (b := ⟨i.base, i.base_lt⟩) (by rwa [hop]) hl fbase, hop, fext, foffset]
  exact (instrOf_eq_ok hm hi).mpr ⟨rfl, rfl, he, rfl⟩

/-- The Reserved instruction of a word is encoded as that word. -/
theorem encode_reserved_of_opcodeField {m : Config.EncodingMaps} (l : Layout) {w : Word} (hm : m.oneToOne = true)
    (hop : opcodeOf m (opcodeField w) = .reserved) :
    opcodeValue m .reserved < 16 ∧ encode m l (.reserved (w.setWidth 28)) = w := by
  have hcode : opcodeValue m .reserved = opcodeField w := by rw [← hop, opcodeValue_opcodeOf hm (opcodeField_lt w)]
  have hlt : opcodeValue m .reserved < 16 := hcode ▸ opcodeField_lt w
  refine ⟨hlt, BitVec.eq_of_toNat_eq ?_⟩
  rw [encode_reserved_toNat l _ hlt, hcode, opcodeField_eq_div, BitVec.toNat_setWidth, Nat.div_add_mod']

/-- An instruction with a word's fields is encoded as that word. -/
theorem encode_of_fields {m : Config.EncodingMaps} {l : Layout} {w : Word} {i : Instr} (hm : m.oneToOne = true)
    (hl : l.legal = true) (hi : i.opcode ≠ .reserved) (hop : i.opcode = opcodeOf m (opcodeField w))
    (hbase : i.base = baseField l w) (hext : i.ext m = some (extField l w)) (hoffset : i.offset = offsetField l w) :
    encode m l i = w ∧ i.wellFormed m l = true := by
  have hcode : opcodeValue m i.opcode = opcodeField w := by rw [hop, opcodeValue_opcodeOf hm (opcodeField_lt w)]
  refine ⟨?_, (Instr.wellFormed_iff hi).mpr ⟨?_, hl, ?_, ⟨_, hext, field_lt ..⟩, ?_⟩⟩
  · rw [encode_eq_packFields l hi hext, hcode, hbase, hoffset, packFields_fields hl]
  · rw [hcode]; exact opcodeField_lt w
  · rw [hoffset]; exact field_lt ..
  · rw [hbase]; exact field_lt ..

/-! ## The decoder's rejections -/

theorem decode_badLayout {m : Config.EncodingMaps} {l : Layout} {w : Word} (hop : opcodeOf m (opcodeField w) ≠ .reserved)
    (hl : l.legal = false) : decode m l w = .error .badLayout := by
  rw [decode, if_neg hop, if_pos hl]

theorem decode_baseIndexRange {m : Config.EncodingMaps} {l : Layout} {w : Word}
    (hop : opcodeOf m (opcodeField w) ≠ .reserved) (hl : l.legal = true) (hb : Config.numBase ≤ baseField l w) :
    decode m l w = .error .baseIndexRange := by
  rw [decode, if_neg hop, if_neg (by simp [hl]), dif_neg (Nat.not_lt.mpr hb)]

/-- An ext value that the rows of EXT_MAP do not list selects nothing. -/
theorem requireExt_alternativeOf_of_not_mem {α : Type} {rows : List (Nat × α)} {e : Nat} (h : e ∉ rows.map (·.1))
    (mk : α → Instr) : requireExt (alternativeOf rows e) mk = .error .invalidExt := by
  have hnone : alternativeOf rows e = none :=
    List.lookup_eq_none_iff.mpr fun r hr => bne_iff_ne.mpr fun he => h (he ▸ List.mem_map_of_mem hr)
  rw [hnone]
  rfl

/-- An ext value that is not legal for the opcode is rejected (30_encoding.md R89). -/
theorem instrOf_of_not_legalExt {m : Config.EncodingMaps} {op : Opcode} {e : Nat} (h : ¬Machine.legalExt m op e) (b : BaseIndex)
    (f : Nat) (w : Word) : instrOf m op b e f w = .error .invalidExt := by
  cases op with
  | write | writeNoInc | mov | movNoInc | moveBlock | and | xor | or | reserved => exact absurd trivial h
  | delay | waitForReg | waitForSig | jump | setTrig | skipCond | endSeqOrNop => exact requireExt_alternativeOf_of_not_mem h _

theorem decode_invalidExt {m : Config.EncodingMaps} {l : Layout} {w : Word} (hop : opcodeOf m (opcodeField w) ≠ .reserved)
    (hl : l.legal = true) (hb : baseField l w < Config.numBase)
    (he : ¬Machine.legalExt m (opcodeOf m (opcodeField w)) (extField l w)) : decode m l w = .error .invalidExt := by
  rw [decode_of_fields (b := ⟨_, hb⟩) hop hl rfl]
  exact instrOf_of_not_legalExt he ..

/-! ## The default maps -/

theorem opcodeOf_default_eq_reserved {n : Nat} (h : n < 16) : opcodeOf .default n = .reserved ↔ n = 0xF := by
  revert n
  decide

/-- At the default maps a legal ext value of an extended opcode is below the opcode's bound (30_encoding.md R88). -/
theorem lt_legalExtBound {code e : Nat} (hcode : code < 16) (he : e < 2 ^ 32)
    (h : Machine.legalExt .default (opcodeOf .default code) e) : e < Machine.legalExtBound code := by
  match code, hcode, h with
  | 0, _, _ | 1, _, _ | 2, _, _ | 3, _, _ | 4, _, _ | 5, _, _ | 6, _, _ | 7, _, _ | 15, _, _ => exact he
  | 8, _, h => exact (by decide : ∀ x ∈ Config.EncodingMaps.default.delay.map (·.1), x < 2) e h
  | 9, _, h => exact (by decide : ∀ x ∈ Config.EncodingMaps.default.waitForReg.map (·.1), x < 8) e h
  | 10, _, h => exact (by decide : ∀ x ∈ Config.EncodingMaps.default.waitForSig.map (·.1), x < 8) e h
  | 11, _, h => exact (by decide : ∀ x ∈ Config.EncodingMaps.default.jump.map (·.1), x < 2) e h
  | 12, _, h => exact (by decide : ∀ x ∈ Config.EncodingMaps.default.setTrig.map (·.1), x < 4) e h
  | 13, _, h => exact (by decide : ∀ x ∈ Config.EncodingMaps.default.skipCond.map (·.1), x < 16) e h
  | 14, _, h => exact (by decide : ∀ x ∈ Config.EncodingMaps.default.endSeqOrNop.map (·.1), x < 2) e h
  | n + 16, hcode, _ => omega

end Sys2Proof

namespace Sys2Proof.Machine

/-! ## The step -/

theorem State.layout_legal_iff {s : State} :
    s.layout.legal = true ↔ s.contWritePos.toNat ≤ s.basePos.toNat ∧ s.basePos.toNat ≤ 28 :=
  Layout.legal_iff

/-- A fetched word that the decoder rejects faults with the rejection's kind (30_encoding.md R93, 60_exceptions.md R254). -/
theorem step_of_decode_error {s : State} {a : SlotId} {w : Word} {r : DecodeReject} (h : s.ExecutorMoves a)
    (hb : s.busRead (s.pc a) = .value w) (hd : decode s.params.maps s.layout w = .error r) :
    step s = .next ((s.turnStart.logAccess (.read (s.pc a) (some w))).raiseFatal
      ⟨decodeFaultKind r, some a, some (s.pc a), some w⟩) := by
  rw [step_executor_fetched h hb, decodeAndExec, State.logAccess_params, State.logAccess_layout, State.turnStart_params,
    State.turnStart_layout, hd]
  rfl

theorem step_of_decode_ok {s : State} {a : SlotId} {w : Word} {i : Instr} (h : s.ExecutorMoves a)
    (hb : s.busRead (s.pc a) = .value w) (hd : decode s.params.maps s.layout w = .ok i) :
    step s = exec i (s.turnStart.logAccess (.read (s.pc a) (some w))) := by
  rw [step_executor_fetched h hb, decodeAndExec, State.logAccess_params, State.logAccess_layout, State.turnStart_params,
    State.turnStart_layout, hd]

/-- Reserved faults with its own encoding as the record's word (44_control.md R200). -/
theorem exec_reserved {s : State} {a : SlotId} (h : s.executor = some a) (payload : BitVec 28) :
    exec (.reserved payload) s = .next (s.raiseFatal
      ⟨.reservedOpcode, some a, some (s.pc a), some (encode s.params.maps s.layout (.reserved payload))⟩) :=
  State.onExecutor_some h _

end Sys2Proof.Machine

open Sys2Proof Sys2Proof.Machine

/-- Settles O1: Reserved keeps its payload, and every other instruction is what its packed fields select. -/
theorem decodeOfEncode : Obligations.DecodeOfEncode := by
  unfold Obligations.DecodeOfEncode
  intro m l i hm hwf
  by_cases hi : i.opcode = .reserved
  · cases i with
    | reserved payload => exact decode_encode_reserved l (Instr.opcodeValue_lt_of_wellFormed hwf)
    | _ => cases hi
  · exact decode_encode_fields hm hi hwf

/-- Settles O2: what a word decodes to has the word's fields, of which the word is packed. -/
theorem encodeOfDecode : Obligations.EncodeOfDecode := by
  unfold Obligations.EncodeOfDecode
  intro m l w i hm h
  rcases decode_eq_ok h with ⟨hop, rfl⟩ | ⟨hop, hl, b, hb, hinstr⟩
  · obtain ⟨hcode, hencode⟩ := encode_reserved_of_opcodeField l hm hop
    exact ⟨hencode, by rw [Instr.wellFormed, Bool.and_true]; exact decide_eq_true hcode⟩
  · obtain ⟨hi, hbase, hext, hoffset⟩ := (instrOf_eq_ok hm hop).mp hinstr
    exact encode_of_fields hm hl (hi ▸ hop) hi (hbase.trans hb) hext hoffset

/-- Settles O3: the word as one field of 32 bits, cut at 28, P and O. -/
theorem fieldsPartitionWord : Obligations.FieldsPartitionWord := by
  unfold Obligations.FieldsPartitionWord
  exact fun l w hl => ⟨toNat_eq_fields hl w, field_lt .., field_lt .., field_lt .., field_lt ..⟩

/-- Settles O4: each field fits below the next, so that no addition carries. -/
theorem encodeIsBitwiseOr : Obligations.EncodeIsBitwiseOr := by
  unfold Obligations.EncodeIsBitwiseOr
  intro m l i hwf hne
  have hi : i.opcode ≠ .reserved := by
    cases i with
    | reserved p => exact absurd rfl (hne p)
    | _ => exact Opcode.noConfusion
  obtain ⟨-, hl, hoffset, ⟨e, he, hext⟩, hbase⟩ := (Instr.wellFormed_iff hi).mp hwf
  exact ⟨e, he, by rw [encode_eq_packFields l hi he, packFields_eq_or _ hl hbase hext hoffset]⟩

/-- Settles O8: the decoder's three rejections in their order; the last clause is the third one's at the default maps. -/
theorem decodeFaultsInOrder : Obligations.DecodeFaultsInOrder := by
  unfold Obligations.DecodeFaultsInOrder
  intro s a w h hb m code t faulted O P base ext hop
  have hcode : code = opcodeField w := (opcodeField_eq_div w).symm
  rw [hcode] at hop ⊢
  rw [← State.layout_legal_iff]
  have hinvalid (hl : s.layout.legal = true) (hbase : base < 16) (hext : ¬legalExt m (opcodeOf m (opcodeField w)) ext) :
      step s = faulted .invalidExt := step_of_decode_error h hb (decode_invalidExt hop hl hbase hext)
  refine ⟨fun hl => ?_, fun hl hbase => ?_, hinvalid, fun hm hl hbase hbound => hinvalid hl hbase fun hlegal => ?_⟩
  · exact step_of_decode_error h hb (decode_badLayout hop (Bool.eq_false_of_not_eq_true hl))
  · exact step_of_decode_error h hb (decode_baseIndexRange hop hl hbase)
  · have hext : ext < 2 ^ 32 := (Nat.mod_le ..).trans_lt ((Nat.div_le_self ..).trans_lt w.isLt)
    exact absurd (lt_legalExtBound (opcodeField_lt w) hext (hm ▸ hlegal)) (Nat.not_lt.mpr hbound)

/-- Settles O5, by evaluating the decoder on the eight words. -/
theorem specWordsDecode : Obligations.SpecWordsDecode := by
  unfold Obligations.SpecWordsDecode
  refine ⟨?_, ?_, ?_, ?_, ?_, ?_, ?_, ?_⟩ <;> decide

/-- Settles O12: a Reserved word decodes before the layout is looked at, and its instruction's encoding is the word again. -/
theorem reservedFaults : Obligations.ReservedFaults := by
  unfold Obligations.ReservedFaults
  refine ⟨fun s a w h hb hm hop => ?_, fun s a code payload h hm hop => ?_, fun w => ?_⟩
  · rw [← opcodeField_eq_div] at hop
    rw [step_of_decode_ok h hb (decode_reserved _ hop), exec_reserved (s := s.turnStart.logAccess _) h.1,
      State.logAccess_params, State.logAccess_layout, State.turnStart_params, State.turnStart_layout,
      (encode_reserved_of_opcodeField s.layout hm hop).2]
    rfl
  · have hcode : opcodeValue s.params.maps .reserved = code.toNat := by rw [← hop, opcodeValue_opcodeOf hm code.isLt]
    rw [exec_reserved h, encode_reserved _ _ (hcode ▸ code.isLt), hcode, BitVec.ofNat_toNat, BitVec.setWidth_eq]
  · rw [← opcodeField_eq_div]
    exact opcodeOf_default_eq_reserved (opcodeField_lt w)

end

section
/-! SUPPORT. Which faults the block's operations and the instructions raise from a sound state: never ResumeInvariant, since
every resumption finds its slot in the state it expects (40_execution_cycle.md R118). -/

namespace Sys2Proof.Machine

/-! ## Fault records -/

theorem not_faultedWith_of_fault_none {s : State} (h : s.fault = none) (k : FaultKind) : ¬s.FaultedWith k := by
  simp [State.FaultedWith, h]

theorem not_faultedWith_raiseFatal {r : FaultRecord} {k : FaultKind} (h : r.kind ≠ k) (s : State) :
    ¬(s.raiseFatal r).FaultedWith k := by
  simpa [State.FaultedWith] using h

theorem State.SequencerOnly.fault {s t : State} (h : s.SequencerOnly t) : t.fault = s.fault := by rw [h.rest]

theorem State.BusOnly.fault {s t : State} (h : s.BusOnly t) : t.fault = s.fault := by rw [h]

/-- What the sequencer's operations leave of a state without a fault has no fault. -/
theorem State.SequencerOnly.not_faultedWith {s t : State} (h : s.SequencerOnly t) (hf : s.fault = none) (k : FaultKind) :
    ¬t.FaultedWith k := not_faultedWith_of_fault_none (h.fault.trans hf) k

/-- The faults of arming a Delay (60_exceptions.md R264) are no resumption's. -/
theorem ne_resumeInvariant_of_arming {k : FaultKind}
    (h : k = .clockTimeBase ∨ k = .delayThresholdPassed ∨ k = .zeroRelativeDelay) : k ≠ .resumeInvariant := by
  rcases h with rfl | rfl | rfl <;> decide

/-! ## Operations -/

/-- The operation raises no ResumeInvariant: it answers a state, or a fault of another kind. -/
def ResumesSafely (x : Except Raise State) : Prop := ∀ e, x = .error e → e.record.kind ≠ .resumeInvariant

theorem ResumesSafely.ok (t : State) : ResumesSafely (.ok t) := nofun

theorem ResumesSafely.error {e : Raise} (h : e.record.kind ≠ .resumeInvariant) : ResumesSafely (.error e) := by
  rintro _ ⟨⟩
  exact h

theorem ResumesSafely.andThenState {x : Except Raise State} {k : State → Except Raise State} (hx : ResumesSafely x)
    (hk : ∀ u, x = .ok u → ResumesSafely (k u)) : ResumesSafely (Except.andThenState x k) := by
  cases x with
  | ok u => exact hk u rfl
  | error e => exact .error (hx e rfl)

theorem rearmDelay_resumesSafely (s : State) (i : SlotId) : ResumesSafely (rearmDelay s i) :=
  fun _ h => ne_resumeInvariant_of_arming (rearmDelay_eq_error h).2

theorem zeroAndRestart_resumesSafely (s : State) : ResumesSafely (zeroAndRestart s) :=
  fun _ h => ne_resumeInvariant_of_arming (zeroAndRestart_eq_error h)

theorem countTick_resumesSafely (s : State) (src : TickSource) (n : Nat) : ResumesSafely (countTick s src n) := by
  intro e h
  rw [(countTick_eq_error h).1]
  exact FaultKind.noConfusion

theorem tick_eq_andThenState (s : State) (src : TickSource) (n : Nat) :
    tick s src n = Except.andThenState (countTick s src n) fun u => countDown u src n := by
  unfold tick
  cases countTick s src n <;> rfl

theorem resetAbsCounter_eq_andThenState {s : State} (h : s.preOutstanding ≠ 0) :
    resetAbsCounter s =
      Except.andThenState (tick { s with preOutstanding := 0 } .preCountOverflow s.preOutstanding) zeroAndRestart := by
  unfold resetAbsCounter
  rw [if_neg h]
  cases tick { s with preOutstanding := 0 } .preCountOverflow s.preOutstanding <;> rfl

theorem resetAbsCounterUnarmed_eq_andThenState {s : State} (h : s.preOutstanding ≠ 0) :
    resetAbsCounterUnarmed s =
      Except.andThenState (countTick { s with preOutstanding := 0 } .preCountOverflow s.preOutstanding) zeroAndRestart := by
  unfold resetAbsCounterUnarmed
  rw [if_neg h]
  cases countTick { s with preOutstanding := 0 } .preCountOverflow s.preOutstanding <;> rfl

theorem resetAbsCounterUnarmed_resumesSafely (s : State) : ResumesSafely (resetAbsCounterUnarmed s) := by
  by_cases hpre : s.preOutstanding = 0
  · rw [resetAbsCounterUnarmed, if_pos hpre]
    exact zeroAndRestart_resumesSafely _
  · rw [resetAbsCounterUnarmed_eq_andThenState hpre]
    exact (countTick_resumesSafely _ _ _).andThenState fun u _ => zeroAndRestart_resumesSafely u

/-! ## Resumptions -/

theorem postStartAtExpiry_resumesSafely {s : State} {i : SlotId} (h : (s.slot i).state = .running) :
    ResumesSafely (postStartAtExpiry s i) := by
  unfold postStartAtExpiry
  rw [if_neg (not_not_intro h)]
  split
  · exact .ok s
  · exact resetAbsCounterUnarmed_resumesSafely s

theorem expireDelay_resumesSafely {s : State} {i : SlotId} (h : (s.slot i).state = .inDelay) :
    ResumesSafely (expireDelay s i) := by
  unfold expireDelay
  rw [if_neg (not_not_intro h)]
  split
  · exact rearmDelay_resumesSafely s i
  · exact .ok _

theorem expirePollRetry_resumesSafely {s : State} {i : SlotId} (h : (s.slot i).state = .waitingForReg) :
    ResumesSafely (expirePollRetry s i) := by
  unfold expirePollRetry
  rw [if_neg (not_not_intro h)]
  exact .ok _

/-- Each resumption checks for the slot state that the timer's reason expects (45_sequencer.md R213, 60_exceptions.md R265,
R266), which is the one a timer that fits finds. -/
theorem expire_resumesSafely {s : State} (hfits : s.TimerFits) : ResumesSafely (expire s) := by
  have hstate := hfits.2
  unfold expire
  cases hr : s.timer.reason <;> rw [hr] at hstate
  · exact postStartAtExpiry_resumesSafely (s := s.disarm) hstate
  · exact expireDelay_resumesSafely (s := s.disarm) hstate
  · exact expirePollRetry_resumesSafely (s := s.disarm) hstate

theorem countDown_resumesSafely {s : State} (hs : s.Sound) (src : TickSource) (n : Nat) :
    ResumesSafely (countDown s src n) := by
  unfold countDown
  split
  · next hc =>
    have hfits : State.TimerFits { s with timer := { s.timer with remaining := s.timer.remaining - n } } :=
      hs.timerFits hc.1
    simp only
    split
    · exact expire_resumesSafely hfits
    · exact .ok _
  · exact .ok s

theorem tick_resumesSafely {s : State} (hs : s.Sound) (src : TickSource) (n : Nat) : ResumesSafely (tick s src n) := by
  rw [tick_eq_andThenState]
  exact (countTick_resumesSafely _ _ _).andThenState fun u hu => countDown_resumesSafely (countTick_sound hs hu) src n

theorem resetAbsCounter_resumesSafely {s : State} (hs : s.Sound) : ResumesSafely (resetAbsCounter s) := by
  by_cases hpre : s.preOutstanding = 0
  · rw [resetAbsCounter, if_pos hpre]
    exact zeroAndRestart_resumesSafely _
  · rw [resetAbsCounter_eq_andThenState hpre]
    exact (tick_resumesSafely (hs.setPreOutstanding 0) _ _).andThenState fun u _ => zeroAndRestart_resumesSafely u

/-! ## Start requests -/

/-- A slot that starts is Running when PostStart looks at it (45_sequencer.md R213). -/
theorem start_resumesSafely {s : State} (hidle : ∀ j, (s.slot j).state.active = false) (ht : s.timer.armed = false)
    (hk : s.Steady) (i : SlotId) (deferred : Bool) : ResumesSafely (start s i deferred) := by
  have hrunning : ((s.updateSlot i Slot.started).slot i).state = .running := by simp
  unfold start postStart
  rw [if_neg (not_not_intro hrunning)]
  split
  · exact .ok _
  · split
    · exact .ok _
    · exact resetAbsCounter_resumesSafely (.untimed (onlyActive_started hidle i) (.inl hrunning) ht (hk.updateSlot ..))

theorem arbitrate_resumesSafely {s : State} (hs : s.Sound) (m : SlotMask) (deferred : Bool) :
    ResumesSafely (arbitrate s m deferred) := by
  have hk := hs.steady
  unfold arbitrate
  split
  · next i0 hnone _ =>
    have hidle := State.activeSlot_eq_none.mp hnone
    have hsame := makePending_sameActivity (s := s) (m := m &&& ~~~(1#8 <<< i0.val)) fun i _ => hidle i
    exact start_resumesSafely (fun j => (hsame.active j).trans (hidle j)) (hs.unarmed_of_none hnone)
      ⟨hk.counterBounded, hk.linesMatch, hk.memoryWf⟩ i0 deferred
  · exact .ok _

theorem requestIdle_resumesSafely {s : State} (hs : s.Sound) (m : SlotMask) (deferred : Bool) :
    ResumesSafely (requestIdle s m deferred) := by
  unfold requestIdle
  split
  · exact arbitrate_resumesSafely hs m deferred
  · split
    · exact .error FaultKind.noConfusion
    · split
      · exact .ok s
      · exact arbitrate_resumesSafely hs _ deferred

theorem requestStart_resumesSafely {s : State} (hs : s.Sound) (m : SlotMask) (deferred : Bool) :
    ResumesSafely (requestStart s m deferred) := by
  have hidle := requestIdle_resumesSafely hs m deferred
  unfold requestStart
  split
  · exact .ok s
  · split
    · exact hidle
    · split
      · exact .error FaultKind.noConfusion
      · exact .ok s
      · exact hidle

/-! ## The host's writes -/

theorem hostWriteCmd_resumesSafely {s : State} (hs : s.Sound) (v : Word) : ResumesSafely (hostWriteCmd s v) := by
  unfold hostWriteCmd
  have habort : (if v.extractLsb' 8 8 = 0 then s else abort s (v.extractLsb' 8 8)).Sound := by
    split
    · exact hs
    · exact abort_sound hs _
  simp only
  generalize (if v.extractLsb' 8 8 = 0 then s else abort s (v.extractLsb' 8 8)) = s1 at *
  refine ResumesSafely.andThenState ?_ fun u hu => ?_
  · split
    · exact resetAbsCounter_resumesSafely habort
    · exact .ok s1
  · have hreset : u.Sound := by
      split at hu
      · exact resetAbsCounter_sound habort hu
      · cases hu; exact habort
    split
    · exact .ok u
    · exact requestStart_resumesSafely hreset _ false

theorem hostWriteReg_resumesSafely {s : State} (hs : s.Sound) (r : HostReg) (v : Word) :
    ResumesSafely (hostWriteReg s r v) := by
  cases r with
  | cmd => exact hostWriteCmd_resumesSafely hs v
  | _ => exact .ok _

theorem hostWriteReg_fault {s t : State} {r : HostReg} {v : Word} (h : hostWriteReg s r v = .ok t) : t.fault = s.fault := by
  cases r with
  | cmd => exact (hostWriteCmd_only h).fault
  | _ => cases h; rfl

/-! ## Instructions -/

/-- An instruction that ends in `k` after its accesses raises no fault of kind `f` if `k` does not; a bus error is no fault. -/
theorem outcome_not_faultedWith {α : Type} {s t : State} {x : Access α} {k : α → State → Outcome} {f : FaultKind}
    (hf : s.fault = none) (hx : x.After s.BusOnly)
    (hk : ∀ v u, u.fault = none → k v u = .next t → ¬t.FaultedWith f) (h : x.outcome k = .next t) : ¬t.FaultedWith f := by
  rcases hx.outcome_next h with ⟨v, u, -, hu, h⟩ | ⟨addr, u, hu, rfl⟩
  · exact hk v u (hu.fault.trans hf) h
  · exact (busError_only u addr).not_faultedWith (hu.fault.trans hf) f

theorem continueAt_not_faultedWith {s t : State} {a : SlotId} {next : Word} {f : FaultKind} (hf : s.fault = none)
    (h : s.continueAt a next = .next t) : ¬t.FaultedWith f :=
  (continueAt_only h).not_faultedWith hf f

/-- A run of accesses that begins with a read. -/
theorem memRead_andThen_only {α : Type} {s : State} (addr : Word) {k : Word → State → Access α}
    (hk : ∀ v t, (k v t).After t.BusOnly) : ((memRead s addr).andThen k).After s.BusOnly :=
  (memRead_only s addr).andThen (fun _ h => h) fun v t ht => (hk v t).mono fun _ h => ht.trans h

theorem skipTest_only (cond : SkipCondition) (inl tgt : Word) (s : State) : (skipTest cond inl tgt s).After s.BusOnly := by
  cases cond with
  | reg p => exact memRead_andThen_only tgt fun v t => memRead_andThen_only inl fun d u => State.BusOnly.refl u
  | sig p => exact memRead_andThen_only inl fun d t => State.BusOnly.refl t

/-- Reserved and Delay alone raise a fault, each of its own kinds. -/
theorem exec_not_resumeInvariant {s t : State} {a : SlotId} {i : Instr} (he : s.executor = some a) (h : exec i s = .next t) :
    ¬t.FaultedWith .resumeInvariant := by
  obtain ⟨-, hf, -, -⟩ := State.executor_eq_some.mp he
  have transfer {base : BaseIndex} {offset n : Nat} (hi : i ∈ transferInstrs base offset n) :
      ¬t.FaultedWith .resumeInvariant := by
    rw [exec_eq_transfer he hi] at h
    exact outcome_not_faultedWith hf (transfer_run s a i).only (fun _ _ => continueAt_not_faultedWith) h
  cases i with
  | write b f n | writeNoInc b f n | mov b f n | movNoInc b f n | moveBlock b f n | and b f n | xor b f n | or b f n =>
    exact transfer (base := b) (offset := f) (n := n) (by simp [transferInstrs])
  | delay mode base offset =>
    obtain ⟨a, -, h⟩ := State.onExecutor_next h
    refine outcome_not_faultedWith hf (memRead_only ..) (fun T u hu h => ?_) h
    split at h
    · next w hw =>
      cases h
      exact (armDelay_only hw).not_faultedWith hu _
    · next k hk =>
      cases h
      exact not_faultedWith_raiseFatal (ne_resumeInvariant_of_arming (armDelay_eq_error hk)) u
  | waitForReg p base offset =>
    obtain ⟨a, -, h⟩ := State.onExecutor_next h
    refine outcome_not_faultedWith hf ?_ (fun vd u hu h => ?_) h
    · exact memRead_andThen_only _ fun v t => memRead_andThen_only _ fun d u => State.BusOnly.refl u
    · split at h
      · exact continueAt_not_faultedWith hu h
      · cases h; exact not_faultedWith_of_fault_none hu _
  | waitForSig p base offset =>
    obtain ⟨a, -, h⟩ := State.onExecutor_next h
    refine outcome_not_faultedWith hf (memRead_only ..) (fun d u hu h => ?_) h
    split at h
    · exact continueAt_not_faultedWith hu h
    · cases h; exact not_faultedWith_of_fault_none hu _
  | jump mode base offset =>
    obtain ⟨a, -, h⟩ := State.onExecutor_next h
    exact outcome_not_faultedWith hf (memRead_only ..) (fun _ _ => continueAt_not_faultedWith) h
  | setTrig op base offset =>
    obtain ⟨a, -, h⟩ := State.onExecutor_next h
    refine outcome_not_faultedWith hf (memRead_only ..) (fun m u hu h => ?_) h
    exact (continueAt_only h).not_faultedWith hu _
  | skipCond cond base offset =>
    obtain ⟨a, -, h⟩ := State.onExecutor_next h
    exact outcome_not_faultedWith hf (skipTest_only ..) (fun _ _ => continueAt_not_faultedWith) h
  | endSeqOrNop op base offset =>
    obtain ⟨a, -, h⟩ := State.onExecutor_next h
    cases op with
    | nop => exact continueAt_not_faultedWith hf h
    | endSeq => cases h; exact (complete_only s a).not_faultedWith hf _
  | reserved payload =>
    obtain ⟨a, -, h⟩ := State.onExecutor_next h
    cases h; exact not_faultedWith_raiseFatal FaultKind.noConfusion s

theorem executorStep_not_resumeInvariant {s t : State} (hf : s.fault = none) (h : executorStep s = .next t) :
    ¬t.FaultedWith .resumeInvariant := by
  rcases executorStep_eq_next h with ⟨-, rfl⟩ | ⟨a, he, ⟨-, rfl⟩ | ⟨w, -, ⟨r, -, rfl⟩ | ⟨i, -, h⟩⟩⟩
  · exact not_faultedWith_of_fault_none hf _
  · exact (busError_only (s.logAccess _) _).not_faultedWith hf _
  · exact not_faultedWith_raiseFatal (by cases r <;> exact FaultKind.noConfusion) _
  · exact exec_not_resumeInvariant (s := s.logAccess _) he h

/-! ## The step -/

theorem settle_not_resumeInvariant {s t : State} {x : Except Raise State} (hf : s.fault = none) (hx : ResumesSafely x)
    (honly : ∀ u, x = .ok u → u.fault = s.fault) (h : s.settle x = .next t) : ¬t.FaultedWith .resumeInvariant := by
  rcases State.settle_eq_next h with h | ⟨e, he, rfl⟩
  · exact not_faultedWith_of_fault_none ((honly t h).trans hf) _
  · exact not_faultedWith_raiseFatal (hx e he) _

theorem tickEvent_not_resumeInvariant {s t : State} {src : TickSource} {n : Nat} (hs : s.Sound) (hf : s.fault = none)
    (h : tickEvent s src n = .next t) : ¬t.FaultedWith .resumeInvariant := by
  unfold tickEvent at h
  split at h
  · cases h; exact not_faultedWith_of_fault_none hf _
  · exact settle_not_resumeInvariant hf (tick_resumesSafely hs src n) (fun _ hu => (tick_only hu).fault) h

theorem takeTurn_not_resumeInvariant {turn : Turn} {s t : State} (hs : s.Sound) (hf : s.fault = none)
    (h : takeTurn turn s = .next t) : ¬t.FaultedWith .resumeInvariant := by
  have unfaulted (h : t.fault = s.fault) : ¬t.FaultedWith .resumeInvariant :=
    not_faultedWith_of_fault_none (h.trans hf) _
  cases turn with
  | executor => exact executorStep_not_resumeInvariant hf h
  | hostRead w off =>
    simp only [takeTurn, hostRead] at h
    split at h
    · cases h
    · split at h <;> cases h
      exact unfaulted rfl
  | hostWrite w off v =>
    simp only [takeTurn, hostWrite] at h
    split at h
    · cases h
    · split at h
      · exact settle_not_resumeInvariant hf (hostWriteReg_resumesSafely hs _ v) (fun _ => hostWriteReg_fault) h
      · cases h
  | masterWrite addr v =>
    simp only [takeTurn, masterWrite] at h
    split at h <;> cases h <;> exact unfaulted rfl
  | masterWriteByte addr b =>
    simp only [takeTurn, masterWriteByte] at h
    split at h
    · cases h
    · split at h <;> cases h <;> exact unfaulted rfl
  | preAccrue | signalClear | reset => cases h; exact unfaulted rfl
  | preOverflow =>
    simp only [takeTurn, preOverflow] at h
    split at h
    · cases h; exact unfaulted rfl
    · exact settle_not_resumeInvariant hf (tick_resumesSafely (hs.setPreOutstanding 0) _ _) (fun _ hu => (tick_only hu).fault) h
  | baseOverflow n => exact tickEvent_not_resumeInvariant hs hf h
  | wrapOverflow n => exact tickEvent_not_resumeInvariant hs hf h
  | captureCompare c =>
    exact settle_not_resumeInvariant hf (requestStart_resumesSafely hs _ _) (fun _ hu => (requestStart_only hu).fault) h
  | hwEvent e =>
    exact settle_not_resumeInvariant hf (requestStart_resumesSafely hs _ _) (fun _ hu => (requestStart_only hu).fault) h
  | pollTick =>
    exact settle_not_resumeInvariant hf (countDown_resumesSafely hs _ _) (fun _ hu => (countDown_only hu).fault) h
  | timerExpire =>
    simp only [takeTurn, timerExpire] at h
    split at h
    · next harmed =>
      exact settle_not_resumeInvariant hf (expire_resumesSafely (hs.timerFits harmed.1)) (fun _ hu => (expire_only hu).fault) h
    · cases h; exact unfaulted rfl
  | signalSet m => cases h; exact unfaulted (signalSet_only s m).fault

end Sys2Proof.Machine

open Sys2Proof Sys2Proof.Machine

/-- Settles O60, by cases on the turn that the step takes. -/
theorem resumeInvariantUnreachable : Obligations.ResumeInvariantUnreachable := by
  unfold Obligations.ResumeInvariantUnreachable
  intro s t hs h
  obtain ⟨hf, hturn⟩ := step_eq_next h
  exact takeTurn_not_resumeInvariant (turnStart_sound hs) hf hturn

end

section
/-! SUPPORT. A bus error at word `j` of a copy or a combination: the words before it are done in plain memory, the failing access
is noted and nothing follows (40_execution_cycle.md R117; 20_memory.md R62). And the executor's fetch (R112, R113). -/

namespace Sys2Proof.Machine

/-! ## Runs whose first words lie in plain memory -/

/-- The copy of the first `j` words, in plain memory, is the spec's loop; the rest of the copy goes on from there. -/
theorem copyWords_add_plain (step : Word) (j m : Nat) {src dst : Word} {s : State}
    (h : ∀ k, k < j → s.PlainAt (wordAddr src k) ∧ s.PlainAt (dst + BitVec.ofNat 32 k * step)) :
    copyWords step (j + m) src dst s = copyWords step m (wordAddr src j) (dst + BitVec.ofNat 32 j * step)
      (forWords j (fun k t => t.plainCopy (wordAddr src k) (dst + BitVec.ofNat 32 k * step)) s) := by
  induction j generalizing src dst s with
  | zero => simp
  | succ j ih =>
    obtain ⟨hsrc, hdst⟩ := h 0 j.succ_pos
    have hfirst : copyWords step (j + 1 + m) src dst s =
        copyWords step (j + m) (src + 4) (dst + step) (s.plainCopy src dst) := by
      rw [wordAddr_zero] at hsrc
      rw [BitVec.zero_mul, BitVec.add_zero] at hdst
      rw [Nat.add_right_comm, copyWords_succ, memRead_plain hsrc, Access.done_andThen,
        memWrite_plain (s := s.logAccess _) hdst, Access.done_andThen]
      rfl
    rw [hfirst, ih fun k hk => ?_, forWords_succ]
    · simp only [wordAddr_succ, stepAddr_succ, wordAddr_zero, BitVec.zero_mul, BitVec.add_zero]
    · have hrest := h (k + 1) (Nat.succ_lt_succ hk)
      rw [wordAddr_succ, stepAddr_succ] at hrest
      exact hrest

/-- The same, for a combination. -/
theorem combineWords_add_plain (op : Word → Word → Word) (j m : Nat) {src dst : Word} {s : State}
    (h : ∀ k, k < j → s.PlainAt (wordAddr src k) ∧ s.PlainAt (wordAddr dst k)) :
    combineWords op (j + m) src dst s = combineWords op m (wordAddr src j) (wordAddr dst j)
      (forWords j (fun k t => t.plainCombine op (wordAddr src k) (wordAddr dst k)) s) := by
  induction j generalizing src dst s with
  | zero => simp
  | succ j ih =>
    obtain ⟨hsrc, hdst⟩ := h 0 j.succ_pos
    have hfirst : combineWords op (j + 1 + m) src dst s =
        combineWords op (j + m) (src + 4) (dst + 4) (s.plainCombine op src dst) := by
      rw [wordAddr_zero] at hsrc hdst
      rw [Nat.add_right_comm, combineWords_succ, memRead_plain hsrc, Access.done_andThen,
        memRead_plain (s := s.logAccess _) hdst, Access.done_andThen,
        memWrite_plain (s := (s.logAccess _).logAccess _) hdst, Access.done_andThen]
      rfl
    rw [hfirst, ih fun k hk => ?_, forWords_succ]
    · simp only [wordAddr_succ, wordAddr_zero]
    · have hrest := h (k + 1) (Nat.succ_lt_succ hk)
      rw [wordAddr_succ, wordAddr_succ] at hrest
      exact hrest

/-! ## A failure at word `j` -/

/-- After the copy of `j` words in plain memory the run fails where the bus fails the read or the write of word `j`. -/
def Access.CopyStops (x : Access Unit) (j : Nat) (s : State) (src dst : Nat → Word) : Prop :=
  let t := forWords j (fun k u => u.plainCopy (src k) (dst k)) s
  (t.busRead (src j) = .error → x = .failed (src j) (t.logAccess (.read (src j) none))) ∧
  ∀ v, t.busRead (src j) = .value v →
    let u := t.logAccess (.read (src j) (some v))
    u.busWrite (dst j) v = .error → x = .failed (dst j) (u.logAccess (.write (dst j) v false))

/-- After the combination of `j` words in plain memory the run fails where the bus fails one of the three accesses of word `j`. -/
def Access.CombineStops (x : Access Unit) (j : Nat) (op : Word → Word → Word) (s : State) (src dst : Nat → Word) : Prop :=
  let t := forWords j (fun k u => u.plainCombine op (src k) (dst k)) s
  (t.busRead (src j) = .error → x = .failed (src j) (t.logAccess (.read (src j) none))) ∧
  ∀ v, t.busRead (src j) = .value v →
    let u := t.logAccess (.read (src j) (some v))
    (u.busRead (dst j) = .error → x = .failed (dst j) (u.logAccess (.read (dst j) none))) ∧
    ∀ w, u.busRead (dst j) = .value w →
      let y := u.logAccess (.read (dst j) (some w))
      y.busWrite (dst j) (op w v) = .error → x = .failed (dst j) (y.logAccess (.write (dst j) (op w v) false))

theorem copyWords_stops (step : Word) {n j : Nat} {src dst : Word} {s : State} (hj : j < n)
    (h : ∀ k, k < j → s.PlainAt (wordAddr src k) ∧ s.PlainAt (dst + BitVec.ofNat 32 k * step)) :
    (copyWords step n src dst s).CopyStops j s (wordAddr src) fun k => dst + BitVec.ofNat 32 k * step := by
  obtain ⟨m, rfl⟩ := Nat.exists_eq_add_of_lt hj
  rw [Nat.add_assoc, copyWords_add_plain step j (m + 1) h, copyWords_succ]
  refine ⟨fun hread => ?_, fun v hread hwrite => ?_⟩
  · rw [memRead_of_error hread, Access.failed_andThen]
  · rw [memRead_of_value hread, Access.done_andThen, memWrite_of_error hwrite, Access.failed_andThen]

/-- A copy to rising addresses. -/
theorem copyWords_rising_stops {n j : Nat} {src dst : Word} {s : State} (hj : j < n)
    (h : ∀ k, k < j → s.PlainAt (wordAddr src k) ∧ s.PlainAt (wordAddr dst k)) :
    (copyWords 4 n src dst s).CopyStops j s (wordAddr src) (wordAddr dst) := by
  have hstops := copyWords_stops 4 (dst := dst) hj (by simpa only [stepAddr_four] using h)
  simpa only [stepAddr_four] using hstops

/-- A copy to one address. -/
theorem copyWords_fixed_stops {n j : Nat} {src dst : Word} {s : State} (hj : j < n)
    (h : ∀ k, k < j → s.PlainAt (wordAddr src k) ∧ s.PlainAt dst) :
    (copyWords 0 n src dst s).CopyStops j s (wordAddr src) fun _ => dst := by
  have hstops := copyWords_stops 0 (dst := dst) hj (by simpa only [stepAddr_zero] using h)
  simpa only [stepAddr_zero] using hstops

theorem combineWords_stops (op : Word → Word → Word) {n j : Nat} {src dst : Word} {s : State} (hj : j < n)
    (h : ∀ k, k < j → s.PlainAt (wordAddr src k) ∧ s.PlainAt (wordAddr dst k)) :
    (combineWords op n src dst s).CombineStops j op s (wordAddr src) (wordAddr dst) := by
  obtain ⟨m, rfl⟩ := Nat.exists_eq_add_of_lt hj
  rw [Nat.add_assoc, combineWords_add_plain op j (m + 1) h, combineWords_succ]
  refine ⟨fun hinline => ?_, fun v hinline => ⟨fun htarget => ?_, fun w htarget hwrite => ?_⟩⟩
  · rw [memRead_of_error hinline, Access.failed_andThen]
  · rw [memRead_of_value hinline, Access.done_andThen, memRead_of_error htarget, Access.failed_andThen]
  · rw [memRead_of_value hinline, Access.done_andThen, memRead_of_value htarget, Access.done_andThen,
      memWrite_of_error hwrite, Access.failed_andThen]

/-! ## The instructions -/

/-- A failing access of one of the eight is a bus error at its address, and ends the instruction. -/
theorem exec_of_transfer_fails {s u : State} {a : SlotId} {base : BaseIndex} {offset n : Nat} {i : Instr} {addr : Word}
    (he : s.executor = some a) (hi : i ∈ transferInstrs base offset n) (h : s.transfer a i = .failed addr u) :
    exec i s = .next (u.busError addr) := by
  rw [exec_eq_transfer he hi, h, Access.failed_outcome]

/-- After MoveBlock has read its indirect address it is a copy from or to there. -/
theorem moveBlock_transfer {s : State} {a : SlotId} {ind : Word} (h : s.busRead (s.pc a + 4) = .value ind) (b : BaseIndex)
    (f n : Nat) :
    s.transfer a (.moveBlock b f n) =
      if (s.slot a).movSwapAddresses = true then
        copyWords 4 n (s.target b f) ind (s.logAccess (.read (s.pc a + 4) (some ind)))
      else copyWords 4 n ind (s.target b f) (s.logAccess (.read (s.pc a + 4) (some ind))) := by
  rw [State.transfer, memRead_of_value h, Access.done_andThen]

/-! ## The fetch -/

/-- A fetch that fails ends the step (40_execution_cycle.md R112). -/
theorem step_of_fetch_error {s : State} {a : SlotId} (h : s.ExecutorMoves a) (hb : s.busRead (s.pc a) = .error) :
    step s = .next ((s.turnStart.logAccess (.read (s.pc a) none)).busError (s.pc a)) := by
  rw [step_executor h, fetch, State.turnStart_pc, memRead_of_error (s := s.turnStart) hb, Access.failed_outcome]

end Sys2Proof.Machine

open Sys2Proof Sys2Proof.Machine

/-- Settles O15: each instruction is its run of accesses, which fails at the first access that the bus fails. -/
theorem transferErrorKeepsEarlierWords : Obligations.TransferErrorKeepsEarlierWords := by
  unfold Obligations.TransferErrorKeepsEarlierWords
  intro s a base offset n j he hj inl tgt fixed copyStops combineStops
  have hcopy {i : Instr} {s0 : State} {src dst : Nat → Word} (hi : i ∈ transferInstrs base offset n)
      (h : (∀ k, k < j → s.PlainAt (src k) ∧ s.PlainAt (dst k)) → (s.transfer a i).CopyStops j s0 src dst) :
      copyStops i s0 src dst := by
    intro hplain t
    obtain ⟨hread, hwrite⟩ := h hplain
    exact ⟨fun hr => exec_of_transfer_fails he hi (hread hr),
      fun v hv hw => exec_of_transfer_fails he hi (hwrite v hv hw)⟩
  have hcombine {i : Instr} {op : Word → Word → Word} (hi : i ∈ transferInstrs base offset n)
      (h : (∀ k, k < j → s.PlainAt (inl k) ∧ s.PlainAt (tgt k)) → (s.transfer a i).CombineStops j op s inl tgt) :
      combineStops i op := by
    intro hplain t
    obtain ⟨hinline, hrest⟩ := h hplain
    refine ⟨fun hr => exec_of_transfer_fails he hi (hinline hr), fun v hv => ?_⟩
    obtain ⟨htarget, hwrite⟩ := hrest v hv
    exact ⟨fun hr => exec_of_transfer_fails he hi (htarget hr),
      fun w hw hx => exec_of_transfer_fails he hi (hwrite w hw hx)⟩
  have hrising {i : Instr} {s0 : State} {src dst : Word} (hi : i ∈ transferInstrs base offset n)
      (hparams : s0.params = s.params) (h : s.transfer a i = copyWords 4 n src dst s0) :
      copyStops i s0 (wordAddr src) (wordAddr dst) :=
    hcopy hi fun hplain =>
      h ▸ copyWords_rising_stops hj fun k hk => (hplain k hk).imp (.congr hparams) (.congr hparams)
  refine ⟨?_, ?_, ?_, fun hswap => ?_, fun hswap => ?_, fun ind hind => ⟨fun hswap => ?_, fun hswap => ?_⟩, ?_, ?_, ?_⟩
  · exact hrising (i := .write ..) (by simp [transferInstrs]) rfl rfl
  · exact hcopy (i := .writeNoInc ..) (by simp [transferInstrs]) (copyWords_fixed_stops hj)
  · exact hcopy (i := .movNoInc ..) (by simp [transferInstrs]) (copyWords_fixed_stops hj)
  · exact hrising (by simp [transferInstrs]) rfl (if_neg (ne_true_of_eq_false hswap))
  · exact hrising (by simp [transferInstrs]) rfl (if_pos hswap)
  · exact hrising (by simp [transferInstrs]) rfl ((moveBlock_transfer hind ..).trans (if_neg (ne_true_of_eq_false hswap)))
  · exact hrising (by simp [transferInstrs]) rfl ((moveBlock_transfer hind ..).trans (if_pos hswap))
  · exact hcombine (i := .and ..) (by simp [transferInstrs]) (combineWords_stops _ hj)
  · exact hcombine (i := .xor ..) (by simp [transferInstrs]) (combineWords_stops _ hj)
  · exact hcombine (i := .or ..) (by simp [transferInstrs]) (combineWords_stops _ hj)

/-- Settles O7: the fetch answers the word, and the decoder the instruction. -/
theorem stepRunsDecodedInstruction : Obligations.StepRunsDecodedInstruction := by
  unfold Obligations.StepRunsDecodedInstruction
  exact fun s a w i => step_of_decode_ok

/-- Settles O9: the fetch is the step's first access. -/
theorem fetchErrorAborts : Obligations.FetchErrorAborts := by
  unfold Obligations.FetchErrorAborts
  exact fun s a => step_of_fetch_error

end

section
/-! SUPPORT. The transfer instructions in plain memory: the exact next state of each, and what a run of copies leaves at each
destination (41_transfer.md R130 to R138). And an instruction whose first access fails (60_exceptions.md R256). -/

namespace Sys2Proof.Machine

/-! ## Instructions whose accesses complete -/

/-- Where the accesses of one of the eight complete, it goes on from the state they leave. -/
theorem exec_of_transfer_done {s u : State} {a : SlotId} {base : BaseIndex} {offset n : Nat} {i : Instr}
    (he : s.executor = some a) (hi : i ∈ transferInstrs base offset n) (h : s.transfer a i = .done () u) :
    exec i s = .next (u.setPc a (s.pc a + BitVec.ofNat 32 (4 * i.wordCount))) := by
  rw [exec_eq_transfer he hi, h, Access.done_outcome, State.continueAt]

/-- The same, for those that go on after `n` inline words. -/
theorem exec_of_inline_transfer_done {s u : State} {a : SlotId} {base : BaseIndex} {offset n : Nat} {i : Instr}
    (he : s.executor = some a) (hi : i ∈ transferInstrs base offset n) (hcount : i.wordCount = 1 + n)
    (h : s.transfer a i = .done () u) :
    exec i s = .next (u.setPc a (s.pc a + 4 + BitVec.ofNat 32 (4 * n))) := by
  rw [exec_of_transfer_done he hi h, hcount, ← afterInline_eq, afterInline]

/-- In plain memory the direction MOVSWAP chooses is the direction of each word's copy. -/
theorem copyWords_swap_plain {c : Prop} [Decidable c] {n : Nat} {p q : Word} {s : State}
    (h : ∀ k, k < n → s.PlainAt (wordAddr p k) ∧ s.PlainAt (wordAddr q k)) :
    (if c then copyWords 4 n q p s else copyWords 4 n p q s) = .done () (forWords n (fun k t =>
      if c then t.plainCopy (wordAddr q k) (wordAddr p k) else t.plainCopy (wordAddr p k) (wordAddr q k)) s) := by
  by_cases hc : c
  · simpa only [if_pos hc] using copyWords_plain n fun k hk => (h k hk).symm
  · simpa only [if_neg hc] using copyWords_plain n h

/-! ## What copies in plain memory leave behind -/

/-- The loop's last turn comes after the turns before it. -/
theorem forWords_succ_last (n : Nat) (body : Nat → State → State) (s : State) :
    forWords (n + 1) body s = body n (forWords n body s) := by
  simp only [forWords, List.range_succ, List.foldl_append, List.foldl_cons, List.foldl_nil]

/-- A word none of whose bytes was stored to reads as before. -/
theorem State.MemStays.word {s t : State} {S : Word → Prop} {addr : Word} (h : s.MemStays S t) (hp : t.params = s.params)
    (hout : ∀ x, InWord addr x → ¬S x) : t.word addr = s.word addr := by
  have hbyte (x : Word) (hx : InWord addr x) : t.mem.byteAt x = s.mem.byteAt x := h.2 x (hout x hx)
  simp only [State.word, Memory.readWord, hp]
  rw [hbyte addr (.inl rfl), hbyte (addr + 1) (.inr (.inl rfl)), hbyte (addr + 2) (.inr (.inr (.inl rfl))),
    hbyte (addr + 3) (.inr (.inr (.inr rfl)))]

theorem State.plainCopy_stays {s : State} (hw : s.mem.wf = true) (src dst : Word) :
    s.MemStays (InWord dst) (s.plainCopy src dst) := by
  refine ⟨Memory.wf_writeWord hw _ _ _, fun x hx => ?_⟩
  simp only [InWord, not_or] at hx
  obtain ⟨h0, h1, h2, h3⟩ := hx
  exact Memory.byteAt_writeWord_of_ne hw _ _ _ x h0 h1 h2 h3

/-- A copied word reads at its destination as it did at its source (20_memory.md R63). -/
theorem State.plainCopy_word {s : State} (hw : s.mem.wf = true) (src dst : Word) :
    (s.plainCopy src dst).word dst = s.word src :=
  Memory.readWord_writeWord hw _ _ _

section Copies

variable {s : State} {src dst : Nat → Word}

theorem forWords_plainCopy_params (n : Nat) :
    (forWords n (fun k t => t.plainCopy (src k) (dst k)) s).params = s.params :=
  forWords_params fun k t => t.plainCopy_params (src k) (dst k)

/-- Copies change only the bytes of their destinations. -/
theorem forWords_plainCopy_stays (hw : s.mem.wf = true) (n : Nat) :
    s.MemStays (fun x => ∃ j, j < n ∧ InWord (dst j) x) (forWords n (fun k t => t.plainCopy (src k) (dst k)) s) := by
  induction n with
  | zero => exact .of_mem_eq hw rfl _
  | succ n ih =>
    rw [forWords_succ_last]
    have hearlier := ih.mono (S' := fun x => ∃ j, j < n + 1 ∧ InWord (dst j) x)
      fun x ⟨j, hj, hx⟩ => ⟨j, Nat.lt_succ_of_lt hj, hx⟩
    exact hearlier.trans ((State.plainCopy_stays hearlier.1 (src n) (dst n)).mono fun x hx => ⟨n, n.lt_succ_self, hx⟩)

/-- The last copy leaves the last source word, where no earlier copy stored to that word. -/
theorem forWords_plainCopy_last_word (hw : s.mem.wf = true) {n : Nat}
    (hapart : ∀ j, j < n → ∀ x, InWord (src n) x → ¬InWord (dst j) x) :
    (forWords (n + 1) (fun k t => t.plainCopy (src k) (dst k)) s).word (dst n) = s.word (src n) := by
  have hstays := forWords_plainCopy_stays (src := src) (dst := dst) hw n
  rw [forWords_succ_last, State.plainCopy_word hstays.1]
  exact hstays.word (forWords_plainCopy_params n) fun x hx ⟨j, hj, hxj⟩ => hapart j hj x hx hxj

/-- Copies to destinations apart from one another and from the sources leave every source word at its destination. -/
theorem forWords_plainCopy_word (hw : s.mem.wf = true) {n : Nat}
    (hapart : ∀ k, k < n → ∀ j, j < n → ∀ x, InWord (src k) x → ¬InWord (dst j) x)
    (hdst : ∀ k, k < n → ∀ j, j < n → k ≠ j → ∀ x, InWord (dst k) x → ¬InWord (dst j) x) {k : Nat} (hk : k < n) :
    (forWords n (fun k t => t.plainCopy (src k) (dst k)) s).word (dst k) = s.word (src k) := by
  induction n with
  | zero => exact absurd hk k.not_lt_zero
  | succ n ih =>
    rcases Nat.lt_succ_iff_lt_or_eq.mp hk with hlt | rfl
    · have hwf := (forWords_plainCopy_stays (src := src) (dst := dst) hw n).1
      rw [forWords_succ_last]
      have hkept := (State.plainCopy_stays hwf (src n) (dst n)).word (addr := dst k) (State.plainCopy_params ..)
        (hdst k hk n n.lt_succ_self hlt.ne)
      exact hkept.trans (ih (fun i hi j hj => hapart i (Nat.lt_succ_of_lt hi) j (Nat.lt_succ_of_lt hj))
        (fun i hi j hj => hdst i (Nat.lt_succ_of_lt hi) j (Nat.lt_succ_of_lt hj)) hlt)
    · exact forWords_plainCopy_last_word hw fun j hj => hapart k hk j (Nat.lt_succ_of_lt hj)

end Copies

/-- A byte of a block's word tells which word of the block it is, below the wrap of the addresses. -/
theorem InWord.index_eq {a x : Word} {k : Nat} (h : InWord (wordAddr a k) x) (hk : k < 2 ^ 30) : (x - a).toNat / 4 = k := by
  unfold InWord wordAddr at h
  rcases h with rfl | rfl | rfl | rfl <;>
  · simp only [BitVec.toNat_sub, BitVec.toNat_add, BitVec.toNat_ofNat, BitVec.reduceToNat]
    omega

/-- Two words of a block of less than 2^32 bytes have no byte in common. -/
theorem InWord.not_of_ne {a x : Word} {k j : Nat} (h : InWord (wordAddr a k) x) (hk : k < 2 ^ 30) (hj : j < 2 ^ 30)
    (hne : k ≠ j) : ¬InWord (wordAddr a j) x :=
  fun hx => hne ((h.index_eq hk).symm.trans (hx.index_eq hj))

/-! ## A first access that fails -/

/-- Accesses that begin with a failing read end there, whatever would follow. -/
theorem memRead_andThen_of_error {α : Type} {s : State} {addr : Word} (h : s.busRead addr = .error)
    (k : Word → State → Access α) : (memRead s addr).andThen k = .failed addr (s.logAccess (.read addr none)) := by
  rw [memRead_of_error h, Access.failed_andThen]

theorem copyWords_of_error {n : Nat} {src : Word} {s : State} (hn : 0 < n) (h : s.busRead src = .error) (step dst : Word) :
    copyWords step n src dst s = .failed src (s.logAccess (.read src none)) := by
  obtain ⟨m, rfl⟩ := Nat.exists_eq_succ_of_ne_zero hn.ne'
  rw [copyWords_succ, memRead_andThen_of_error h]

theorem combineWords_of_error {n : Nat} {src : Word} {s : State} (hn : 0 < n) (h : s.busRead src = .error)
    (op : Word → Word → Word) (dst : Word) :
    combineWords op n src dst s = .failed src (s.logAccess (.read src none)) := by
  obtain ⟨m, rfl⟩ := Nat.exists_eq_succ_of_ne_zero hn.ne'
  rw [combineWords_succ, memRead_andThen_of_error h]

/-- A meaning whose accesses end at a failing one is the bus error at its address. -/
theorem onExecutor_of_failed {α : Type} {s u : State} {a : SlotId} {addr : Word} {x : SlotId → Access α}
    {k : SlotId → α → State → Outcome} (he : s.executor = some a) (h : x a = .failed addr u) :
    s.onExecutor (fun a => (x a).outcome (k a)) = .next (u.busError addr) := by
  rw [State.onExecutor_some he, h, Access.failed_outcome]

end Sys2Proof.Machine

open Sys2Proof Sys2Proof.Machine

/-- Settles O16: the copy of the inline words is the spec's loop. -/
theorem writeCopiesAscending : Obligations.WriteCopiesAscending := by
  unfold Obligations.WriteCopiesAscending
  intro s a base offset n he src dst hplain
  have hi : Instr.write base offset n ∈ transferInstrs base offset n := by simp [transferInstrs]
  exact exec_of_inline_transfer_done he hi rfl (copyWords_plain n hplain)

/-- Settles O17: the copy to one address is the spec's loop. -/
theorem writeNoIncWritesOneAddress : Obligations.WriteNoIncWritesOneAddress := by
  unfold Obligations.WriteNoIncWritesOneAddress
  intro s a base offset n he src hplain
  have hi : Instr.writeNoInc base offset n ∈ transferInstrs base offset n := by simp [transferInstrs]
  exact exec_of_inline_transfer_done he hi rfl (copyWords_fixed_plain n hplain)

/-- Settles O18: in either direction the copy is the spec's loop. -/
theorem movCopiesByDirection : Obligations.MovCopiesByDirection := by
  unfold Obligations.MovCopiesByDirection
  intro s a base offset n he inl tgt hplain
  have hi : Instr.mov base offset n ∈ transferInstrs base offset n := by simp [transferInstrs]
  exact exec_of_inline_transfer_done he hi rfl (copyWords_swap_plain hplain)

/-- Settles O19: MovNoInc's accesses are those of WriteNoInc, which do not depend on MOVSWAP. -/
theorem movNoIncIgnoresSwap : Obligations.MovNoIncIgnoresSwap := by
  unfold Obligations.MovNoIncIgnoresSwap
  intro s a base offset n he src hplain
  have hi : Instr.movNoInc base offset n ∈ transferInstrs base offset n := by simp [transferInstrs]
  exact exec_of_inline_transfer_done he hi rfl (copyWords_fixed_plain n hplain)

/-- Settles O20: after the read of the indirect address it is Mov's copy, from the state that read leaves. -/
theorem moveBlockCopiesIndirect : Obligations.MoveBlockCopiesIndirect := by
  unfold Obligations.MoveBlockCopiesIndirect
  intro s a base offset n ind he tgt hind hplain
  have hcopies := copyWords_swap_plain (c := (s.slot a).movSwapAddresses = true)
    (s := s.logAccess (.read (s.pc a + 4) (some ind))) fun k hk => (hplain k hk).imp (.congr rfl) (.congr rfl)
  have hi : Instr.moveBlock base offset n ∈ transferInstrs base offset n := by simp [transferInstrs]
  exact exec_of_transfer_done he hi ((moveBlock_transfer hind base offset n).trans hcopies)

/-- Settles O25, from Write's exact state: no copy stores to an inline word or to another word of the target. -/
theorem writeRoundTrip : Obligations.WriteRoundTrip := by
  unfold Obligations.WriteRoundTrip
  intro s a base offset n hw he hn src dst hplain hapart
  refine ⟨_, writeCopiesAscending s a base offset n he hplain, fun k hk => ?_⟩
  exact forWords_plainCopy_word hw (fun k hk j hj x hx hxj => hapart x ⟨k, hk, hx⟩ ⟨j, hj, hxj⟩)
    (fun k hk j hj hne x hx => hx.not_of_ne (by omega) (by omega) hne) hk

/-- Settles O26: the last copy decides the word, and a complete run makes every access of its rule. -/
theorem writeNoIncLeavesLastWord : Obligations.WriteNoIncLeavesLastWord := by
  unfold Obligations.WriteNoIncLeavesLastWord
  intro s a base offset n hw he src tgt hsrc htgt hapart
  have hplain : ∀ k, k < n + 1 → s.PlainAt (src k) ∧ s.PlainAt tgt := fun k hk => ⟨hsrc k hk, htgt⟩
  have hexec := writeNoIncWritesOneAddress s a base offset (n + 1) he hplain
  have hi : Instr.writeNoInc base offset (n + 1) ∈ transferInstrs base offset (n + 1) := by simp [transferInstrs]
  obtain ⟨t, ht, -, htrace⟩ := exec_of_transfer_completes he hi ⟨_, copyWords_fixed_plain (n + 1) hplain⟩
  obtain rfl := Host.Outcome.next.inj (hexec.symm.trans ht)
  exact ⟨_, ht, forWords_plainCopy_last_word (dst := fun _ => tgt) hw fun _ _ x hx =>
    hapart x ⟨n, n.lt_succ_self, hx⟩, htrace⟩

/-- Settles O14: each instruction's accesses end at the first read, by the shape of its meaning. -/
theorem firstReadErrorAborts : Obligations.FirstReadErrorAborts := by
  unfold Obligations.FirstReadErrorAborts
  intro s a base offset n he failed
  refine ⟨fun h => ⟨?_, ?_, ?_, ?_, ?_, ?_, fun hn => ?_⟩, fun h => ⟨?_, ?_, fun hn hswap => ?_⟩⟩
  · exact fun mode => onExecutor_of_failed he (memRead_of_error h)
  · exact fun p => onExecutor_of_failed he (memRead_of_error h)
  · exact fun mode => onExecutor_of_failed he (memRead_of_error h)
  · exact fun op => onExecutor_of_failed he (memRead_of_error h)
  · exact fun p => onExecutor_of_failed he (memRead_andThen_of_error h _)
  · exact onExecutor_of_failed he (memRead_andThen_of_error h _)
  · have hcopy (i : Instr) (step : Word) (hi : i ∈ transferInstrs base offset n)
        (hx : s.transfer a i = copyWords step n (s.pc a + 4) (s.target base offset) s) : exec i s = failed (s.pc a + 4) :=
      exec_of_transfer_fails he hi (hx.trans (copyWords_of_error hn h _ _))
    have hcombine (i : Instr) (op : Word → Word → Word) (hi : i ∈ transferInstrs base offset n)
        (hx : s.transfer a i = combineWords op n (s.pc a + 4) (s.target base offset) s) :
        exec i s = failed (s.pc a + 4) :=
      exec_of_transfer_fails he hi (hx.trans (combineWords_of_error hn h _ _))
    refine ⟨?_, ?_, ?_, ?_, ?_, ?_, fun hswap => ?_⟩
    · exact hcopy _ 4 (by simp [transferInstrs]) rfl
    · exact hcopy _ 0 (by simp [transferInstrs]) rfl
    · exact hcopy _ 0 (by simp [transferInstrs]) rfl
    · exact hcombine _ (· &&& ·) (by simp [transferInstrs]) rfl
    · exact hcombine _ (· ^^^ ·) (by simp [transferInstrs]) rfl
    · exact hcombine _ (· ||| ·) (by simp [transferInstrs]) rfl
    · exact hcopy _ 4 (by simp [transferInstrs]) (if_neg (ne_true_of_eq_false hswap))
  · exact fun p => onExecutor_of_failed he (memRead_andThen_of_error h _)
  · exact fun p => onExecutor_of_failed he (memRead_andThen_of_error h _)
  · have hi : Instr.mov base offset n ∈ transferInstrs base offset n := by simp [transferInstrs]
    exact exec_of_transfer_fails he hi ((if_pos hswap).trans (copyWords_of_error hn h _ _))

end

section
/-! SUPPORT. The logical instructions in plain memory: the exact next state of each (42_logical.md R150 to R152). -/

namespace Sys2Proof.Machine

/-- In plain memory an instruction whose accesses are a combination with `op` leaves the state of the spec's loop, and goes on
after the inline words. -/
theorem exec_of_combination_plain {s : State} {a : SlotId} {base : BaseIndex} {offset n : Nat} {i : Instr}
    (op : Word → Word → Word) (he : s.executor = some a) (hi : i ∈ transferInstrs base offset n) (hcount : i.wordCount = 1 + n)
    (hx : s.transfer a i = combineWords op n (s.pc a + 4) (s.target base offset) s)
    (hplain : ∀ k, k < n → s.PlainAt (wordAddr (s.pc a + 4) k) ∧ s.PlainAt (wordAddr (s.target base offset) k)) :
    exec i s = .next ((forWords n (fun k t =>
      t.plainCombine op (wordAddr (s.pc a + 4) k) (wordAddr (s.target base offset) k)) s).setPc a
        (s.pc a + 4 + BitVec.ofNat 32 (4 * n))) :=
  exec_of_inline_transfer_done he hi hcount (hx.trans (combineWords_plain op n hplain))

end Sys2Proof.Machine

open Sys2Proof Sys2Proof.Machine

/-- Settles O21: the accesses of each of the three are a combination, with its own operation. -/
theorem logicalOpsCombine : Obligations.LogicalOpsCombine := by
  unfold Obligations.LogicalOpsCombine
  intro s a base offset n he src dst result hplain
  refine ⟨?and, ?xor, ?or⟩
  case and => exact exec_of_combination_plain (· &&& ·) he (by simp [transferInstrs]) rfl rfl hplain
  case xor => exact exec_of_combination_plain (· ^^^ ·) he (by simp [transferInstrs]) rfl rfl hplain
  case or => exact exec_of_combination_plain (· ||| ·) he (by simp [transferInstrs]) rfl rfl hplain

end

section
/-! SUPPORT. Arming and ending a Delay, and what a tick leaves of one: each operation's answer where its conditions hold, and
the frame of an expiry around the slots (43_wait.md R171; 60_exceptions.md R261 to R269). -/

namespace Sys2Proof.Machine

theorem State.pc_updateSlot_self (s : State) (i : SlotId) (f : Slot → Slot) :
    (s.updateSlot i f).pc i = (f (s.slot i)).currentAddress :=
  congrArg Slot.currentAddress (s.slot_updateSlot_self i f)

/-! ## Arming a delay -/

theorem remainingDelayTicks_relative {s : State} {x : Slot} (hr : x.delayIsRelative = true)
    (h0 : x.delayRemainingTicksOrTopValue ≠ 0) :
    remainingDelayTicks s x = .ok x.delayRemainingTicksOrTopValue.toNat := by
  rw [remainingDelayTicks, if_pos hr, if_neg h0]

theorem remainingDelayTicks_relative_zero {s : State} {x : Slot} (hr : x.delayIsRelative = true)
    (h0 : x.delayRemainingTicksOrTopValue = 0) :
    (s.params.relDelayZero = .fault → remainingDelayTicks s x = .error .zeroRelativeDelay) ∧
      (s.params.relDelayZero = .nextTick → remainingDelayTicks s x = .ok 1) := by
  rw [remainingDelayTicks, if_pos hr, if_pos h0]
  exact ⟨fun h => by rw [h], fun h => by rw [h]⟩

theorem remainingDelayTicks_absolute {s : State} {x : Slot} (hr : x.delayIsRelative = false)
    (hlt : s.absoluteDelayCounter < x.delayRemainingTicksOrTopValue.toNat) :
    remainingDelayTicks s x = .ok (x.delayRemainingTicksOrTopValue.toNat - s.absoluteDelayCounter) := by
  rw [remainingDelayTicks, if_neg (by simp [hr]), if_neg (by omega)]

theorem remainingDelayTicks_absolute_passed {s : State} {x : Slot} (hr : x.delayIsRelative = false)
    (hle : x.delayRemainingTicksOrTopValue.toNat ≤ s.absoluteDelayCounter) :
    remainingDelayTicks s x = .error .delayThresholdPassed := by
  rw [remainingDelayTicks, if_neg (by simp [hr]), if_pos hle]

theorem armDelay_of_ticks {s : State} {i : SlotId} {tb : TickSource} {n : Nat} (htb : s.timeBase.source = some tb)
    (hn : remainingDelayTicks s (s.slot i) = .ok n) : armDelay s i = .ok (s.arm .delay i tb n) := by
  simp only [armDelay, htb, hn]

/-- Clock as time base is found before the count is looked at. -/
theorem armDelay_of_clock {s : State} (h : s.timeBase = .clock) (i : SlotId) : armDelay s i = .error .clockTimeBase := by
  simp only [armDelay, h, TimeBase.source]

theorem TimeBase.exists_source {b : TimeBase} (h : b ≠ .clock) : ∃ tb, b.source = some tb := by
  cases b with
  | clock => exact absurd rfl h
  | preCountOverflow => exact ⟨_, rfl⟩
  | baseCountOverflow => exact ⟨_, rfl⟩
  | wrapCountOverflow => exact ⟨_, rfl⟩

theorem armDelay_of_ticks_error {s : State} {i : SlotId} {k : FaultKind} (htb : s.timeBase ≠ .clock)
    (hk : remainingDelayTicks s (s.slot i) = .error k) : armDelay s i = .error k := by
  obtain ⟨tb, hsource⟩ := TimeBase.exists_source htb
  simp only [armDelay, hsource, hk]

/-! ## Ticks that count -/

theorem countTick_of_fits {s : State} {src : TickSource} {n : Nat} (hb : s.timeBase.source = some src)
    (hn : s.absoluteDelayCounter + n ≤ s.params.absCounterLimit) :
    countTick s src n = .ok { s with absoluteDelayCounter := s.absoluteDelayCounter + n } := by
  rw [countTick, if_pos hb, if_pos hn]

/-- A tick of the counter's own base counts first, then counts down (60_exceptions.md R271). -/
theorem tick_of_fits {s : State} {src : TickSource} {n : Nat} (hb : s.timeBase.source = some src)
    (hn : s.absoluteDelayCounter + n ≤ s.params.absCounterLimit) :
    tick s src n = countDown { s with absoluteDelayCounter := s.absoluteDelayCounter + n } src n := by
  rw [tick, countTick_of_fits hb hn]

theorem eventsCountDown_of_eventCounted {s : State} (h : s.params.countdownModel = .eventCounted) :
    eventsCountDown s = true := by
  simp only [eventsCountDown, h]

section Countdown

variable {s : State} {src : TickSource} {n : Nat} (harmed : s.timer.armed = true) (htb : s.timer.tb = src)
  (hcounts : eventsCountDown s = true)

include harmed htb hcounts

/-- A countdown with ticks left over lowers the timer. -/
theorem countDown_of_lt (hn : n < s.timer.remaining) :
    countDown s src n = .ok { s with timer := { s.timer with remaining := s.timer.remaining - n } } := by
  have hleft : ¬s.timer.remaining - n = 0 := by omega
  simp only [countDown, if_pos (show _ ∧ _ ∧ _ from ⟨harmed, htb, hcounts⟩), if_neg hleft]

/-- A countdown of all the ticks that were left expires the timer. -/
theorem countDown_of_le (hn : s.timer.remaining ≤ n) :
    countDown s src n = expire { s with timer := { s.timer with remaining := 0 } } := by
  have hleft : s.timer.remaining - n = 0 := by omega
  simp only [countDown, if_pos (show _ ∧ _ ∧ _ from ⟨harmed, htb, hcounts⟩), hleft, if_true]

end Countdown

/-! ## Expiry -/

theorem expire_of_delay {s : State} (h : s.timer.reason = .delay) : expire s = expireDelay s.disarm s.timer.slot := by
  simp only [expire, h]

/-- A Delay whose threshold, if it has one, is reached resumes (60_exceptions.md R265). -/
theorem expireDelay_of_reached {s : State} {i : SlotId} (hstate : (s.slot i).state = .inDelay)
    (hreached : (s.slot i).delayIsRelative = true ∨
      (s.slot i).delayRemainingTicksOrTopValue.toNat ≤ s.absoluteDelayCounter) :
    expireDelay s i = .ok (s.updateSlot i Slot.resumed) := by
  have hnot : ¬((s.slot i).delayIsRelative = false ∧
      s.absoluteDelayCounter < (s.slot i).delayRemainingTicksOrTopValue.toNat) := by
    rintro ⟨hrel, hlt⟩
    rcases hreached with h | h
    · simp [hrel] at h
    · omega
  rw [expireDelay, if_neg (not_not_intro hstate), if_neg hnot]

section DelayCountdown

variable {s : State} {src : TickSource} {i : SlotId} {m n : Nat} (hmodel : s.params.countdownModel = .eventCounted)
  (htimer : s.timer = ⟨true, .delay, i, src, m⟩)

include hmodel htimer

theorem countDown_delay_of_lt (hn : n < m) :
    countDown s src n = .ok { s with timer := ⟨true, .delay, i, src, m - n⟩ } := by
  rw [countDown_of_lt (by rw [htimer]) (by rw [htimer]) (eventsCountDown_of_eventCounted hmodel) (by rwa [htimer]), htimer]

/-- The last tick of a Delay resumes it where its threshold is reached. -/
theorem countDown_delay_of_reached (hn : m ≤ n) (hstate : (s.slot i).state = .inDelay)
    (hreached : (s.slot i).delayRemainingTicksOrTopValue.toNat ≤ s.absoluteDelayCounter) :
    countDown s src n = .ok (State.updateSlot { s with timer := ⟨false, .delay, i, src, 0⟩ } i Slot.resumed) := by
  rw [countDown_of_le (by rw [htimer]) (by rw [htimer]) (eventsCountDown_of_eventCounted hmodel) (by rwa [htimer]), htimer]
  exact (expire_of_delay rfl).trans
    (expireDelay_of_reached (s := { s with timer := ⟨false, .delay, i, src, 0⟩ }) hstate (.inr hreached))

end DelayCountdown

/-- An expiry of a Delay arms it again while its threshold lies ahead, and resumes it otherwise. -/
theorem expireDelay_eq_ok {s t : State} {i : SlotId} (h : expireDelay s i = .ok t) :
    (s.slot i).state = .inDelay ∧
      (rearmDelay s i = .ok t ∨
        (((s.slot i).delayIsRelative = true ∨ (s.slot i).delayRemainingTicksOrTopValue.toNat ≤ s.absoluteDelayCounter) ∧
          t = s.updateSlot i Slot.resumed)) := by
  unfold expireDelay at h
  split at h
  · cases h
  · next hstate =>
    refine ⟨not_ne_iff.mp hstate, ?_⟩
    split at h
    · exact .inl h
    · next hnot =>
      cases h
      refine .inr ⟨?_, rfl⟩
      cases hrel : (s.slot i).delayIsRelative with
      | true => exact .inl rfl
      | false => exact .inr (Nat.not_lt.mp fun hlt => hnot ⟨hrel, hlt⟩)

theorem expirePollRetry_eq_ok {s t : State} {i : SlotId} (h : expirePollRetry s i = .ok t) :
    (s.slot i).state = .waitingForReg ∧ t = s.setSlotState i .running := by
  unfold expirePollRetry at h
  split at h
  · cases h
  · next hstate => cases h; exact ⟨not_ne_iff.mp hstate, rfl⟩

/-! ## Operations that leave the slots alone -/

theorem rearmDelay_slot {s t : State} {j : SlotId} (h : rearmDelay s j = .ok t) (i : SlotId) : t.slot i = s.slot i := by
  obtain ⟨tb, n, -, -, rfl⟩ := rearmDelay_eq_ok h
  rfl

theorem countTick_slot {s t : State} {src : TickSource} {n : Nat} (h : countTick s src n = .ok t) (i : SlotId) :
    t.slot i = s.slot i := by
  rcases countTick_eq_ok h with ⟨-, -, rfl⟩ | ⟨-, rfl⟩ <;> rfl

theorem zeroAndRestart_slot {s t : State} (h : zeroAndRestart s = .ok t) (i : SlotId) : t.slot i = s.slot i := by
  rcases zeroAndRestart_eq_ok h with ⟨rfl, -⟩ | ⟨a, tb, -, -, -, -, -, rfl⟩ <;> rfl

theorem resetAbsCounterUnarmed_slot {s t : State} (h : resetAbsCounterUnarmed s = .ok t) (i : SlotId) :
    t.slot i = s.slot i := by
  unfold resetAbsCounterUnarmed at h
  simp only at h
  split at h
  · exact zeroAndRestart_slot h i
  · split at h
    · cases h
    · next u hu => exact (zeroAndRestart_slot h i).trans (countTick_slot hu i)

theorem postStartAtExpiry_slot {s t : State} {j : SlotId} (h : postStartAtExpiry s j = .ok t) (i : SlotId) :
    t.slot i = s.slot i := by
  unfold postStartAtExpiry at h
  split at h
  · cases h
  · split at h
    · cases h; rfl
    · exact resetAbsCounterUnarmed_slot h i

/-! ## What a tick leaves of an absolute Delay (43_wait.md R171) -/

/-- From `s` to `t` slot `i`'s record stays as it is, or its Delay has ended with the counter at or past the threshold. -/
def State.DelayEndsInTime (s t : State) (i : SlotId) : Prop :=
  t.slot i = s.slot i ∨
    ((t.slot i).state = .running ∧ (s.slot i).delayRemainingTicksOrTopValue.toNat ≤ t.absoluteDelayCounter)

/-- The expiry of the slot's own Delay re-checks the counter (60_exceptions.md R265); another slot's does not touch it. -/
theorem expireDelay_delayEndsInTime {s t : State} {i j : SlotId} (habs : (s.slot i).delayIsRelative = false)
    (h : expireDelay s j = .ok t) : s.DelayEndsInTime t i := by
  obtain ⟨-, h | ⟨hreached, rfl⟩⟩ := expireDelay_eq_ok h
  · exact .inl (rearmDelay_slot h i)
  · by_cases hij : j = i
    · subst hij
      exact .inr ⟨by simp, hreached.resolve_left (by simp [habs])⟩
    · exact .inl (s.slot_updateSlot_of_ne _ hij)

/-- A poll retry expires for a slot that is WaitingForReg, so for another one. -/
theorem expirePollRetry_delayEndsInTime {s t : State} {i j : SlotId} (hstate : (s.slot i).state = .inDelay)
    (h : expirePollRetry s j = .ok t) : s.DelayEndsInTime t i := by
  obtain ⟨hwait, rfl⟩ := expirePollRetry_eq_ok h
  have hne : j ≠ i := by
    rintro rfl
    cases hstate.symm.trans hwait
  exact .inl (s.slot_updateSlot_of_ne _ hne)

section AbsoluteDelay

variable {s t : State} {i : SlotId} (hstate : (s.slot i).state = .inDelay) (habs : (s.slot i).delayIsRelative = false)

include hstate habs

theorem expire_delayEndsInTime (h : expire s = .ok t) : s.DelayEndsInTime t i := by
  unfold expire at h
  split at h
  · exact .inl (postStartAtExpiry_slot h i)
  · exact expireDelay_delayEndsInTime (s := s.disarm) habs h
  · exact expirePollRetry_delayEndsInTime (s := s.disarm) hstate h

theorem countDown_delayEndsInTime {src : TickSource} {n : Nat} (h : countDown s src n = .ok t) :
    s.DelayEndsInTime t i := by
  rcases countDown_eq_ok h with rfl | ⟨-, -, ⟨-, rfl⟩ | ⟨-, h⟩⟩
  · exact .inl rfl
  · exact .inl rfl
  · exact expire_delayEndsInTime (s := { s with timer := { s.timer with remaining := 0 } }) hstate habs h

theorem tick_delayEndsInTime {src : TickSource} {n : Nat} (h : tick s src n = .ok t) : s.DelayEndsInTime t i := by
  obtain ⟨u, hu, h⟩ := tick_eq_ok h
  have hslot := countTick_slot hu i
  have hends := countDown_delayEndsInTime (s := u) (i := i) (by rw [hslot]; exact hstate) (by rw [hslot]; exact habs) h
  unfold State.DelayEndsInTime at *
  rwa [hslot] at hends

end AbsoluteDelay

end Sys2Proof.Machine

open Sys2Proof Sys2Proof.Machine

/-- Settles O34: the first part is the frame of a tick around the slot; for the second the timer's remainder and the counter's
distance to the threshold fall together. -/
theorem delayMonotonicity : Obligations.DelayMonotonicity := by
  unfold Obligations.DelayMonotonicity
  refine ⟨fun s t src n i hstate habs h => ?_, fun s src n T i hmodel hstate habs hT hbelow hsource htimer hlimit => ?_⟩
  · exact (tick_delayEndsInTime hstate habs h).imp_left fun hslot => by rw [hslot]; exact hstate
  · rw [tick_of_fits hsource hlimit]
    subst hT
    by_cases hbefore : s.absoluteDelayCounter + n < (s.slot i).delayRemainingTicksOrTopValue.toNat
    · refine ⟨_, countDown_delay_of_lt hmodel htimer (by omega), rfl, fun _ => ⟨hstate, ?_⟩, fun hle => ?_⟩
      · rw [Nat.sub_sub]
      · omega
    · refine ⟨_, countDown_delay_of_reached hmodel htimer (by omega) hstate (Nat.not_lt.mp hbefore), rfl, fun hlt => ?_,
        fun _ => ⟨by simp, rfl, ?_⟩⟩
      · exact absurd hlt hbefore
      · exact (State.pc_updateSlot_self _ i Slot.resumed).trans rfl

end

section
/-! SUPPORT. The conditions and the waits: what a test under an equality mask says, what Delay, WaitForReg and WaitForSig answer
once their reads are answered, and when a signal wakes a slot (43_wait.md R162, R170, R172, R175 to R177). -/

namespace Sys2Proof.Machine

/-! ## Predicates -/

theorem eqUnderMask_maskBoth {form : EqPredForm} (h : form = .maskBoth) (mask v d : Word) :
    eqUnderMask form mask v d = true ↔ v &&& mask = d &&& mask := by
  rw [h, eqUnderMask, beq_iff_eq]

theorem eqUnderMask_maskValue {form : EqPredForm} (h : form = .maskValue) (mask v d : Word) :
    eqUnderMask form mask v d = true ↔ v &&& mask = d := by
  rw [h, eqUnderMask, beq_iff_eq]

/-! ## Delay -/

/-- The state in which a Delay that has read `T` arms its timer (43_wait.md R170). -/
def State.delaying (s : State) (a : SlotId) (mode : DelayMode) (T : Word) : State :=
  (s.logAccess (.read (s.pc a + 4) (some T))).updateSlot a fun x => x.delayed (s.pc a) T mode

theorem State.delaying_slot (s : State) (a : SlotId) (mode : DelayMode) (T : Word) :
    (s.delaying a mode T).slot a = (s.slot a).delayed (s.pc a) T mode := by simp [State.delaying]

section Delay

variable {s : State} {a : SlotId} {T : Word} (he : s.executor = some a) (hread : s.busRead (s.pc a + 4) = .value T)
  {mode : DelayMode}

include he hread

theorem exec_delay_of_armed {u : State} (h : armDelay (s.delaying a mode T) a = .ok u) (base : BaseIndex) (offset : Nat) :
    exec (.delay mode base offset) s = .next u := by
  unfold State.delaying at h
  show execDelay mode base offset s = _
  rw [execDelay, State.onExecutor_some he, memRead_of_value hread, Access.done_outcome, h]

theorem exec_delay_of_error {k : FaultKind} (h : armDelay (s.delaying a mode T) a = .error k) (base : BaseIndex)
    (offset : Nat) :
    exec (.delay mode base offset) s = .next ((s.logAccess (.read (s.pc a + 4) (some T))).raiseFatal
      (FaultRecord.ofInstr k a (s.pc a) (encode s.params.maps s.layout (.delay mode base offset)))) := by
  unfold State.delaying at h
  show execDelay mode base offset s = _
  rw [execDelay, State.onExecutor_some he, memRead_of_value hread, Access.done_outcome, h]

end Delay

/-! ## Signals -/

/-- A signal event that makes the waiting slot's stored predicate hold moves it past its WaitForSig. -/
theorem signalSet_of_wakes {s : State} {m : Word} {a : SlotId} (ha : s.activeSlot = some a)
    (hwait : (s.slot a).state = .waitingForSignal)
    (hpred : s.pred (s.slot a).waitSigPred (s.signalBitmask ||| m) (s.slot a).waitSigData = true) :
    signalSet s m = State.updateSlot { s with signalBitmask := s.signalBitmask ||| m } a fun x =>
      { x with currentAddress := x.currentAddress + 8, state := .running } := by
  have hactive : State.activeSlot { s with signalBitmask := s.signalBitmask ||| m } = some a := ha
  simp only [signalSet, hactive]
  exact if_pos ⟨hwait, hpred⟩

theorem signalSet_of_not_wakes {s : State} {m : Word}
    (h : ∀ a, s.activeSlot = some a → (s.slot a).state = .waitingForSignal →
      s.pred (s.slot a).waitSigPred (s.signalBitmask ||| m) (s.slot a).waitSigData = false) :
    signalSet s m = { s with signalBitmask := s.signalBitmask ||| m } := by
  cases ha : s.activeSlot with
  | none =>
    have hactive : State.activeSlot { s with signalBitmask := s.signalBitmask ||| m } = none := ha
    simp only [signalSet, hactive]
  | some a =>
    have hactive : State.activeSlot { s with signalBitmask := s.signalBitmask ||| m } = some a := ha
    simp only [signalSet, hactive]
    exact if_neg fun ⟨hwait, hpred⟩ => ne_true_of_eq_false (h a ha hwait) hpred

end Sys2Proof.Machine

open Sys2Proof Sys2Proof.Machine

/-- Settles O27: four comparisons with the data word, and four under a mask in the form the parameter chooses. -/
theorem predicateFormulas : Obligations.PredicateFormulas := by
  unfold Obligations.PredicateFormulas
  intro s v d
  have negated {b : Bool} {p : Prop} (h : b = true ↔ p) : (!b) = true ↔ ¬p := by
    rw [Bool.not_eq_true', ← Bool.not_eq_true, h]
  refine ⟨beq_iff_eq, bne_iff_ne, beq_iff_eq, bne_iff_ne, fun hform => ?both, fun hform => ?value⟩
  case both =>
    have holds := fun mask => eqUnderMask_maskBoth hform mask v d
    exact ⟨holds s.eqMaskA, negated (holds s.eqMaskA), holds s.eqMaskB, negated (holds s.eqMaskB)⟩
  case value =>
    have holds := fun mask => eqUnderMask_maskValue hform mask v d
    exact ⟨holds s.eqMaskA, negated (holds s.eqMaskA), holds s.eqMaskB, negated (holds s.eqMaskB)⟩

/-- Settles O28: in each case the timer is armed with what RemainingDelayTicks gives (60_exceptions.md R264). -/
theorem delaySuspends : Obligations.DelaySuspends := by
  unfold Obligations.DelaySuspends
  intro s a base offset T tb he hread htb suspended
  have armed {mode : DelayMode} {n : Nat}
      (hn : remainingDelayTicks (s.delaying a mode T) ((s.slot a).delayed (s.pc a) T mode) = .ok n) :
      exec (.delay mode base offset) s = .next ((s.delaying a mode T).arm .delay a tb n) :=
    exec_delay_of_armed he hread (armDelay_of_ticks htb (by rw [State.delaying_slot]; exact hn)) base offset
  refine ⟨fun hlt => ?absolute, fun hT => ?relative, fun hT hzero => ?zero⟩
  case absolute => exact armed (remainingDelayTicks_absolute rfl hlt)
  case relative => exact armed (remainingDelayTicks_relative rfl hT)
  case zero => exact armed ((remainingDelayTicks_relative_zero rfl hT).2 hzero)

/-- Settles O29: Clock is found first, then the fault of RemainingDelayTicks (60_exceptions.md R264). -/
theorem delayFaults : Obligations.DelayFaults := by
  unfold Obligations.DelayFaults
  intro s a mode base offset T he hread faulted
  have refused {k : FaultKind} (htb : s.timeBase ≠ .clock)
      (hk : remainingDelayTicks (s.delaying a mode T) ((s.slot a).delayed (s.pc a) T mode) = .error k) :
      exec (.delay mode base offset) s = faulted k :=
    exec_delay_of_error he hread (armDelay_of_ticks_error htb (by rw [State.delaying_slot]; exact hk)) base offset
  refine ⟨fun hclock => ?clock, fun htb hmode hle => ?passed, fun htb hmode hT hzero => ?zero⟩
  case clock => exact exec_delay_of_error he hread (armDelay_of_clock (s := s.delaying a mode T) hclock a) base offset
  case passed =>
    subst hmode
    exact refused htb (remainingDelayTicks_absolute_passed rfl hle)
  case zero =>
    subst hmode
    exact refused htb ((remainingDelayTicks_relative_zero rfl hT).1 hzero)

/-- Settles O30: after the two reads the predicate decides. -/
theorem waitForRegResult : Obligations.WaitForRegResult := by
  unfold Obligations.WaitForRegResult
  intro s a p base offset v d he s1 s2 hv hd
  show execWaitForReg p base offset s = _
  simp only [execWaitForReg, State.onExecutor_some he, memRead_of_value hv, Access.done_andThen]
  rw [memRead_of_value hd]
  exact (apply_ite Host.Outcome.next _ _ _).symm

/-- Settles O31: after the read of the inline word the predicate of the signals decides. -/
theorem waitForSigResult : Obligations.WaitForSigResult := by
  unfold Obligations.WaitForSigResult
  intro s a p base offset d he s1 hd
  show execWaitForSig p base offset s = _
  rw [execWaitForSig, State.onExecutor_some he, memRead_of_value hd, Access.done_outcome]
  exact (apply_ite Host.Outcome.next _ _ _).symm

/-- Settles O32: a signal event asks the active slot's stored predicate, and a clearing one asks none. -/
theorem signalEvents : Obligations.SignalEvents := by
  unfold Obligations.SignalEvents
  intro s m b
  refine ⟨fun a ha hwait hpred => ?wakes, fun h => ?stays, rfl⟩
  case wakes => exact congrArg Host.Outcome.next (signalSet_of_wakes ha hwait hpred)
  case stays => exact congrArg Host.Outcome.next (signalSet_of_not_wakes h)

end

section
/-! SUPPORT. Control and output: who writes the trigger bitmask, what the end of a sequence leaves to the arbiter, what Jump,
SetTrig and SkipCond answer once their reads are answered (44_control.md R190 to R198, 45_sequencer.md R217, R218). -/

namespace Sys2Proof.Machine

/-! ## The trigger bitmask -/

theorem State.BusOnly.triggerBitmask {s t : State} (h : s.BusOnly t) : t.triggerBitmask = s.triggerBitmask := by rw [h]

theorem State.SequencerOnly.triggerBitmask {s t : State} (h : s.SequencerOnly t) : t.triggerBitmask = s.triggerBitmask := by
  rw [h.rest]

/-- An instruction other than SetTrig leaves the trigger bitmask alone. -/
theorem exec_triggerBitmask {i : Instr} {s t : State} (h : exec i s = .next t) :
    t.triggerBitmask = s.triggerBitmask ∨ ∃ op base offset, i = .setTrig op base offset := by
  obtain ⟨u, hbus, heffect⟩ := exec_effect h
  cases heffect with
  | sequencer h => exact .inl (h.triggerBitmask.trans hbus.triggerBitmask)
  | fault r h => subst h; exact .inl hbus.triggerBitmask
  | trigger op base offset hi v h => exact .inr ⟨op, base, offset, hi⟩

/-- The executor's turn is to run a SetTrig. -/
def State.FetchesSetTrig (s : State) : Prop :=
  ∃ a w op base offset, s.executor = some a ∧ s.busRead (s.pc a) = .value w ∧
    decode s.params.maps s.layout w = .ok (.setTrig op base offset)

theorem executorStep_triggerBitmask {s t : State} (h : executorStep s = .next t) :
    t.triggerBitmask = s.triggerBitmask ∨ s.FetchesSetTrig := by
  rcases executorStep_eq_next h with ⟨-, rfl⟩ | ⟨a, he, ⟨-, rfl⟩ | ⟨w, hw, ⟨r, -, rfl⟩ | ⟨i, hi, h⟩⟩⟩
  · exact .inl rfl
  · exact .inl (busError_only _ _).triggerBitmask
  · exact .inl rfl
  · rcases exec_triggerBitmask h with hkept | ⟨op, base, offset, rfl⟩
    · exact .inl hkept
    · exact .inr ⟨a, w, op, base, offset, he, hw, hi⟩

/-- No register of the host holds the trigger bitmask (10_state.md R40). -/
theorem hostWriteReg_triggerBitmask {s t : State} {r : HostReg} {v : Word} (h : hostWriteReg s r v = .ok t) :
    t.triggerBitmask = s.triggerBitmask := by
  cases r with
  | cmd => exact (hostWriteCmd_only h).triggerBitmask
  | _ => cases h; rfl

/-- A turn that changes the trigger bitmask is a reset or the executor's, with a SetTrig to run. -/
theorem takeTurn_triggerBitmask {s t : State} {turn : Turn} (h : takeTurn turn s = .next t) :
    t.triggerBitmask = s.triggerBitmask ∨ turn = .reset ∨ (turn = .executor ∧ s.FetchesSetTrig) := by
  cases takeTurn_effect h with
  | executor ht h => exact (executorStep_triggerBitmask h).imp_right fun hset => .inr ⟨ht, hset⟩
  | sequencer ht h => exact .inl h.triggerBitmask
  | hostWrite off v r ht hr h => exact .inl (hostWriteReg_triggerBitmask h)
  | signalSet m ht h => subst h; exact .inl (signalSet_only s m).triggerBitmask
  | reset ht h => exact .inr (.inl ht)
  | fault ht n r h => subst h; exact .inl rfl
  | hostRead ht v n h => subst h; exact .inl rfl
  | memory m ht h => subst h; exact .inl rfl
  | signalClear m ht h => subst h; exact .inl rfl

/-! ## Dispatch (45_sequencer.md R217) -/

/-- Slot `i` is Pending and no lower slot is. -/
def State.LowestPending (s : State) (i : SlotId) : Prop :=
  (s.slot i).state = .pending ∧ ∀ j, j < i → (s.slot j).state ≠ .pending

theorem dispatch_of_lowestPending {s : State} {i : SlotId} (h : s.LowestPending i) : dispatch s = startDeferred s i := by
  have hlowest : lowest (fun i => (s.slot i).state == .pending) = some i :=
    lowest_eq_some.mpr ⟨beq_iff_eq.mpr h.1, fun j hj => beq_eq_false_iff_ne.mpr (h.2 j hj)⟩
  rw [dispatch, hlowest]

theorem dispatch_of_no_pending {s : State} (h : ∀ i, (s.slot i).state ≠ .pending) : dispatch s = s := by
  have hlowest : lowest (fun i => (s.slot i).state == .pending) = none :=
    lowest_eq_none.mpr fun i => beq_eq_false_iff_ne.mpr (h i)
  rw [dispatch, hlowest]

/-- Dispatch writes slots and the timer only. -/
theorem dispatch_frame (s : State) : dispatch s = { s with slots := (dispatch s).slots, timer := (dispatch s).timer } := by
  unfold dispatch
  split <;> rfl

theorem slot_startDeferred (s : State) (i j : SlotId) :
    (startDeferred s i).slot j = if i = j then (s.slot j).started else s.slot j :=
  s.slot_updateSlot i j Slot.started

/-- Dispatch starts a Pending slot or none. -/
theorem slot_dispatch_of_not_pending {s : State} {j : SlotId} (h : (s.slot j).state ≠ .pending) :
    (dispatch s).slot j = s.slot j := by
  unfold dispatch
  split
  · next i hi =>
    have hpending : (s.slot i).state = .pending := beq_iff_eq.mp (lowest_eq_some.mp hi).1
    rw [slot_startDeferred, if_neg (by rintro rfl; exact h hpending)]
  · rfl

/-! ## The end of a sequence (45_sequencer.md R218) -/

/-- What the end of slot `a`'s sequence leaves to `Dispatch`: the slot Idle, its pair of flags raised, the lines recomputed. -/
def State.finished (s : State) (a : SlotId) : State := ((s.setSlotState a .idle).raiseFlags (seqDoneBit a)).recompute

theorem complete_eq_dispatch (s : State) (a : SlotId) : complete s a = dispatch (s.finished a) := rfl

theorem State.slot_finished (s : State) (a j : SlotId) :
    (s.finished a).slot j = if a = j then { s.slot j with state := .idle } else s.slot j :=
  s.slot_setSlotState a j .idle

theorem State.slot_finished_of_ne {s : State} {a j : SlotId} (h : a ≠ j) : (s.finished a).slot j = s.slot j := by
  rw [State.slot_finished, if_neg h]

/-- The slot that ends its sequence was running, so the same slots are Pending before and after. -/
theorem State.finished_pending_iff {s : State} {a : SlotId} (he : s.executor = some a) (j : SlotId) :
    ((s.finished a).slot j).state = .pending ↔ (s.slot j).state = .pending := by
  by_cases h : a = j
  · obtain ⟨-, -, hrunning, -⟩ := State.executor_eq_some.mp he
    subst h
    simp [State.slot_finished, hrunning]
  · rw [State.slot_finished_of_ne h]

/-- The slot that ends its sequence is Idle, its `pc` and its other fields as they were. -/
theorem slot_complete_self (s : State) (a : SlotId) : (complete s a).slot a = { s.slot a with state := .idle } := by
  have hfinished : (s.finished a).slot a = { s.slot a with state := .idle } := by rw [State.slot_finished, if_pos rfl]
  rw [complete_eq_dispatch, slot_dispatch_of_not_pending (by simp [hfinished]), hfinished]

theorem complete_of_lowestPending {s : State} {a i : SlotId} (he : s.executor = some a) (h : s.LowestPending i) :
    complete s a = startDeferred (s.finished a) i := by
  have hfinished : (s.finished a).LowestPending i :=
    ⟨(State.finished_pending_iff he i).mpr h.1, fun j hj => (State.finished_pending_iff he j).not.mpr (h.2 j hj)⟩
  rw [complete_eq_dispatch, dispatch_of_lowestPending hfinished]

theorem complete_of_no_pending {s : State} {a : SlotId} (he : s.executor = some a)
    (h : ∀ i, (s.slot i).state ≠ .pending) : complete s a = s.finished a := by
  rw [complete_eq_dispatch, dispatch_of_no_pending fun i => (State.finished_pending_iff he i).not.mpr (h i)]

/-- But for the slots and the timer, the end of a sequence raises its pair of flags and recomputes the lines. -/
theorem complete_frame (s : State) (a : SlotId) :
    complete s a = { s.finished a with slots := (complete s a).slots, timer := (complete s a).timer } :=
  dispatch_frame (s.finished a)

theorem complete_ifReg (s : State) (a : SlotId) : (complete s a).ifReg = s.ifReg ||| seqDoneBit a := by
  rw [complete_frame]; rfl
theorem complete_seqIf (s : State) (a : SlotId) : (complete s a).seqIf = s.seqIf ||| seqDoneBit a := by
  rw [complete_frame]; rfl
theorem complete_irqHost (s : State) (a : SlotId) : (complete s a).irqHost = lineOf (complete s a).ifReg s.ien := by
  rw [complete_frame]; rfl
theorem complete_irqSeq (s : State) (a : SlotId) : (complete s a).irqSeq = lineOf (complete s a).seqIf s.seqIen := by
  rw [complete_frame]; rfl

/-! ## Instructions whose reads are answered -/

theorem jumpTarget_zero (mode : JumpMode) (pc : Word) : jumpTarget mode pc 0 = pc + 8 := if_pos rfl

theorem jumpTarget_relative {d : Word} (h : d ≠ 0) (pc : Word) : jumpTarget .relative pc d = pc + 8 + d := if_neg h

theorem jumpTarget_absolute {d : Word} (h : d ≠ 0) (pc : Word) : jumpTarget .absolute pc d = d := if_neg h

section Reads

variable {s : State} {a : SlotId} (he : s.executor = some a) (base : BaseIndex) (offset : Nat)

include he

theorem exec_jump_of_read {d : Word} (hread : s.busRead (s.pc a + 4) = .value d) (mode : JumpMode) :
    exec (.jump mode base offset) s =
      .next ((s.logAccess (.read (s.pc a + 4) (some d))).setPc a (jumpTarget mode (s.pc a) d)) := by
  show execJump mode base offset s = _
  rw [execJump, State.onExecutor_some he, memRead_of_value hread]
  rfl

theorem exec_setTrig_of_read {m : Word} (hread : s.busRead (s.pc a + 4) = .value m) (op : TrigOp) :
    exec (.setTrig op base offset) s = .next (State.setPc { s with
      triggerBitmask := trigApply op s.triggerBitmask m
      trace := .read (s.pc a + 4) (some m) :: s.trace } a (s.pc a + 8)) := by
  show execSetTrig op base offset s = _
  rw [execSetTrig, State.onExecutor_some he, memRead_of_value hread]
  rfl

/-- Once its condition is known a SkipCond advances, by 16 or by 8 (44_control.md R193). -/
theorem exec_skipCond_of_test {cond : SkipCondition} {c : Bool} {t : State}
    (htest : skipTest cond (s.pc a + 4) (s.target base offset) s = .done c t) :
    exec (.skipCond cond base offset) s = .next (t.setPc a (if c = true then s.pc a + 16 else s.pc a + 8)) := by
  show execSkipCond cond base offset s = _
  rw [execSkipCond, State.onExecutor_some he, htest]
  rfl

theorem exec_nop : exec (.endSeqOrNop .nop base offset) s = .next (s.setPc a (s.pc a + 4)) := by
  show execEndSeqOrNop .nop base offset s = _
  rw [execEndSeqOrNop, State.onExecutor_some he]
  rfl

theorem exec_endSeq : exec (.endSeqOrNop .endSeq base offset) s = .next (complete s a) := by
  show execEndSeqOrNop .endSeq base offset s = _
  rw [execEndSeqOrNop, State.onExecutor_some he]

end Reads

/-- The register variants read the target, then the inline word (44_control.md R193). -/
theorem skipTest_reg_of_reads {s : State} {inl tgt v d : Word} (hv : s.busRead tgt = .value v)
    (hd : (s.logAccess (.read tgt (some v))).busRead inl = .value d) (p : Predicate) :
    skipTest (.reg p) inl tgt s =
      .done (s.pred p v d) ((s.logAccess (.read tgt (some v))).logAccess (.read inl (some d))) := by
  rw [skipTest, memRead_of_value hv, Access.done_andThen, memRead_of_value hd]
  rfl

/-- The signal variants read the inline word only (44_control.md R193). -/
theorem skipTest_sig_of_read {s : State} {inl d : Word} (hd : s.busRead inl = .value d) (p : Predicate) (tgt : Word) :
    skipTest (.sig p) inl tgt s = .done (s.pred p s.signalBitmask d) (s.logAccess (.read inl (some d))) := by
  rw [skipTest, memRead_of_value hd]
  rfl

end Sys2Proof.Machine

open Sys2Proof Sys2Proof.Machine

/-- Settles O39: of all turns only a reset and the executor's, with a SetTrig to run, write the trigger bitmask. -/
theorem onlySetTrigWritesTriggers : Obligations.OnlySetTrigWritesTriggers := by
  unfold Obligations.OnlySetTrigWritesTriggers
  intro s t h hchange
  rcases (takeTurn_triggerBitmask (step_eq_next h).2).resolve_left hchange with
    hreset | ⟨hturn, a, w, op, base, offset, he, hread, hdecode⟩
  · exact .inl hreset
  · exact .inr ⟨a, w, op, base, offset, ⟨he, hturn⟩, hread, hdecode⟩

/-- Settles O38: the flags and the lines stand before `Dispatch`, which starts the lowest Pending slot or changes nothing. -/
theorem endSeqOrNopResult : Obligations.EndSeqOrNopResult := by
  unfold Obligations.EndSeqOrNopResult
  intro s a base offset he
  refine ⟨exec_nop he base offset, complete s a, exec_endSeq he base offset, slot_complete_self s a, complete_ifReg s a,
    complete_seqIf s a, ?irqHost, ?irqSeq, fun i hpending hlower => ?dispatched, fun hnone => ?quiet, ?frame⟩
  case irqHost => rw [complete_irqHost, lineOf_eq_decide]
  case irqSeq => rw [complete_irqSeq, lineOf_eq_decide]
  case dispatched =>
    have hia : a ≠ i := by
      obtain ⟨-, -, hrunning, -⟩ := State.executor_eq_some.mp he
      rintro rfl
      rw [hrunning] at hpending
      cases hpending
    rw [complete_of_lowestPending he ⟨hpending, hlower⟩]
    refine ⟨rfl, ?_, fun j hja hji => ?_⟩
    · rw [slot_startDeferred, if_pos rfl, State.slot_finished_of_ne hia]; rfl
    · rw [slot_startDeferred, if_neg hji.symm, State.slot_finished_of_ne hja.symm]
  case quiet =>
    rw [complete_of_no_pending he hnone]
    exact ⟨rfl, fun j hja => State.slot_finished_of_ne hja.symm⟩
  case frame =>
    rw [complete_irqHost, complete_irqSeq, complete_ifReg, complete_seqIf]
    exact complete_frame s a

/-- Settles O35: after the read of the inline word the target is `jumpTarget`'s. -/
theorem jumpResult : Obligations.JumpResult := by
  unfold Obligations.JumpResult
  intro s a base offset d he s1 hread
  have jumps := exec_jump_of_read he base offset hread
  refine ⟨fun hd mode => ?zero, fun hd => ⟨?relative, ?absolute⟩⟩
  case zero => subst hd; exact (jumps mode).trans (by rw [jumpTarget_zero])
  case relative => exact (jumps .relative).trans (by rw [jumpTarget_relative hd])
  case absolute => exact (jumps .absolute).trans (by rw [jumpTarget_absolute hd])

/-- Settles O36: the four operations are the four cases of `trigApply`. -/
theorem setTrigResult : Obligations.SetTrigResult := by
  unfold Obligations.SetTrigResult
  intro s a base offset m he result hread
  have writes := exec_setTrig_of_read he base offset hread
  exact ⟨writes .write, writes .set, writes .clear, writes .toggle⟩

/-- Settles O37: the accesses of a variant give its condition, and the condition the advance. -/
theorem skipCondResult : Obligations.SkipCondResult := by
  unfold Obligations.SkipCondResult
  intro s a p base offset v d he s1
  exact ⟨fun hv hd => exec_skipCond_of_test he base offset (skipTest_reg_of_reads hv hd p),
    fun hd => exec_skipCond_of_test he base offset (skipTest_sig_of_read hd p _)⟩

end

section
/-! SUPPORT. Pending slots: which operations leave them as they are, and the two ways by which one becomes active: the end of a
sequence, and a command that aborts (45_sequencer.md R215, R217, R230, R235). -/

namespace Sys2Proof.Machine

/-- States that differ at most in their slots are equal if each slot record is. -/
theorem State.eq_of_slots {s t : State} (hrest : t = { s with slots := t.slots }) (hslots : ∀ i, t.slot i = s.slot i) :
    t = s := by
  have heq : t.slots = s.slots := Vector.ext fun i hi => hslots ⟨i, hi⟩
  rw [hrest, heq]

/-! ## Abort (45_sequencer.md R230) -/

theorem abortTargets_iff {s : State} {m : SlotMask} {i : SlotId} :
    abortTargets s m i = true ↔ inMask m i = true ∧ (s.slot i).state ≠ .idle := by
  simp [abortTargets]

theorem abortHits_iff {s : State} {m : SlotMask} :
    abortHits s m = true ↔ ∃ a, s.activeSlot = some a ∧ inMask m a = true := by
  cases ha : s.activeSlot with
  | none => simp [abortHits, ha]
  | some a =>
    have hbusy : (s.slot a).state ≠ .idle := by
      intro hidle
      have hact := State.active_of_activeSlot ha
      rw [hidle] at hact
      cases hact
    simp [abortHits_of_activeSlot ha, abortTargets_iff, hbusy]

/-- An abort that takes no slot changes nothing. -/
theorem abort_of_no_target {s : State} {m : SlotMask} (h : ∀ i, abortTargets s m i = false) : abort s m = s := by
  have hhits : abortHits s m = false := by
    unfold abortHits
    split
    · exact h _
    · rfl
  have hslots : s.abortSlots (abortTargets s m) = s :=
    State.eq_of_slots rfl fun i => by rw [State.slot_abortSlots, h, if_neg Bool.false_ne_true]
  simp [abort, abortOnly, hhits, hslots, lowest_eq_none.mpr h]

theorem abort_zero (s : State) : abort s 0 = s := abort_of_no_target fun i => by simp [abortTargets]

/-- Without arbitration an abort is the slots, the timer and the flags. -/
theorem abort_of_no_arbitration {s : State} {m : SlotMask}
    (h : ¬(abortHits s m = true ∧ s.params.arbitrateOnAbort = true)) : abort s m = abortOnly s m :=
  if_neg (by rwa [Bool.and_eq_true])

/-- Under ARBITRATE_ON_ABORT an abort of the active slot ends in `Dispatch` (45_sequencer.md R233). -/
theorem abort_of_arbitration {s : State} {m : SlotMask} (hhits : abortHits s m = true)
    (harb : s.params.arbitrateOnAbort = true) : abort s m = dispatch (abortOnly s m) :=
  if_pos (by rw [hhits, harb]; rfl)

/-- An abort leaves the slots it does not take. -/
theorem slot_abortOnly_of_not_target {s : State} {m : SlotMask} {i : SlotId} (h : abortTargets s m i = false) :
    (abortOnly s m).slot i = s.slot i := by rw [slot_abortOnly, h, if_neg Bool.false_ne_true]

/-! ## A command write (45_sequencer.md R235) -/

theorem requestStart_zero (s : State) (deferred : Bool) : requestStart s 0 deferred = .ok s := if_pos rfl

/-- The abort of no slot and the start of no slot change nothing, so a command write is its three parts in order. -/
theorem hostWriteCmd_eq (s : State) (v : Word) :
    hostWriteCmd s v = Except.andThenState
      (if v.getLsbD 16 = true then resetAbsCounter (abort s (v.extractLsb' 8 8)) else .ok (abort s (v.extractLsb' 8 8)))
      fun s2 => requestStart s2 (v.extractLsb' 0 8) false := by
  have habort : (if v.extractLsb' 8 8 = 0 then s else abort s (v.extractLsb' 8 8)) = abort s (v.extractLsb' 8 8) := by
    split
    · next h => rw [h, abort_zero]
    · rfl
  have hstart : ∀ s2 : State, (if v.extractLsb' 0 8 = 0 then Except.ok s2 else requestStart s2 (v.extractLsb' 0 8) false) =
      requestStart s2 (v.extractLsb' 0 8) false := fun s2 => by
    split
    · next h => rw [h, requestStart_zero]
    · rfl
  simp only [hostWriteCmd, habort, hstart]

theorem Except.andThenState_eq_ok {x : Except Raise State} {k : State → Except Raise State} {t : State}
    (h : Except.andThenState x k = .ok t) : ∃ u, x = .ok u ∧ k u = .ok t := by
  cases x with
  | ok u => exact ⟨u, rfl, h⟩
  | error e => cases h

/-! ## Operations that leave the Pending slots alone -/

/-- Every slot that is Pending in `s` has the same record in `t`. -/
def State.KeepsPending (s t : State) : Prop := ∀ i, (s.slot i).state = .pending → t.slot i = s.slot i

theorem State.KeepsPending.of_slots {s t : State} (h : ∀ i, t.slot i = s.slot i) : s.KeepsPending t := fun i _ => h i

theorem State.KeepsPending.refl (s : State) : s.KeepsPending s := .of_slots fun _ => rfl

theorem State.KeepsPending.trans {s t u : State} (h1 : s.KeepsPending t) (h2 : t.KeepsPending u) : s.KeepsPending u :=
  fun i hi => (h2 i (by rw [h1 i hi]; exact hi)).trans (h1 i hi)

theorem State.KeepsPending.updateSlot {s : State} {a : SlotId} (ha : (s.slot a).state ≠ .pending) (f : Slot → Slot) :
    s.KeepsPending (s.updateSlot a f) :=
  fun _ hi => s.slot_updateSlot_of_ne f fun h => ha (by rw [h]; exact hi)

theorem State.KeepsPending.arm {s t : State} (h : s.KeepsPending t) (r : StartReason) (i : SlotId) (tb : TickSource)
    (n : Nat) : s.KeepsPending (t.arm r i tb n) := h

/-- An expiry resumes a slot that waits, or none. -/
theorem expire_keepsPending {s t : State} (h : expire s = .ok t) : s.KeepsPending t := by
  unfold expire at h
  split at h
  · exact .of_slots fun i => postStartAtExpiry_slot h i
  · obtain ⟨hstate, h | ⟨-, rfl⟩⟩ := expireDelay_eq_ok h
    · exact .of_slots fun i => rearmDelay_slot h i
    · exact .updateSlot (s := s.disarm) (by rw [hstate]; decide) _
  · obtain ⟨hstate, rfl⟩ := expirePollRetry_eq_ok h
    exact .updateSlot (s := s.disarm) (by rw [hstate]; decide) _

theorem countDown_keepsPending {s t : State} {src : TickSource} {n : Nat} (h : countDown s src n = .ok t) :
    s.KeepsPending t := by
  rcases countDown_eq_ok h with rfl | ⟨-, -, ⟨-, rfl⟩ | ⟨-, h⟩⟩
  · exact .refl _
  · exact .of_slots fun _ => rfl
  · exact expire_keepsPending (s := { s with timer := { s.timer with remaining := 0 } }) h

theorem tick_keepsPending {s t : State} {src : TickSource} {n : Nat} (h : tick s src n = .ok t) : s.KeepsPending t := by
  obtain ⟨u, hu, h⟩ := tick_eq_ok h
  exact (State.KeepsPending.of_slots (countTick_slot hu)).trans (countDown_keepsPending h)

theorem resetAbsCounter_keepsPending {s t : State} (h : resetAbsCounter s = .ok t) : s.KeepsPending t := by
  rcases resetAbsCounter_eq_ok h with ⟨-, h⟩ | ⟨-, u, hu, h⟩
  · exact .of_slots (zeroAndRestart_slot (s := { s with preOutstanding := 0 }) h)
  · exact (tick_keepsPending (s := { s with preOutstanding := 0 }) hu).trans (.of_slots (zeroAndRestart_slot h))

theorem postStart_keepsPending {s t : State} {i : SlotId} (h : postStart s i = .ok t) : s.KeepsPending t := by
  unfold postStart at h
  split at h
  · cases h
  · split at h
    · cases h; exact .refl _
    · exact resetAbsCounter_keepsPending h

/-- The slot that starts is the only one a Start can take from Pending. -/
theorem start_keepsPending {s t : State} {i : SlotId} {deferred : Bool} (hi : (s.slot i).state ≠ .pending)
    (h : start s i deferred = .ok t) : s.KeepsPending t := by
  unfold start at h
  split at h
  · cases h
    exact .updateSlot (s := s) hi _
  · exact (State.KeepsPending.updateSlot hi _).trans (postStart_keepsPending h)

/-- Slots of a mask that are Idle become Pending. -/
theorem makePending_keepsPending {s : State} {m : SlotMask} (hm : ∀ i, inMask m i = true → (s.slot i).state = .idle) :
    s.KeepsPending (s.makePending m) := by
  intro i hi
  have hout : ¬inMask m i = true := fun h => by
    rw [hm i h] at hi
    cases hi
  rw [State.slot_makePending, if_neg hout]

/-- The arbiter takes slots that are Idle: a request starts no slot that is Pending already (45_sequencer.md R214, R215). -/
theorem arbitrate_keepsPending {s t : State} {m : SlotMask} {deferred : Bool}
    (hm : ∀ i, inMask m i = true → (s.slot i).state = .idle) (h : arbitrate s m deferred = .ok t) : s.KeepsPending t := by
  rcases arbitrate_eq_ok h with ⟨i0, -, hi0, h⟩ | ⟨-, rfl⟩
  · have hidle := hm i0 (lowest_eq_some.mp hi0).1
    have hrest : ∀ i, inMask (m &&& ~~~(1#8 <<< i0.val)) i = true → (s.slot i).state = .idle := fun i hi => by
      rw [inMask_and_not, Bool.and_eq_true] at hi
      exact hm i hi.1
    refine (makePending_keepsPending hrest).trans (start_keepsPending ?_ h)
    simp [inMask_and_not, inMask_bit, hidle]
  · exact makePending_keepsPending hm

theorem requestStart_keepsPending {s t : State} {m : SlotMask} {deferred : Bool} (h : requestStart s m deferred = .ok t) :
    s.KeepsPending t := by
  rcases requestStart_eq_ok h with rfl | ⟨m', hm, h⟩
  · exact .refl _
  · exact arbitrate_keepsPending (fun i hi => (hm i hi).2) h

theorem settle_keepsPending {s t : State} {x : Except Raise State} (hx : ∀ u, x = .ok u → s.KeepsPending u)
    (h : s.settle x = .next t) : s.KeepsPending t := by
  rcases State.settle_eq_next h with h | ⟨e, -, rfl⟩
  · exact hx t h
  · exact .of_slots fun _ => rfl

theorem tickEvent_keepsPending {s t : State} {src : TickSource} {n : Nat} (h : tickEvent s src n = .next t) :
    s.KeepsPending t := by
  unfold tickEvent at h
  split at h
  · cases h; exact .refl _
  · exact settle_keepsPending (fun _ => tick_keepsPending) h

/-- A signal wakes a slot that waits for it, or none. -/
theorem signalSet_keepsPending (s : State) (m : Word) : s.KeepsPending (signalSet s m) := by
  have hbits : s.KeepsPending { s with signalBitmask := s.signalBitmask ||| m } := .of_slots fun _ => rfl
  refine hbits.trans ?_
  unfold signalSet
  simp only
  split
  · split
    · next hwait => exact .updateSlot (by rw [hwait.1]; decide) _
    · exact .refl _
  · exact .refl _

/-! ## Slots that leave Pending for an active state -/

/-- From `s` to `t` slot `i` goes from Pending to active. -/
def State.StartsPending (s t : State) (i : SlotId) : Prop :=
  (s.slot i).state = .pending ∧ (t.slot i).state.active = true

theorem State.KeepsPending.not_startsPending {s t : State} (h : s.KeepsPending t) (i : SlotId) : ¬s.StartsPending t i := by
  rintro ⟨hpending, hactive⟩
  rw [h i hpending, hpending] at hactive
  cases hactive

theorem not_startsPending_of_idle {s t : State} {i : SlotId} (h : (t.slot i).state = .idle) : ¬s.StartsPending t i := by
  rintro ⟨-, hactive⟩
  rw [h] at hactive
  cases hactive

/-- A command write takes slots from Pending by its abort alone: it takes the slot itself, which its start may then start, or it
takes the active slot and arbitrates. -/
theorem hostWriteCmd_startsPending {s t : State} {v : Word} {i : SlotId} (h : hostWriteCmd s v = .ok t)
    (hstarts : s.StartsPending t i) :
    inMask (v.extractLsb' 8 8) i = true ∨
      (s.params.arbitrateOnAbort = true ∧ ∃ a, s.activeSlot = some a ∧ inMask (v.extractLsb' 8 8) a = true) := by
  by_contra hneither
  obtain ⟨hself, harb⟩ := not_or.mp hneither
  rw [hostWriteCmd_eq] at h
  obtain ⟨u, hreset, hrequest⟩ := Except.andThenState_eq_ok h
  have habort : (abort s (v.extractLsb' 8 8)).slot i = s.slot i := by
    rw [abort_of_no_arbitration fun hboth => harb ⟨hboth.2, abortHits_iff.mp hboth.1⟩]
    exact slot_abortOnly_of_not_target (Bool.eq_false_iff.mpr fun htaken => hself (abortTargets_iff.mp htaken).1)
  have hafter : State.KeepsPending (abort s (v.extractLsb' 8 8)) u := by
    split at hreset
    · exact resetAbsCounter_keepsPending hreset
    · cases hreset; exact .refl _
  refine (hafter.trans (requestStart_keepsPending hrequest)).not_startsPending i ⟨?_, hstarts.2⟩
  rw [habort]
  exact hstarts.1

/-- A host write of another register changes no slot's state. -/
theorem hostWriteReg_state {s t : State} {r : HostReg} {v : Word} (hr : r ≠ .cmd) (h : hostWriteReg s r v = .ok t)
    (i : SlotId) : (t.slot i).state = (s.slot i).state := by
  cases r with
  | cmd => exact absurd rfl hr
  | seqStart j | seqCfg j =>
    cases h
    rw [State.slot_updateSlot]
    split <;> rfl
  | _ => cases h; rfl

/-! ## Instructions -/

/-- An instruction that ends in `k` after its accesses starts no Pending slot if `k` keeps them; a bus error leaves no slot
Pending or active. -/
theorem outcome_not_startsPending {α : Type} {s t : State} {x : Access α} {k : α → State → Outcome}
    (hx : x.After s.BusOnly) (hk : ∀ v u, s.BusOnly u → k v u = .next t → u.KeepsPending t) (h : x.outcome k = .next t)
    (j : SlotId) : ¬s.StartsPending t j := by
  rcases hx.outcome_next h with ⟨v, u, -, hu, h⟩ | ⟨addr, u, -, rfl⟩
  · exact ((State.KeepsPending.of_slots hu.slot).trans (hk v u hu h)).not_startsPending j
  · exact not_startsPending_of_idle (u.busError_idle addr j)

/-- The slot the executor runs is Running, and stays so over the instruction's accesses. -/
theorem State.BusOnly.executor_not_pending {s u : State} {a : SlotId} (h : s.BusOnly u) (he : s.executor = some a) :
    (u.slot a).state ≠ .pending := by
  obtain ⟨-, -, hrunning, -⟩ := State.executor_eq_some.mp he
  rw [h.slot, hrunning]
  decide

theorem continueAt_keepsPending {s t : State} {a : SlotId} {next : Word} (ha : (s.slot a).state ≠ .pending)
    (h : s.continueAt a next = .next t) : s.KeepsPending t := by
  cases h
  exact .updateSlot ha _

section Instructions

variable {s t : State} {a : SlotId} (he : s.executor = some a)

include he

/-- An instruction that goes on at another address after its accesses. -/
theorem outcome_continueAt_not_startsPending {α : Type} {x : Access α} {next : α → Word} (hx : x.After s.BusOnly)
    (h : (x.outcome fun v u => u.continueAt a (next v)) = .next t) (j : SlotId) : ¬s.StartsPending t j :=
  outcome_not_startsPending hx (fun _ _ hu h => continueAt_keepsPending (hu.executor_not_pending he) h) h j

theorem transfer_not_startsPending {base : BaseIndex} {offset n : Nat} {i : Instr} (hi : i ∈ transferInstrs base offset n)
    (h : exec i s = .next t) (j : SlotId) : ¬s.StartsPending t j := by
  rw [exec_eq_transfer he hi] at h
  exact outcome_continueAt_not_startsPending he (transfer_run s a i).only h j

end Instructions

theorem execDelay_not_startsPending (mode : DelayMode) (base : BaseIndex) (offset : Nat) {s t : State}
    (h : execDelay mode base offset s = .next t) (j : SlotId) : ¬s.StartsPending t j := by
  obtain ⟨a, he, h⟩ := State.onExecutor_next h
  refine outcome_not_startsPending (memRead_only ..) (fun T u hu h => ?_) h j
  split at h
  · next w hw =>
    cases h
    obtain ⟨tb, n, -, -, rfl⟩ := armDelay_eq_ok hw
    exact (State.KeepsPending.updateSlot (hu.executor_not_pending he) _).arm _ _ _ _
  · cases h; exact .of_slots fun _ => rfl

theorem execWaitForReg_not_startsPending (p : Predicate) (base : BaseIndex) (offset : Nat) {s t : State}
    (h : execWaitForReg p base offset s = .next t) (j : SlotId) : ¬s.StartsPending t j := by
  obtain ⟨a, he, h⟩ := State.onExecutor_next h
  refine outcome_not_startsPending ?_ (fun vd u hu h => ?_) h j
  · refine (memRead_only s _).andThen (fun _ h => h) fun v t ht => ?_
    exact (memRead_only t _).andThen (fun _ h => ht.trans h) fun d u hu => ht.trans hu
  · split at h
    · exact continueAt_keepsPending (hu.executor_not_pending he) h
    · cases h
      exact (State.KeepsPending.updateSlot (hu.executor_not_pending he) _).arm _ _ _ _

theorem execWaitForSig_not_startsPending (p : Predicate) (base : BaseIndex) (offset : Nat) {s t : State}
    (h : execWaitForSig p base offset s = .next t) (j : SlotId) : ¬s.StartsPending t j := by
  obtain ⟨a, he, h⟩ := State.onExecutor_next h
  refine outcome_not_startsPending (memRead_only ..) (fun d u hu h => ?_) h j
  split at h
  · exact continueAt_keepsPending (hu.executor_not_pending he) h
  · cases h; exact .updateSlot (hu.executor_not_pending he) _

theorem execSetTrig_not_startsPending (op : TrigOp) (base : BaseIndex) (offset : Nat) {s t : State}
    (h : execSetTrig op base offset s = .next t) (j : SlotId) : ¬s.StartsPending t j := by
  obtain ⟨a, he, h⟩ := State.onExecutor_next h
  refine outcome_not_startsPending (memRead_only ..) (fun m u hu h => ?_) h j
  exact continueAt_keepsPending (s := { u with triggerBitmask := trigApply op u.triggerBitmask m })
    (hu.executor_not_pending he) h

/-- Of the instructions only the end of a sequence starts a Pending slot (45_sequencer.md R217, R218). -/
theorem exec_startsPending {i : Instr} {s t : State} {j : SlotId} (h : exec i s = .next t) (hstarts : s.StartsPending t j) :
    ∃ base offset, i = .endSeqOrNop .endSeq base offset := by
  by_contra hnot
  refine absurd hstarts ?_
  cases i with
  | write b f n | writeNoInc b f n | mov b f n | movNoInc b f n | moveBlock b f n | and b f n | xor b f n | or b f n =>
    obtain ⟨a, he, -⟩ := State.onExecutor_next h
    exact transfer_not_startsPending he (base := b) (offset := f) (n := n) (by simp [transferInstrs]) h j
  | delay mode b f => exact execDelay_not_startsPending mode b f h j
  | waitForReg p b f => exact execWaitForReg_not_startsPending p b f h j
  | waitForSig p b f => exact execWaitForSig_not_startsPending p b f h j
  | setTrig op b f => exact execSetTrig_not_startsPending op b f h j
  | jump mode b f =>
    obtain ⟨a, he, h⟩ := State.onExecutor_next h
    exact outcome_continueAt_not_startsPending he (memRead_only ..) h j
  | skipCond cond b f =>
    obtain ⟨a, he, h⟩ := State.onExecutor_next h
    exact outcome_continueAt_not_startsPending he (skipTest_only ..) h j
  | endSeqOrNop op b f =>
    obtain ⟨a, he, h⟩ := State.onExecutor_next h
    cases op with
    | nop => exact (continueAt_keepsPending ((State.BusOnly.refl s).executor_not_pending he) h).not_startsPending j
    | endSeq => exact absurd ⟨b, f, rfl⟩ hnot
  | reserved payload =>
    obtain ⟨a, -, h⟩ := State.onExecutor_next h
    cases h
    exact (State.KeepsPending.of_slots fun _ => rfl).not_startsPending j

/-! ## Turns -/

/-- The executor's turn is to run the end of a sequence. -/
def State.FetchesEndSeq (s : State) : Prop :=
  ∃ a w base offset, s.executor = some a ∧ s.busRead (s.pc a) = .value w ∧
    decode s.params.maps s.layout w = .ok (.endSeqOrNop .endSeq base offset)

theorem executorStep_startsPending {s t : State} {j : SlotId} (h : executorStep s = .next t)
    (hstarts : s.StartsPending t j) : s.FetchesEndSeq := by
  rcases executorStep_eq_next h with ⟨-, rfl⟩ | ⟨a, he, ⟨-, rfl⟩ | ⟨w, hw, ⟨r, -, rfl⟩ | ⟨i, hi, h⟩⟩⟩
  · exact absurd hstarts ((State.KeepsPending.refl _).not_startsPending j)
  · exact absurd hstarts (not_startsPending_of_idle (State.busError_idle ..))
  · exact absurd hstarts ((State.KeepsPending.of_slots fun _ => rfl).not_startsPending j)
  · obtain ⟨base, offset, rfl⟩ := exec_startsPending h hstarts
    exact ⟨a, w, base, offset, he, hw, hi⟩

/-- The host's reads, the other masters and every event of the environment but reset leave the Pending slots alone. -/
theorem takeTurn_keepsPending {turn : Turn} {s t : State} (hexec : turn ≠ .executor)
    (hwrite : ∀ w off v, turn ≠ .hostWrite w off v) (hreset : turn ≠ .reset) (h : takeTurn turn s = .next t) :
    s.KeepsPending t := by
  cases turn with
  | executor => exact absurd rfl hexec
  | hostWrite w off v => exact absurd rfl (hwrite w off v)
  | reset => exact absurd rfl hreset
  | hostRead w off =>
    simp only [takeTurn, hostRead] at h
    split at h
    · cases h
    · split at h <;> cases h
      exact .of_slots fun _ => rfl
  | masterWrite addr v =>
    simp only [takeTurn, masterWrite] at h
    split at h <;> cases h <;> exact .of_slots fun _ => rfl
  | masterWriteByte addr b =>
    simp only [takeTurn, masterWriteByte] at h
    split at h
    · cases h
    · split at h <;> cases h <;> exact .of_slots fun _ => rfl
  | preAccrue => cases h; exact .of_slots fun _ => rfl
  | preOverflow =>
    simp only [takeTurn, preOverflow] at h
    split at h
    · cases h; exact .refl _
    · exact settle_keepsPending (fun _ => tick_keepsPending (s := { s with preOutstanding := 0 })) h
  | baseOverflow n => exact tickEvent_keepsPending h
  | wrapOverflow n => exact tickEvent_keepsPending h
  | captureCompare c => exact settle_keepsPending (fun _ => requestStart_keepsPending) h
  | hwEvent e => exact settle_keepsPending (fun _ => requestStart_keepsPending) h
  | pollTick => exact settle_keepsPending (fun _ => countDown_keepsPending) h
  | timerExpire =>
    simp only [takeTurn, timerExpire] at h
    split at h
    · exact settle_keepsPending (fun _ => expire_keepsPending) h
    · cases h; exact .refl _
  | signalSet m => cases h; exact signalSet_keepsPending s m
  | signalClear m => cases h; exact .of_slots fun _ => rfl

/-- One CMD write that aborts the slot itself or, under ARBITRATE_ON_ABORT, the active slot. -/
def State.CommandAborts (s : State) (turn : Turn) (i : SlotId) : Prop :=
  ∃ off v, turn = .hostWrite .word off v ∧ s.regAt off = some .cmd ∧
    (inMask (v.extractLsb' 8 8) i = true ∨
      (s.params.arbitrateOnAbort = true ∧ ∃ a, s.activeSlot = some a ∧ inMask (v.extractLsb' 8 8) a = true))

/-- A turn that takes a slot from Pending to active is the executor's, with the end of a sequence to run, or a command write
that aborts. -/
theorem takeTurn_startsPending {s t : State} {turn : Turn} {i : SlotId} (h : takeTurn turn s = .next t)
    (hstarts : s.StartsPending t i) : (turn = .executor ∧ s.FetchesEndSeq) ∨ s.CommandAborts turn i := by
  cases turn with
  | executor => exact .inl ⟨rfl, executorStep_startsPending h hstarts⟩
  | hostWrite w off v =>
    refine .inr ?_
    simp only [takeTurn, hostWrite] at h
    split at h
    · cases h
    · next hw =>
      cases not_ne_iff.mp hw
      split at h
      · next r hr =>
        rcases State.settle_eq_next h with h | ⟨e, -, rfl⟩
        · by_cases hcmd : r = .cmd
          · subst hcmd
            exact ⟨off, v, rfl, hr, hostWriteCmd_startsPending h hstarts⟩
          · obtain ⟨hpending, hactive⟩ := hstarts
            rw [hostWriteReg_state hcmd h i, hpending] at hactive
            cases hactive
        · exact absurd hstarts ((State.KeepsPending.of_slots fun _ => rfl).not_startsPending i)
      · cases h
  | reset =>
    cases h
    exact absurd hstarts (not_startsPending_of_idle (by rw [resetBlock_slot]; rfl))
  | _ => exact absurd hstarts ((takeTurn_keepsPending (by simp) (by simp) (by simp) h).not_startsPending i)

end Sys2Proof.Machine

open Sys2Proof Sys2Proof.Machine

/-- Settles O50: of all turns only an end of sequence and a command write that aborts take a slot from Pending to active; the
others leave the Pending slots as they are. -/
theorem pendingStartsOnlyThroughArbiter : Obligations.PendingStartsOnlyThroughArbiter := by
  unfold Obligations.PendingStartsOnlyThroughArbiter
  intro s t i h hpending hactive
  rcases takeTurn_startsPending (step_eq_next h).2 ⟨hpending, hactive⟩ with
    ⟨hturn, a, w, base, offset, he, hread, hdecode⟩ | hcommand
  · exact .inl ⟨a, w, base, offset, ⟨he, hturn⟩, hread, hdecode⟩
  · exact .inr hcommand

end

section
/-! SUPPORT. The counter reset where its flush fits and where it does not, the start of a mask of Idle slots, and the checks of
a request (45_sequencer.md R212 to R214; 60_exceptions.md R268, R269). -/

namespace Sys2Proof.Machine

/-! ## The counter reset and its flush (60_exceptions.md R268, R269) -/

/-- The active slot, if there is one, is in no Delay. -/
def State.NotDelaying (s : State) : Prop := ∀ a, s.activeSlot = some a → (s.slot a).state ≠ .inDelay

theorem State.notDelaying_of_active {s : State} {a : SlotId} (ha : s.activeSlot = some a)
    (hstate : (s.slot a).state ≠ .inDelay) : s.NotDelaying := by
  intro b hb
  cases ha.symm.trans hb
  exact hstate

theorem State.notDelaying_of_none {s : State} (h : s.activeSlot = none) : s.NotDelaying := by
  intro a ha
  cases h.symm.trans ha

/-- The state with its counter reset and its overflows flushed (60_exceptions.md R268). -/
def State.zeroed (s : State) : State := { s with absoluteDelayCounter := 0, preOutstanding := 0 }

theorem State.zeroed_eq_self {s : State} (hcounter : s.absoluteDelayCounter = 0) (hpre : s.preOutstanding = 0) :
    s.zeroed = s := by
  cases s
  cases hcounter
  cases hpre
  rfl

/-- With no Delay in progress the counter reset has nothing to restart. -/
theorem zeroAndRestart_of_notDelaying {s : State} (h : s.NotDelaying) :
    zeroAndRestart s = .ok { s with absoluteDelayCounter := 0 } := by
  unfold zeroAndRestart
  simp only
  split
  · next a ha => exact if_neg fun hdelay => h a ha hdelay.1
  · rfl

/-- A flush that does not fit counts its own base past the limit. -/
theorem State.not_flushFits_iff {s : State} :
    ¬s.FlushFits ↔ s.preOutstanding ≠ 0 ∧ s.timeBase = .preCountOverflow ∧
      s.params.absCounterLimit < s.absoluteDelayCounter + s.preOutstanding := by
  simp [State.FlushFits]

/-- A flush that fits changes the counter and nothing else of the block. -/
theorem countTick_of_flushFits {s : State} (hpre : s.preOutstanding ≠ 0) (h : s.FlushFits) :
    ∃ n, countTick { s with preOutstanding := 0 } .preCountOverflow s.preOutstanding =
      .ok { s with preOutstanding := 0, absoluteDelayCounter := n } := by
  rcases h with h0 | hbase | hroom
  · exact absurd h0 hpre
  · have hsource : s.timeBase.source ≠ some .preCountOverflow := by
      cases hb : s.timeBase with
      | preCountOverflow => exact absurd hb hbase
      | clock | baseCountOverflow | wrapCountOverflow => simp [TimeBase.source]
    exact ⟨s.absoluteDelayCounter, if_neg hsource⟩
  · by_cases hsource : s.timeBase.source = some .preCountOverflow
    · exact ⟨_, countTick_of_fits (s := { s with preOutstanding := 0 }) hsource hroom⟩
    · exact ⟨s.absoluteDelayCounter, if_neg hsource⟩

/-- A flush that does not fit faults, with the active slot in the record (log 37) and the overflows delivered (log 15). -/
theorem countTick_of_not_flushFits {s : State} (h : ¬s.FlushFits) :
    countTick { s with preOutstanding := 0 } .preCountOverflow s.preOutstanding =
      .error ⟨⟨.counterOverflow, s.activeSlot, none, none⟩, 0⟩ := by
  obtain ⟨-, hbase, hover⟩ := State.not_flushFits_iff.mp h
  have hsource : s.timeBase.source = some .preCountOverflow := by rw [hbase]; rfl
  exact (if_pos hsource).trans (if_neg (Nat.not_le.mpr hover))

/-- With no slot active a flush that fits meets no armed timer, or there is nothing to flush. -/
theorem State.flush_of_none_active {s : State} (hnone : s.activeSlot = none)
    (h : s.preOutstanding = 0 ∨ s.TimerOwned ∧ s.FlushFits) :
    (s.preOutstanding = 0 ∨ s.timer.armed = false) ∧ s.FlushFits := by
  rcases h with hpre | ⟨howned, hfits⟩
  · exact ⟨.inl hpre, .inl hpre⟩
  · refine ⟨.inr (Bool.eq_false_iff.mpr fun harmed => ?_), hfits⟩
    cases hnone.symm.trans (howned harmed).1

theorem resetAbsCounterUnarmed_of_flushFits {s : State} (hdelay : s.NotDelaying) (h : s.FlushFits) :
    resetAbsCounterUnarmed s = .ok s.zeroed := by
  by_cases hpre : s.preOutstanding = 0
  · rw [resetAbsCounterUnarmed, if_pos hpre]
    exact zeroAndRestart_of_notDelaying (s := { s with preOutstanding := 0 }) hdelay
  · obtain ⟨n, hcount⟩ := countTick_of_flushFits hpre h
    rw [resetAbsCounterUnarmed_eq_andThenState hpre, hcount]
    exact zeroAndRestart_of_notDelaying (s := { s with preOutstanding := 0, absoluteDelayCounter := n }) hdelay

theorem resetAbsCounterUnarmed_of_not_flushFits {s : State} (h : ¬s.FlushFits) :
    resetAbsCounterUnarmed s = .error ⟨⟨.counterOverflow, s.activeSlot, none, none⟩, 0⟩ := by
  rw [resetAbsCounterUnarmed_eq_andThenState (State.not_flushFits_iff.mp h).1, countTick_of_not_flushFits h]
  rfl

/-- With nothing to flush, or no timer armed, the counter reset counts nothing down. -/
theorem resetAbsCounter_of_flushFits {s : State} (htimer : s.preOutstanding = 0 ∨ s.timer.armed = false)
    (hdelay : s.NotDelaying) (h : s.FlushFits) : resetAbsCounter s = .ok s.zeroed := by
  rw [← resetAbsCounterUnarmed_of_flushFits hdelay h]
  rcases htimer with hpre | harmed
  · rw [resetAbsCounter, resetAbsCounterUnarmed, if_pos hpre, if_pos hpre]
  · exact resetAbsCounter_of_unarmed harmed

/-- The counter faults before the flush counts the timer down (60_exceptions.md R271). -/
theorem resetAbsCounter_of_not_flushFits {s : State} (h : ¬s.FlushFits) :
    resetAbsCounter s = .error ⟨⟨.counterOverflow, s.activeSlot, none, none⟩, 0⟩ := by
  rw [resetAbsCounter_eq_andThenState (State.not_flushFits_iff.mp h).1, tick_eq_andThenState, countTick_of_not_flushFits h]
  rfl

/-! ## The arbiter's start of a mask (45_sequencer.md R212 to R214) -/

/-- The slots after a request of the mask `m` that starts `i0`: this one Running at its start address, the others Pending. -/
def State.withStarted (s : State) (m : SlotMask) (i0 : SlotId) : State :=
  s.mapSlots fun i x => if i = i0 then x.started else if inMask m i = true then { x with state := .pending } else x

theorem State.slot_withStarted (s : State) (m : SlotMask) (i0 i : SlotId) :
    (s.withStarted m i0).slot i =
      if i = i0 then (s.slot i).started else if inMask m i = true then { s.slot i with state := .pending } else s.slot i :=
  s.slot_mapSlots i _

theorem State.slot_withStarted_self (s : State) (m : SlotMask) (i0 : SlotId) :
    (s.withStarted m i0).slot i0 = (s.slot i0).started := by rw [State.slot_withStarted, if_pos rfl]

theorem inMask_bit_self (i : SlotId) : inMask (1#8 <<< i.val) i = true := by rw [inMask_bit, decide_eq_true rfl]

theorem makePending_started (s : State) (m : SlotMask) (i0 : SlotId) :
    (s.makePending (m &&& ~~~(1#8 <<< i0.val))).updateSlot i0 Slot.started = s.withStarted m i0 := by
  refine State.eq_of_slots rfl fun i => ?_
  by_cases h : i0 = i
  · subst h
    simp [State.slot_withStarted, inMask_and_not, inMask_bit]
  · rw [State.slot_updateSlot_of_ne _ _ h]
    simp [State.slot_withStarted, inMask_and_not, inMask_bit, h, Ne.symm h]

theorem makePending_zero (s : State) : s.makePending 0 = s :=
  State.eq_of_slots rfl fun i => by simp

theorem State.withStarted_activeSlot {s : State} (hnone : s.activeSlot = none) (m : SlotMask) (i0 : SlotId) :
    (s.withStarted m i0).activeSlot = some i0 := by
  refine lowest_eq_some_of_unique (by rw [State.slot_withStarted_self]; rfl) fun j hj => ?_
  by_contra hne
  rw [State.slot_withStarted, if_neg hne] at hj
  split at hj
  · cases hj
  · rw [State.activeSlot_eq_none.mp hnone j] at hj
    cases hj

theorem arbitrate_of_active {s : State} {a : SlotId} (ha : s.activeSlot = some a) (m : SlotMask) (deferred : Bool) :
    arbitrate s m deferred = .ok (s.makePending m) := by
  rw [arbitrate, ha]

theorem arbitrate_zero (s : State) (deferred : Bool) : arbitrate s 0 deferred = .ok s := by
  have hlowest : lowest (inMask 0) = none := lowest_eq_none.mpr inMask_zero
  rw [arbitrate, hlowest, makePending_zero]
  cases s.activeSlot <;> rfl

section Starts

variable {s : State} {m : SlotMask} {i0 : SlotId} (hnone : s.activeSlot = none) (hlowest : lowest (inMask m) = some i0)

include hnone hlowest

theorem arbitrate_deferred :
    arbitrate s m true = .ok ((s.withStarted m i0).arm .deferredStart i0 .preCountOverflow 1) := by
  simp only [arbitrate, hnone, hlowest, start, if_true, startDeferred, makePending_started]

theorem arbitrate_immediate : arbitrate s m false = postStart (s.withStarted m i0) i0 := by
  simp only [arbitrate, hnone, hlowest, start, Bool.false_eq_true, if_false, makePending_started]

end Starts

/-- An immediate start leaves the counter alone if the slot says so, and resets it otherwise (45_sequencer.md R213). -/
theorem postStart_of_running {s : State} {i : SlotId} (h : (s.slot i).state = .running) :
    ((s.slot i).disableAbsoluteDelayReset = true → postStart s i = .ok s) ∧
      ((s.slot i).disableAbsoluteDelayReset = false → postStart s i = resetAbsCounter s) := by
  rw [postStart, if_neg (not_not_intro h)]
  exact ⟨fun hd => if_pos hd, fun hd => if_neg (by rw [hd]; decide)⟩

section PostStart

variable {s : State} (m : SlotMask) (i0 : SlotId)

theorem postStart_withStarted_disabled (hdisable : (s.slot i0).disableAbsoluteDelayReset = true) :
    postStart (s.withStarted m i0) i0 = .ok (s.withStarted m i0) :=
  (postStart_of_running (by rw [State.slot_withStarted_self]; rfl)).1 (by rw [State.slot_withStarted_self]; exact hdisable)

theorem postStart_withStarted_resets (hreset : (s.slot i0).disableAbsoluteDelayReset = false) :
    postStart (s.withStarted m i0) i0 = resetAbsCounter (s.withStarted m i0) :=
  (postStart_of_running (by rw [State.slot_withStarted_self]; rfl)).2 (by rw [State.slot_withStarted_self]; exact hreset)

variable (hnone : s.activeSlot = none)

include hnone

theorem resetAbsCounter_withStarted_of_flushFits (htimer : s.preOutstanding = 0 ∨ s.timer.armed = false) (h : s.FlushFits) :
    resetAbsCounter (s.withStarted m i0) = .ok (s.withStarted m i0).zeroed :=
  resetAbsCounter_of_flushFits htimer
    (State.notDelaying_of_active (State.withStarted_activeSlot hnone m i0)
      (by rw [State.slot_withStarted_self, Slot.started_state]; decide)) h

theorem resetAbsCounter_withStarted_of_not_flushFits (h : ¬s.FlushFits) :
    resetAbsCounter (s.withStarted m i0) = .error ⟨⟨.counterOverflow, some i0, none, none⟩, 0⟩ := by
  rw [← State.withStarted_activeSlot hnone m i0]
  exact resetAbsCounter_of_not_flushFits (s := s.withStarted m i0) h

end PostStart

/-! ## The checks of a request (45_sequencer.md R214) -/

theorem lowest_inMask_of_min {m : SlotMask} {i : SlotId} (hi : inMask m i = true)
    (hmin : ∀ j, j < i → inMask m j = false) : lowest (inMask m) = some i := lowest_eq_some.mpr ⟨hi, hmin⟩

theorem inMask_notIdleIn (s : State) (m : SlotMask) (i : SlotId) :
    inMask (notIdleIn s m) i = true ↔ inMask m i = true ∧ (s.slot i).state ≠ .idle := by
  simp [notIdleIn]

/-- The slots that START_NON_IDLE = ignore leaves of a request are its Idle ones. -/
theorem inMask_idleOf (s : State) (m : SlotMask) (i : SlotId) :
    inMask (m &&& ~~~notIdleIn s m) i = true ↔ inMask m i = true ∧ (s.slot i).state = .idle := by
  rw [inMask_and_not, Bool.and_eq_true, Bool.not_eq_true', ← Bool.not_eq_true, inMask_notIdleIn]
  tauto

theorem requestIdle_of_idle {s : State} {m : SlotMask} (h : ∀ i, inMask m i = true → (s.slot i).state = .idle)
    (deferred : Bool) : requestIdle s m deferred = arbitrate s m deferred := by
  have hlowest : lowest (inMask (notIdleIn s m)) = none := lowest_eq_none.mpr fun i =>
    Bool.eq_false_iff.mpr fun hi => ((inMask_notIdleIn s m i).mp hi).2 (h i ((inMask_notIdleIn s m i).mp hi).1)
  rw [requestIdle, hlowest]

/-- EN, or EN_POLICY = none, lets a request through to the check of its slots. -/
theorem requestStart_of_enabled {s : State} (h : s.en = true ∨ s.params.enPolicy = .none) (m : SlotMask) (deferred : Bool) :
    requestStart s m deferred = requestIdle s m deferred := by
  by_cases hm : m = 0
  · subst hm
    rw [requestStart_zero, requestIdle_of_idle (by simp), arbitrate_zero]
  · rw [requestStart, if_neg hm]
    rcases h with hen | hpolicy
    · exact if_pos hen
    · rw [hpolicy]; simp

theorem requestStart_of_idle {s : State} {m : SlotMask} (hen : s.en = true ∨ s.params.enPolicy = .none)
    (h : ∀ i, inMask m i = true → (s.slot i).state = .idle) (deferred : Bool) :
    requestStart s m deferred = arbitrate s m deferred := by
  rw [requestStart_of_enabled hen, requestIdle_of_idle h]

/-- Under START_NON_IDLE = ignore a request is that of its Idle slots. -/
theorem requestIdle_of_ignore {s : State} (h : s.params.startNonIdle = .ignore) (m : SlotMask) (deferred : Bool) :
    requestIdle s m deferred = arbitrate s (m &&& ~~~notIdleIn s m) deferred := by
  by_cases hall : ∀ i, inMask m i = true → (s.slot i).state = .idle
  · have hsame : m &&& ~~~notIdleIn s m = m := slotMask_ext fun i => by
      rw [Bool.eq_iff_iff, inMask_idleOf]
      exact ⟨And.left, fun hi => ⟨hi, hall i hi⟩⟩
    rw [requestIdle_of_idle hall, hsame]
  · obtain ⟨i, hi, hbusy⟩ := by simpa using hall
    obtain ⟨j, hj⟩ := Option.isSome_iff_exists.mp
      (lowest_isSome.mpr ⟨i, (inMask_notIdleIn s m i).mpr ⟨hi, hbusy⟩⟩)
    rw [requestIdle, hj]
    simp only [h]
    split
    · next h0 => rw [h0, arbitrate_zero]
    · rfl

theorem requestStart_disabled {s : State} {m : SlotMask} (hm : m ≠ 0) (hen : s.en = false) (deferred : Bool) :
    (s.params.enPolicy = .ignore → requestStart s m deferred = .ok s) ∧
      (s.params.enPolicy = .fault → requestStart s m deferred =
        .error (Raise.ofSlot s .startWhileDisabled (lowest (inMask m)))) := by
  rw [requestStart, if_neg hm, hen]
  exact ⟨fun h => by rw [h]; rfl, fun h => by rw [h]; rfl⟩

theorem requestStart_ignored {s : State} (hen : s.en = false) (h : s.params.enPolicy = .ignore) (m : SlotMask)
    (deferred : Bool) : requestStart s m deferred = .ok s := by
  by_cases hm : m = 0
  · subst hm
    exact requestStart_zero s deferred
  · exact (requestStart_disabled hm hen deferred).1 h

theorem requestIdle_of_fault {s : State} {m : SlotMask} {i : SlotId} (hi : inMask m i = true)
    (hbusy : (s.slot i).state ≠ .idle) (hmin : ∀ j, j < i → inMask m j = true → (s.slot j).state = .idle)
    (h : s.params.startNonIdle = .fault) (deferred : Bool) :
    requestIdle s m deferred = .error (Raise.ofSlot s .startNonIdle (some i)) := by
  have hlowest : lowest (inMask (notIdleIn s m)) = some i :=
    lowest_inMask_of_min ((inMask_notIdleIn s m i).mpr ⟨hi, hbusy⟩) fun j hj =>
      Bool.eq_false_iff.mpr fun hin => ((inMask_notIdleIn s m j).mp hin).2 (hmin j hj ((inMask_notIdleIn s m j).mp hin).1)
  rw [requestIdle, hlowest]
  simp only [h]

end Sys2Proof.Machine

open Sys2Proof Sys2Proof.Machine

/-- Settles O44: the checks in the order of `requestStart` and `requestIdle`; under START_NON_IDLE = ignore both requests are
the arbiter's for the same mask of Idle slots. -/
theorem requestStartChecks : Obligations.RequestStartChecks := by
  unfold Obligations.RequestStartChecks
  intro s m deferred
  refine ⟨?empty, fun hen hpolicy => requestStart_ignored hen hpolicy m deferred, fun i hi hmin hen hpolicy => ?disabled,
    fun hen => ⟨fun i hi hbusy hmin hfault => ?busy, fun hignore => ⟨fun hall => ?none, fun idle hidle => ?mixed⟩⟩⟩
  case empty => rintro rfl; exact requestStart_zero s deferred
  case disabled =>
    have hm : m ≠ 0 := by
      rintro rfl
      simp at hi
    rw [(requestStart_disabled hm hen deferred).2 hpolicy, lowest_inMask_of_min hi hmin]
    rfl
  case busy => rw [requestStart_of_enabled hen, requestIdle_of_fault hi hbusy hmin hfault]; rfl
  case none =>
    have hempty : m &&& ~~~notIdleIn s m = 0 := slotMask_eq_zero.mpr fun i => Bool.eq_false_iff.mpr fun hi =>
      have hin := (inMask_idleOf s m i).mp hi
      hall i hin.1 hin.2
    rw [requestStart_of_enabled hen, requestIdle_of_ignore hignore, hempty, arbitrate_zero]
  case mixed =>
    have hsame : idle = m &&& ~~~notIdleIn s m := slotMask_ext fun i => by
      rw [Bool.eq_iff_iff, hidle, inMask_idleOf]
    rw [requestStart_of_idle hen fun i hi => ((hidle i).mp hi).2, requestStart_of_enabled hen,
      requestIdle_of_ignore hignore, hsame]

/-- Settles O45, by the two cases of the arbiter; the counter reset of an immediate start finds the started slot active. -/
theorem requestStartArbitrates : Obligations.RequestStartArbitrates := by
  unfold Obligations.RequestStartArbitrates
  intro s m hen hidle started pended
  have hrequest := requestStart_of_idle hen hidle
  refine ⟨fun a deferred ha => (hrequest deferred).trans (arbitrate_of_active ha m deferred), fun i0 hnone hi0 hmin => ?_⟩
  have hlowest := lowest_inMask_of_min hi0 hmin
  have himmediate := (hrequest false).trans (arbitrate_immediate hnone hlowest)
  refine ⟨(hrequest true).trans (arbitrate_deferred hnone hlowest), fun hdisable => ?disabled,
    fun hreset => ⟨?fits, ?overflows⟩⟩
  case disabled => exact himmediate.trans (postStart_withStarted_disabled m i0 hdisable)
  case fits =>
    intro hflush
    obtain ⟨htimer, hfits⟩ := State.flush_of_none_active hnone hflush
    exact himmediate.trans ((postStart_withStarted_resets m i0 hreset).trans
      (resetAbsCounter_withStarted_of_flushFits m i0 hnone htimer hfits))
  case overflows =>
    intro hflush
    exact himmediate.trans ((postStart_withStarted_resets m i0 hreset).trans
      (resetAbsCounter_withStarted_of_not_flushFits m i0 hnone hflush))

end

section
/-! SUPPORT. What an abort leaves of each slot and of the timer, the host's command, and the order of Pending slots
(45_sequencer.md R217 to R219, R230 to R235). -/

namespace Sys2Proof.Machine

/-! ## What an abort leaves (45_sequencer.md R230 to R234) -/

/-- An abort that takes a slot raises its pair of flags and recomputes the lines. -/
theorem abortOnly_of_target {s : State} {m : SlotMask} {i : SlotId} (h : abortTargets s m i = true) :
    abortOnly s m =
      (((if abortHits s m = true then s.disarm else s).abortSlots (abortTargets s m)).raiseFlags seqAbortedBit).recompute :=
  if_pos (lowest_isSome.mpr ⟨i, h⟩)

/-- The abort itself leaves everything but the slots, the timer, the flags and the lines. -/
theorem abortOnly_frame (s : State) (m : SlotMask) :
    abortOnly s m = { s with
      slots := (abortOnly s m).slots, timer := (abortOnly s m).timer, ifReg := (abortOnly s m).ifReg,
      seqIf := (abortOnly s m).seqIf, irqHost := (abortOnly s m).irqHost, irqSeq := (abortOnly s m).irqSeq } := by
  unfold abortOnly
  simp only
  split <;> split <;> rfl

/-- Arbitration after an abort writes slots and the timer only. -/
theorem abort_eq_abortOnly (s : State) (m : SlotMask) :
    abort s m = { abortOnly s m with slots := (abort s m).slots, timer := (abort s m).timer } := by
  unfold abort
  split
  · exact dispatch_frame _
  · rfl

theorem abort_frame (s : State) (m : SlotMask) :
    abort s m = { s with
      slots := (abort s m).slots, timer := (abort s m).timer, ifReg := (abort s m).ifReg, seqIf := (abort s m).seqIf,
      irqHost := (abort s m).irqHost, irqSeq := (abort s m).irqSeq } := by
  have hflags := abort_eq_abortOnly s m
  rw [abortOnly_frame] at hflags
  rw [hflags]

/-- An abort that takes a slot raises its pair of flags and recomputes the lines (45_sequencer.md R230, R232). -/
theorem abort_flags_of_target {s : State} {m : SlotMask} {i : SlotId} (h : abortTargets s m i = true) :
    (abort s m).ifReg = s.ifReg ||| seqAbortedBit ∧ (abort s m).seqIf = s.seqIf ||| seqAbortedBit ∧
      (abort s m).irqHost = lineOf (abort s m).ifReg s.ien ∧ (abort s m).irqSeq = lineOf (abort s m).seqIf s.seqIen := by
  rw [abort_eq_abortOnly, abortOnly_of_target h]
  split <;> exact ⟨rfl, rfl, rfl, rfl⟩

/-- A slot is Pending after the abort itself if it was and the abort did not target it. -/
theorem abortOnly_pending_iff {s : State} {m : SlotMask} {i : SlotId} :
    ((abortOnly s m).slot i).state = .pending ↔ (s.slot i).state = .pending ∧ inMask m i = false := by
  rw [slot_abortOnly]
  split
  · next h =>
    obtain ⟨hin, -⟩ := abortTargets_iff.mp h
    simp [hin]
  · next h =>
    refine ⟨fun hpending => ⟨hpending, Bool.eq_false_iff.mpr fun hin => h ?_⟩, And.left⟩
    exact abortTargets_iff.mpr ⟨hin, by rw [hpending]; decide⟩

/-- Slot `i` is the one that arbitration after an abort of `m` starts, if it starts one. -/
theorem abortOnly_lowestPending_iff {s : State} {m : SlotMask} {i : SlotId} :
    (abortOnly s m).LowestPending i ↔ ((s.slot i).state = .pending ∧ inMask m i = false) ∧
      ∀ j, j < i → ¬((s.slot j).state = .pending ∧ inMask m j = false) := by
  simp only [State.LowestPending, ne_eq, abortOnly_pending_iff]

/-- An abort makes each slot it takes Idle, and arbitration does not touch it. -/
theorem slot_abort_of_target {s : State} {m : SlotMask} {i : SlotId} (h : abortTargets s m i = true) :
    (abort s m).slot i = (s.slot i).aborted := by
  have haborted : (abortOnly s m).slot i = (s.slot i).aborted := by rw [slot_abortOnly, if_pos h]
  unfold abort
  split
  · rw [slot_dispatch_of_not_pending (by rw [haborted, Slot.aborted_state]; decide), haborted]
  · exact haborted

/-- Where the abort arbitrates, the lowest slot that is still Pending starts, deferred. -/
theorem abort_of_lowestPending {s : State} {m : SlotMask} {i : SlotId} (hhits : abortHits s m = true)
    (harb : s.params.arbitrateOnAbort = true) (hi : (abortOnly s m).LowestPending i) :
    abort s m = startDeferred (abortOnly s m) i := by
  rw [abort_of_arbitration hhits harb, dispatch_of_lowestPending hi]

/-- Where no slot is there to start, the abort is over. -/
theorem abort_of_none_starts {s : State} {m : SlotMask}
    (h : ∀ i, ¬((abortHits s m = true ∧ s.params.arbitrateOnAbort = true) ∧ (abortOnly s m).LowestPending i)) :
    abort s m = abortOnly s m := by
  by_cases harb : abortHits s m = true ∧ s.params.arbitrateOnAbort = true
  · rw [abort_of_arbitration harb.1 harb.2]
    refine dispatch_of_no_pending fun i hi => ?_
    obtain ⟨j, hj⟩ := Option.isSome_iff_exists.mp
      (lowest_isSome (p := fun i => ((abortOnly s m).slot i).state == .pending).mpr ⟨i, beq_iff_eq.mpr hi⟩)
    obtain ⟨hpending, hlower⟩ := lowest_eq_some.mp hj
    exact h j ⟨harb, beq_iff_eq.mp hpending, fun k hk => beq_eq_false_iff_ne.mp (hlower k hk)⟩
  · exact abort_of_no_arbitration harb

/-- A slot that neither the abort takes nor arbitration starts is as it was. -/
theorem slot_abort_of_neither {s : State} {m : SlotMask} {i : SlotId} (htarget : abortTargets s m i = false)
    (hstart : ¬((abortHits s m = true ∧ s.params.arbitrateOnAbort = true) ∧ (abortOnly s m).LowestPending i)) :
    (abort s m).slot i = s.slot i := by
  rw [← slot_abortOnly_of_not_target htarget]
  by_cases hsome : ∃ j, (abortHits s m = true ∧ s.params.arbitrateOnAbort = true) ∧ (abortOnly s m).LowestPending j
  · obtain ⟨j, harb, hj⟩ := hsome
    rw [abort_of_lowestPending harb.1 harb.2 hj, slot_startDeferred, if_neg (by rintro rfl; exact hstart ⟨harb, hj⟩)]
  · rw [abort_of_none_starts (not_exists.mp hsome)]

end Sys2Proof.Machine

open Sys2Proof Sys2Proof.Machine

/-- Settles O46: `abortOnly` takes the targeted slots, and `Dispatch` after it starts the lowest Pending one that remains. -/
theorem abortEffect : Obligations.AbortEffect := by
  unfold Obligations.AbortEffect
  intro s m t taken hit remains starts
  have htaken : ∀ i, taken i ↔ abortTargets s m i = true := fun i => abortTargets_iff.symm
  have hstarts : ∀ i, starts i ↔
      (abortHits s m = true ∧ s.params.arbitrateOnAbort = true) ∧ (abortOnly s m).LowestPending i := fun i => by
    rw [abortHits_iff, abortOnly_lowestPending_iff]
    exact ⟨fun ⟨harb, hhit, hi, hlower⟩ => ⟨⟨hhit, harb⟩, hi, hlower⟩,
      fun ⟨⟨hhit, harb⟩, hi, hlower⟩ => ⟨harb, hhit, hi, hlower⟩⟩
  refine ⟨fun i => ⟨fun hi => slot_abort_of_target ((htaken i).mp hi), fun hi => ?started, fun hi hj => ?kept⟩,
    fun hhit hnone => ?disarmed, fun hnohit => ?timed, fun ⟨i, hi⟩ => ?flags, fun hnone => ?nothing, ?frame⟩
  case started =>
    obtain ⟨harb, hlowest⟩ := (hstarts i).mp hi
    have hnot : abortTargets s m i = false := Bool.eq_false_iff.mpr fun h => by
      have hpending := hlowest.1
      rw [slot_abortOnly, if_pos h] at hpending
      cases hpending
    show (abort s m).slot i = _ ∧ (abort s m).timer = _
    rw [abort_of_lowestPending harb.1 harb.2 hlowest]
    refine ⟨?_, rfl⟩
    rw [slot_startDeferred, if_pos rfl, slot_abortOnly_of_not_target hnot]
    rfl
  case kept =>
    exact slot_abort_of_neither (Bool.eq_false_iff.mpr fun h => hi ((htaken i).mpr h)) fun h => hj ((hstarts i).mpr h)
  case disarmed =>
    show (abort s m).timer = _
    rw [abort_of_none_starts fun i => (hstarts i).not.mp (hnone i), abortOnly_timer, if_pos (abortHits_iff.mpr hhit)]
    rfl
  case timed =>
    have hnot : ¬abortHits s m = true := fun h => hnohit (abortHits_iff.mp h)
    show (abort s m).timer = _
    rw [abort_of_no_arbitration fun h => hnot h.1, abortOnly_timer, if_neg hnot]
  case flags =>
    obtain ⟨hif, hseqIf, hhost, hseq⟩ := abort_flags_of_target ((htaken i).mp hi)
    rw [lineOf_eq_decide] at hhost hseq
    exact ⟨hif, hseqIf, hhost, hseq⟩
  case nothing => exact abort_of_no_target fun i => Bool.eq_false_iff.mpr fun h => hnone i ((htaken i).mpr h)
  case frame => exact abort_frame s m

end

section
/-! SUPPORT. The order of Pending slots, the host's command as one turn, hardware events, and the expiry of the timer in each
of its uses (45_sequencer.md R213, R218 to R220, R235; 60_exceptions.md R265, R266, R274). -/

namespace Sys2Proof.Machine

/-! ## A settled operation -/

theorem State.settle_answers (s : State) (x : Except Raise State) :
    (∀ t, x = .ok t → s.settle x = .next t) ∧
      ∀ e, x = .error e → s.settle x = .next ({ s with preOutstanding := e.preOutstanding }.raiseFatal e.record) :=
  ⟨fun _ h => by rw [h]; rfl, fun _ h => by rw [h]; rfl⟩

/-! ## The order of Pending slots (45_sequencer.md R217 to R219) -/

/-- An immediate start that answers leaves the slots as the arbiter set them, whether or not it resets the counter. -/
theorem postStart_withStarted_slots {s : State} {m : SlotMask} {i0 : SlotId} (hnone : s.activeSlot = none)
    (h : (s.slot i0).disableAbsoluteDelayReset = true ∨ (s.preOutstanding = 0 ∨ s.timer.armed = false) ∧ s.FlushFits) :
    ∃ t, postStart (s.withStarted m i0) i0 = .ok t ∧ ∀ i, t.slot i = (s.withStarted m i0).slot i := by
  cases hdisable : (s.slot i0).disableAbsoluteDelayReset with
  | true => exact ⟨_, postStart_withStarted_disabled m i0 hdisable, fun _ => rfl⟩
  | false =>
    obtain ⟨htimer, hfits⟩ := h.resolve_left (by simp [hdisable])
    exact ⟨_, (postStart_withStarted_resets m i0 hdisable).trans
      (resetAbsCounter_withStarted_of_flushFits m i0 hnone htimer hfits), fun _ => rfl⟩

/-- At the end of slot `a`'s sequence the lowest Pending slot `i` is the next to run, deferred; the others keep their states. -/
theorem complete_starts_next {s : State} {a i : SlotId} (hne : a ≠ i) (hpending : (s.slot i).state = .pending)
    (hlower : ∀ j, j < i → j ≠ a → (s.slot j).state ≠ .pending) :
    (complete s a).timer = ⟨true, .deferredStart, i, .preCountOverflow, 1⟩ ∧
      ∀ j, ((complete s a).slot j).state = if j = i then .running else if j = a then .idle else (s.slot j).state := by
  have hlowest : (s.finished a).LowestPending i := by
    refine ⟨by rw [State.slot_finished_of_ne hne]; exact hpending, fun j hj => ?_⟩
    by_cases hja : a = j
    · rw [State.slot_finished, if_pos hja]
      simp
    · rw [State.slot_finished_of_ne hja]
      exact hlower j hj (Ne.symm hja)
  rw [complete_eq_dispatch, dispatch_of_lowestPending hlowest]
  refine ⟨rfl, fun j => ?_⟩
  rw [slot_startDeferred, State.slot_finished]
  by_cases hji : j = i
  · simp [hji]
  · by_cases hja : j = a
    · simp [hja, hne, Ne.symm hne]
    · simp [hji, hja, Ne.symm hji, Ne.symm hja]

/-! ## The host's command (45_sequencer.md R235) -/

theorem takeTurn_hostWriteCmd {s : State} {off : Word} (h : s.regAt off = some .cmd) (v : Word) :
    takeTurn (.hostWrite .word off v) s = s.settle (hostWriteCmd s v) := by
  simp [takeTurn, hostWrite, h, hostWriteReg]

/-- The command that aborts, resets the counter and starts slot `i`. -/
def restartCommand (i : SlotId) : Word := (1#32 <<< (8 + i.val)) ||| 0x10000 ||| (1#32 <<< i.val)

theorem restartCommand_fields (i : SlotId) :
    (restartCommand i).extractLsb' 8 8 = 1#8 <<< i.val ∧ (restartCommand i).extractLsb' 0 8 = 1#8 <<< i.val ∧
      (restartCommand i).getLsbD 16 = true := by
  revert i
  decide

/-- An abort starts no slot unless it arbitrates and one is Pending. -/
theorem abort_of_no_pending {s : State} (h : s.params.arbitrateOnAbort = true → ∀ j, (s.slot j).state ≠ .pending)
    (m : SlotMask) : abort s m = abortOnly s m :=
  abort_of_none_starts fun j hj => h hj.1.2 j (abortOnly_pending_iff.mp hj.2.1).1

theorem abortOnly_flushFits (s : State) (m : SlotMask) : (abortOnly s m).FlushFits ↔ s.FlushFits := by
  rw [abortOnly_frame]
  rfl

/-- With the counter at 0 and nothing outstanding, an immediate start of one slot changes that slot only. -/
theorem requestStart_bit_of_zero {s : State} {i : SlotId} (hen : s.en = true ∨ s.params.enPolicy = .none)
    (hnone : s.activeSlot = none) (hidle : (s.slot i).state = .idle) (hcounter : s.absoluteDelayCounter = 0)
    (hpre : s.preOutstanding = 0) :
    requestStart s (1#8 <<< i.val) false = .ok (s.withStarted (1#8 <<< i.val) i) := by
  have hmask : ∀ j, inMask (1#8 <<< i.val) j = true → j = i := fun j hj => by
    rw [inMask_bit] at hj
    exact (of_decide_eq_true hj).symm
  have hlowest : lowest (inMask (1#8 <<< i.val)) = some i :=
    lowest_eq_some_of_unique (inMask_bit_self i) hmask
  rw [requestStart_of_idle hen (fun j hj => by rw [hmask j hj]; exact hidle), arbitrate_immediate hnone hlowest]
  cases hdisable : (s.slot i).disableAbsoluteDelayReset with
  | true => exact postStart_withStarted_disabled _ i hdisable
  | false =>
    rw [postStart_withStarted_resets _ i hdisable,
      resetAbsCounter_withStarted_of_flushFits _ i hnone (.inl hpre) (.inl hpre)]
    exact congrArg Except.ok (State.zeroed_eq_self (s := s.withStarted _ i) hcounter hpre)

section Restart

variable {s : State} {i : SlotId} (hone : s.OneActive) (hactive : (s.slot i).state.active = true)

include hactive

/-- An abort of an active slot alone takes that slot. -/
theorem abortTargets_bit_of_active (j : SlotId) : abortTargets s (1#8 <<< i.val) j = decide (i = j) := by
  rw [abortTargets, inMask_bit]
  by_cases h : i = j
  · subst h
    have hbusy : (s.slot i).state ≠ .idle := fun hidle => by
      rw [hidle] at hactive
      cases hactive
    simp [hbusy]
  · simp [h]

theorem abortTargets_bit_self : abortTargets s (1#8 <<< i.val) i = true := by
  rw [abortTargets_bit_of_active hactive, decide_eq_true rfl]

theorem slot_abortOnly_bit_of_ne {j : SlotId} (h : j ≠ i) : (abortOnly s (1#8 <<< i.val)).slot j = s.slot j :=
  slot_abortOnly_of_not_target (by rw [abortTargets_bit_of_active hactive]; exact decide_eq_false (Ne.symm h))

theorem slot_abortOnly_bit_self : (abortOnly s (1#8 <<< i.val)).slot i = (s.slot i).aborted := by
  rw [slot_abortOnly, if_pos (abortTargets_bit_self hactive)]

include hone

theorem abortOnly_bit_activeSlot : (abortOnly s (1#8 <<< i.val)).activeSlot = none := by
  refine State.activeSlot_eq_none.mpr fun j => ?_
  by_cases h : j = i
  · rw [h, slot_abortOnly_bit_self hactive]
    rfl
  · rw [slot_abortOnly_bit_of_ne hactive h]
    exact Bool.eq_false_iff.mpr fun hj => h (hone j i hj hactive)

theorem abortOnly_bit_unarmed : (abortOnly s (1#8 <<< i.val)).timer.armed = false := by
  have hhits : abortHits s (1#8 <<< i.val) = true :=
    abortHits_iff.mpr ⟨i, State.activeSlot_of_active hone hactive, inMask_bit_self i⟩
  rw [abortOnly_timer, if_pos hhits]
  rfl

/-- The second and the third part of the command: the flush fits, so the counter is zero and the slot starts. -/
theorem restart_of_flushFits (hen : s.en = true ∨ s.params.enPolicy = .none) (hfits : s.FlushFits) :
    Except.andThenState (resetAbsCounter (abortOnly s (1#8 <<< i.val)))
        (fun s2 => requestStart s2 (1#8 <<< i.val) false) =
      .ok ((abortOnly s (1#8 <<< i.val)).zeroed.withStarted (1#8 <<< i.val) i) := by
  have hnone := abortOnly_bit_activeSlot hone hactive
  have henabled : (abortOnly s (1#8 <<< i.val)).en = true ∨ (abortOnly s (1#8 <<< i.val)).params.enPolicy = .none := by
    rw [abortOnly_frame]
    exact hen
  have hidle : ((abortOnly s (1#8 <<< i.val)).slot i).state = .idle := by rw [slot_abortOnly_bit_self hactive]; rfl
  rw [resetAbsCounter_of_flushFits (.inr (abortOnly_bit_unarmed hone hactive)) (State.notDelaying_of_none hnone)
    ((abortOnly_flushFits s _).mpr hfits)]
  exact requestStart_bit_of_zero (s := (abortOnly s (1#8 <<< i.val)).zeroed) henabled hnone hidle rfl rfl

/-- The flush faults where no slot is active any more (log 37). -/
theorem restart_of_not_flushFits (hover : ¬s.FlushFits) :
    Except.andThenState (resetAbsCounter (abortOnly s (1#8 <<< i.val)))
        (fun s2 => requestStart s2 (1#8 <<< i.val) false) =
      .error ⟨⟨.counterOverflow, none, none, none⟩, 0⟩ := by
  rw [resetAbsCounter_of_not_flushFits ((abortOnly_flushFits s _).not.mpr hover), abortOnly_bit_activeSlot hone hactive]
  rfl

end Restart

/-! ## Hardware events (45_sequencer.md R220, R221) -/

theorem inMask_hwEventMask (s : State) (e : BitVec 8) (i : SlotId) :
    inMask (hwEventMask s e) i = true ↔
      (s.slot i).state = .idle ∧ (s.slot i).hardwareStartSelect = e ∧ (s.slot i).hardwareTriggerMode ≠ 0 := by
  simp [hwEventMask, and_assoc]

/-! ## Expiry (60_exceptions.md R265, R266, R274) -/

theorem expire_of_deferredStart {s : State} (h : s.timer.reason = .deferredStart) :
    expire s = postStartAtExpiry s.disarm s.timer.slot := by
  simp only [expire, h]

theorem expire_of_pollRetry {s : State} (h : s.timer.reason = .pollRetry) :
    expire s = expirePollRetry s.disarm s.timer.slot := by
  simp only [expire, h]

/-- Every use of the timer checks that its slot is in the state it expects (40_execution_cycle.md R118). -/
theorem expire_of_other_state {s : State} (h : (s.slot s.timer.slot).state ≠ s.timer.reason.slotState) :
    expire s = .error (Raise.ofResume s .resumeInvariant s.timer.slot) := by
  cases hreason : s.timer.reason <;> rw [hreason] at h
  · exact (expire_of_deferredStart hreason).trans (if_pos h)
  · exact (expire_of_delay hreason).trans (if_pos h)
  · exact (expire_of_pollRetry hreason).trans (if_pos h)

/-- An absolute Delay whose threshold lies ahead is armed again (60_exceptions.md R265). -/
theorem expireDelay_of_not_reached {s : State} {i : SlotId} (hstate : (s.slot i).state = .inDelay)
    (habs : (s.slot i).delayIsRelative = false)
    (hahead : s.absoluteDelayCounter < (s.slot i).delayRemainingTicksOrTopValue.toNat) :
    expireDelay s i = rearmDelay s i := by
  rw [expireDelay, if_neg (not_not_intro hstate), if_pos ⟨habs, hahead⟩]

theorem rearmDelay_of_ahead {s : State} {i : SlotId} {tb : TickSource} (htb : s.timeBase.source = some tb)
    (habs : (s.slot i).delayIsRelative = false)
    (hahead : s.absoluteDelayCounter < (s.slot i).delayRemainingTicksOrTopValue.toNat) :
    rearmDelay s i =
      .ok (s.arm .delay i tb ((s.slot i).delayRemainingTicksOrTopValue.toNat - s.absoluteDelayCounter)) := by
  rw [rearmDelay, armDelay_of_ticks htb (remainingDelayTicks_absolute habs hahead)]

theorem rearmDelay_of_clock {s : State} (h : s.timeBase = .clock) (i : SlotId) :
    rearmDelay s i = .error (Raise.ofResume s .clockTimeBase i) := by
  rw [rearmDelay, armDelay_of_clock h]

/-- At the expiry of a deferral the slot runs, with the counter reset unless the slot says otherwise (45_sequencer.md R213). -/
theorem postStartAtExpiry_of_running {s : State} {i : SlotId} (h : (s.slot i).state = .running) :
    ((s.slot i).disableAbsoluteDelayReset = true → postStartAtExpiry s i = .ok s) ∧
      ((s.slot i).disableAbsoluteDelayReset = false → postStartAtExpiry s i = resetAbsCounterUnarmed s) := by
  rw [postStartAtExpiry, if_neg (not_not_intro h)]
  exact ⟨fun hd => if_pos hd, fun hd => if_neg (by rw [hd]; decide)⟩

theorem expirePollRetry_of_waiting {s : State} {i : SlotId} (h : (s.slot i).state = .waitingForReg) :
    expirePollRetry s i = .ok (s.setSlotState i .running) := by
  rw [expirePollRetry, if_neg (not_not_intro h)]

/-- The events of a time base count a timer down but for a Delay's under COUNTDOWN_MODEL = Free (log 28). -/
theorem eventsCountDown_eq_false {s : State} :
    eventsCountDown s = false ↔ s.params.countdownModel = .free ∧ s.timer.reason = .delay := by
  unfold eventsCountDown
  split
  · next h => simp [h]
  · next h => simp [h]

end Sys2Proof.Machine

open Sys2Proof Sys2Proof.Machine

/-- Settles O48: slot 2 starts and 5 and 7 become Pending; each end of sequence then starts the lower of those that remain. -/
theorem arbitrationFifo : Obligations.ArbitrationFifo := by
  unfold Obligations.ArbitrationFifo
  intro s hen hidle hflush
  have hnone : s.activeSlot = none := State.activeSlot_eq_none.mpr fun i => by rw [hidle i]; rfl
  have hlowest : lowest (inMask 0xA4) = some 2 := by decide
  obtain ⟨t, hpost, hslots⟩ := postStart_withStarted_slots (m := 0xA4) (i0 := 2) hnone
    (hflush.imp_right (State.flush_of_none_active hnone))
  have ht : ∀ j, (t.slot j).state = if j = 2 then .running else if inMask 0xA4 j = true then .pending else .idle := by
    intro j
    rw [hslots, State.slot_withStarted]
    split
    · rfl
    · split
      · rfl
      · exact hidle j
  obtain ⟨hutimer, hu⟩ := complete_starts_next (s := t) (a := 2) (i := 5) (by decide) (by rw [ht]; decide)
    (fun j => by rw [ht]; revert j; decide)
  obtain ⟨hvtimer, hv⟩ := complete_starts_next (s := complete t 2) (a := 5) (i := 7) (by decide) (by rw [hu, ht]; decide)
    (fun j => by rw [hu, ht]; revert j; decide)
  have hrequest : requestStart s 0xA4 false = .ok t :=
    (requestStart_of_idle (.inl hen) (fun i _ => hidle i) false).trans ((arbitrate_immediate hnone hlowest).trans hpost)
  exact ⟨t, hrequest, ht 2, ht 5, ht 7, hu 2, hu 5, (hu 7).trans (ht 7), hutimer, hv 5, hv 7, hvtimer⟩

/-- Settles O49: a command write is `hostWriteCmd`'s three parts in order. The one that restarts the active slot finds no slot
active and no timer armed after its abort, so its counter reset flushes without a countdown, and its start has nothing to
flush. -/
theorem hostCommandOrder : Obligations.HostCommandOrder := by
  unfold Obligations.HostCommandOrder
  refine ⟨?order, ?restart⟩
  case order =>
    intro s off v hreg answers s1 reset
    have hanswers : ∀ x, hostWriteCmd s v = x → answers x := by
      rintro x rfl
      simp only [answers, takeTurn_hostWriteCmd hreg]
      exact s.settle_answers _
    have hparts : hostWriteCmd s v = Except.andThenState reset fun s2 =>
        if v.extractLsb' 0 8 = 0 then .ok s2 else requestStart s2 (v.extractLsb' 0 8) false := rfl
    exact ⟨fun e he => hanswers _ (by rw [hparts, he]; rfl), fun s2 hs2 => hanswers _ (by rw [hparts, hs2]; rfl)⟩
  case restart =>
    intro s i off hreg hone hactive hen harb command
    have habort := abort_of_no_pending harb (1#8 <<< i.val)
    have hcommand : takeTurn command s = s.settle (Except.andThenState (resetAbsCounter (abortOnly s (1#8 <<< i.val)))
        fun s2 => requestStart s2 (1#8 <<< i.val) false) := by
      obtain ⟨haborts, hstarts, hresets⟩ := restartCommand_fields i
      refine (takeTurn_hostWriteCmd hreg (restartCommand i)).trans ?_
      rw [hostWriteCmd_eq, haborts, hstarts, if_pos hresets, habort]
    refine ⟨fun hfits => ?fits, fun hover => ?overflows⟩
    case fits =>
      rw [restart_of_flushFits hone hactive hen hfits] at hcommand
      obtain ⟨hif, hseqIf, -, -⟩ := abort_flags_of_target (abortTargets_bit_self hactive)
      rw [habort] at hif hseqIf
      have hself := State.slot_withStarted_self (abortOnly s (1#8 <<< i.val)).zeroed (1#8 <<< i.val) i
      refine ⟨_, hcommand, ?_, ?_, rfl, rfl, hif, hseqIf, abortOnly_bit_unarmed hone hactive, fun j hj => ?_⟩
      · rw [hself]; rfl
      · rw [State.pc, hself]
        show ((abortOnly s (1#8 <<< i.val)).slot i).startAddress = _
        rw [slot_abortOnly_bit_self hactive, Slot.aborted_startAddress]
      · rw [State.slot_withStarted, if_neg hj, inMask_bit, if_neg (by simpa using Ne.symm hj)]
        exact slot_abortOnly_bit_of_ne hactive hj
    case overflows => rw [hcommand, restart_of_not_flushFits hone hactive hover]; rfl

/-- Settles O52: an expiry checks the state of its slot and then ends or renews that use of the timer. -/
theorem expiryResumes : Obligations.ExpiryResumes := by
  unfold Obligations.ExpiryResumes
  intro s i hslot T d expects
  subst hslot
  refine ⟨fun hother => ?other,
    fun hreason hstate => ⟨fun hreached => ?resumed, fun habs hahead => ⟨fun tb htb => ?rearmed, fun hclock => ?clock⟩⟩,
    fun hreason hstate hactive => ⟨fun hdisable => ?started,
      fun hreset => ⟨fun hfits => ?flushed, fun hover => ?overflow⟩⟩,
    fun hreason hstate => ?polls, ?event⟩
  case other =>
    have hexpects : s.timer.reason.slotState = expects := by
      unfold expects
      cases s.timer.reason <;> rfl
    exact expire_of_other_state (hexpects ▸ hother)
  case resumed => exact (expire_of_delay hreason).trans (expireDelay_of_reached (s := s.disarm) hstate hreached)
  case rearmed =>
    rw [expire_of_delay hreason, expireDelay_of_not_reached (s := s.disarm) hstate habs hahead]
    exact rearmDelay_of_ahead (s := s.disarm) htb habs hahead
  case clock =>
    rw [expire_of_delay hreason, expireDelay_of_not_reached (s := s.disarm) hstate habs hahead]
    exact rearmDelay_of_clock (s := s.disarm) hclock _
  case started =>
    rw [expire_of_deferredStart hreason]
    exact (postStartAtExpiry_of_running (s := s.disarm) hstate).1 hdisable
  case flushed =>
    rw [expire_of_deferredStart hreason, (postStartAtExpiry_of_running (s := s.disarm) hstate).2 hreset]
    exact resetAbsCounterUnarmed_of_flushFits (s := s.disarm)
      (State.notDelaying_of_active (s := s.disarm) hactive (by rw [State.disarm_slot, hstate]; decide)) hfits
  case overflow =>
    rw [expire_of_deferredStart hreason, (postStartAtExpiry_of_running (s := s.disarm) hstate).2 hreset, ← hactive]
    exact resetAbsCounterUnarmed_of_not_flushFits (s := s.disarm) hover
  case polls => exact (expire_of_pollRetry hreason).trans (expirePollRetry_of_waiting (s := s.disarm) hstate)
  case event =>
    intro mayExpire
    refine ⟨fun ⟨hfree, harmed, hreason⟩ => ?_, fun hnot => if_neg fun ⟨harmed, hevents⟩ => ?_⟩
    · have hturn : takeTurn .timerExpire s = s.settle (expire s) :=
        if_pos ⟨harmed, eventsCountDown_eq_false.mpr ⟨hfree, hreason⟩⟩
      rw [hturn]
      exact s.settle_answers (expire s)
    · obtain ⟨hfree, hreason⟩ := eventsCountDown_eq_false.mp hevents
      exact hnot ⟨hfree, harmed, hreason⟩

/-- Settles O47: the mask of a hardware event holds exactly the slots its membership clause names. -/
theorem hwEventRequestsMatchingSlots : Obligations.HwEventRequestsMatchingSlots := by
  unfold Obligations.HwEventRequestsMatchingSlots
  exact fun s e => ⟨⟨hwEventMask s e, inMask_hwEventMask s e, rfl⟩, fun _ => rfl⟩

end

section
/-! SUPPORT. What a step may change where it faults: the fault record, the reads it has made and the outstanding overflows
(60_exceptions.md R251; 40_execution_cycle.md R117). -/

namespace Sys2Proof.Machine

/-! ## Instructions that fault -/

/-- From `s` to `t` the core has made bus reads, which the trace records, and nothing else. -/
def State.ReadsOnly (s t : State) : Prop :=
  ∃ reads : List BusAccess, t = { s with trace := reads ++ s.trace } ∧ ∀ x ∈ reads, ∃ addr v, x = .read addr v

/-- From `s` to `t` the core has made bus reads and then raised a fault. -/
def State.FaultsAfterReads (s t : State) : Prop := ∃ u r, s.ReadsOnly u ∧ t = u.raiseFatal r

theorem State.ReadsOnly.refl (s : State) : s.ReadsOnly s := ⟨[], rfl, by simp⟩

theorem State.ReadsOnly.logRead (s : State) (addr : Word) (v : Option Word) : s.ReadsOnly (s.logAccess (.read addr v)) :=
  ⟨[.read addr v], rfl, by simp⟩

theorem State.ReadsOnly.busOnly {s t : State} (h : s.ReadsOnly t) : s.BusOnly t := by
  obtain ⟨reads, rfl, -⟩ := h
  rfl

theorem State.ReadsOnly.trans {s t u : State} (h1 : s.ReadsOnly t) (h2 : t.ReadsOnly u) : s.ReadsOnly u := by
  obtain ⟨reads1, rfl, hreads1⟩ := h1
  obtain ⟨reads2, rfl, hreads2⟩ := h2
  refine ⟨reads2 ++ reads1, by simp, fun x hx => ?_⟩
  exact (List.mem_append.mp hx).elim (hreads2 x) (hreads1 x)

theorem memRead_readsOnly (s : State) (addr : Word) : (memRead s addr).After s.ReadsOnly := by
  unfold memRead
  split
  · exact .logRead s addr _
  · exact .logRead s addr _
  · trivial

/-- An instruction that ends in `k` after its accesses leaves the fault record alone if `k` does; a bus error is no fault. -/
theorem outcome_fault {α : Type} {s t : State} {x : Access α} {k : α → State → Outcome} (hx : x.After s.BusOnly)
    (hk : ∀ v u, k v u = .next t → t.fault = u.fault) (h : x.outcome k = .next t) : t.fault = s.fault := by
  rcases hx.outcome_next h with ⟨v, u, -, hu, h⟩ | ⟨addr, u, hu, rfl⟩
  · exact (hk v u h).trans hu.fault
  · exact (busError_only u addr).fault.trans hu.fault

theorem continueAt_fault {s t : State} {a : SlotId} {next : Word} (h : s.continueAt a next = .next t) : t.fault = s.fault :=
  (continueAt_only h).fault

/-- A Delay that cannot be armed has made one read (43_wait.md R170). -/
theorem execDelay_fault (mode : DelayMode) (base : BaseIndex) (offset : Nat) {s t : State}
    (h : execDelay mode base offset s = .next t) : t.fault = s.fault ∨ s.FaultsAfterReads t := by
  obtain ⟨a, -, h⟩ := State.onExecutor_next h
  rcases (memRead_readsOnly s _).outcome_next h with ⟨T, u, -, hreads, h⟩ | ⟨addr, u, hreads, rfl⟩
  · split at h
    · next w hw => cases h; exact .inl ((armDelay_only hw).fault.trans hreads.busOnly.fault)
    · next k hk => cases h; exact .inr ⟨u, _, hreads, rfl⟩
  · exact .inl ((busError_only u addr).fault.trans hreads.busOnly.fault)

/-- Delay and Reserved alone raise a fault, and do so before any write to the bus. -/
theorem exec_fault {i : Instr} {s t : State} {a : SlotId} (he : s.executor = some a) (h : exec i s = .next t) :
    t.fault = s.fault ∨ s.FaultsAfterReads t := by
  have transfer {base : BaseIndex} {offset n : Nat} (hi : i ∈ transferInstrs base offset n) : t.fault = s.fault := by
    rw [exec_eq_transfer he hi] at h
    exact outcome_fault (transfer_run s a i).only (fun _ _ => continueAt_fault) h
  cases i with
  | write b f n | writeNoInc b f n | mov b f n | movNoInc b f n | moveBlock b f n | and b f n | xor b f n | or b f n =>
    exact .inl (transfer (base := b) (offset := f) (n := n) (by simp [transferInstrs]))
  | delay mode base offset => exact execDelay_fault mode base offset h
  | reserved payload =>
    obtain ⟨a, -, h⟩ := State.onExecutor_next h
    cases h
    exact .inr ⟨s, _, .refl s, rfl⟩
  | waitForReg p base offset =>
    obtain ⟨a, -, h⟩ := State.onExecutor_next h
    refine .inl (outcome_fault ?_ (fun vd u h => ?_) h)
    · exact memRead_andThen_only _ fun v t => memRead_andThen_only _ fun d u => State.BusOnly.refl u
    · split at h
      · exact continueAt_fault h
      · cases h; rfl
  | waitForSig p base offset =>
    obtain ⟨a, -, h⟩ := State.onExecutor_next h
    refine .inl (outcome_fault (memRead_only ..) (fun d u h => ?_) h)
    split at h
    · exact continueAt_fault h
    · cases h; rfl
  | jump mode base offset =>
    obtain ⟨a, -, h⟩ := State.onExecutor_next h
    exact .inl (outcome_fault (memRead_only ..) (fun _ _ => continueAt_fault) h)
  | setTrig op base offset =>
    obtain ⟨a, -, h⟩ := State.onExecutor_next h
    refine .inl (outcome_fault (memRead_only ..) (fun m u h => ?_) h)
    exact (continueAt_only h).fault
  | skipCond cond base offset =>
    obtain ⟨a, -, h⟩ := State.onExecutor_next h
    exact .inl (outcome_fault (skipTest_only ..) (fun _ _ => continueAt_fault) h)
  | endSeqOrNop op base offset =>
    obtain ⟨a, -, h⟩ := State.onExecutor_next h
    cases op with
    | nop => exact .inl (continueAt_fault h)
    | endSeq => cases h; exact .inl (complete_only s a).fault

/-! ## Turns that fault -/

/-- The executor faults on a word that does not decode, after its fetch, or in the instruction it has fetched. -/
theorem executorStep_fault {s t : State} (h : executorStep s = .next t) : t.fault = s.fault ∨ s.FaultsAfterReads t := by
  rcases executorStep_eq_next h with ⟨-, rfl⟩ | ⟨a, he, ⟨-, rfl⟩ | ⟨w, -, ⟨r, -, rfl⟩ | ⟨i, -, h⟩⟩⟩
  · exact .inl rfl
  · exact .inl (busError_only (s.logAccess _) _).fault
  · exact .inr ⟨_, _, .logRead s _ _, rfl⟩
  · refine (exec_fault (s := s.logAccess _) he h).imp_right ?_
    rintro ⟨u, r, hreads, rfl⟩
    exact ⟨u, r, (State.ReadsOnly.logRead s _ _).trans hreads, rfl⟩

/-- A turn that faults made reads only, in the executor's turn; in another agent's it made no access, and what it has delivered
of the outstanding overflows stays delivered (log 15). -/
theorem takeTurn_fault {s t : State} {turn : Turn} (h : takeTurn turn s = .next t) :
    t.fault = s.fault ∨ (turn = .executor ∧ s.FaultsAfterReads t) ∨
      (turn ≠ .executor ∧ ∃ n r, t = { s with preOutstanding := n }.raiseFatal r) := by
  cases takeTurn_effect h with
  | executor ht h => exact (executorStep_fault h).imp_right fun hfaults => .inl ⟨ht, hfaults⟩
  | fault ht n r h => exact .inr (.inr ⟨ht, n, r, h⟩)
  | sequencer ht h => exact .inl h.fault
  | hostWrite off v r ht hr h => exact .inl (hostWriteReg_fault h)
  | signalSet m ht h => subst h; exact .inl (signalSet_only s m).fault
  | hostRead ht v n h => subst h; exact .inl rfl
  | memory m ht h => subst h; exact .inl rfl
  | signalClear m ht h => subst h; exact .inl rfl
  | reset ht h => subst h; exact .inl rfl

end Sys2Proof.Machine

open Sys2Proof Sys2Proof.Machine

/-- Settles O11, by the agent whose turn faults: the executor, which has made reads only, or another, which has made no bus
access. -/
theorem faultDiscardsTheStep : Obligations.FaultDiscardsTheStep := by
  unfold Obligations.FaultDiscardsTheStep
  intro s t r h hfault
  obtain ⟨hnone, hturn⟩ := step_eq_next h
  rcases takeTurn_fault hturn with hkept | ⟨ht, u, r', ⟨reads, rfl, hreads⟩, rfl⟩ | ⟨ht, n, r', rfl⟩
  · cases hfault.symm.trans (hkept.trans hnone)
  · cases hfault
    exact ⟨rfl, ⟨reads, rfl, hreads⟩, fun hother => absurd ht hother, fun _ => rfl⟩
  · cases hfault
    exact ⟨rfl, ⟨[], rfl, by simp⟩, fun _ => rfl, fun hexec => absurd hexec ht⟩

end

section
/-! SUPPORT. What the agents other than the executor leave of memory, the trace and the flags, and what a bus error writes
(60_exceptions.md R256, R271, R281). -/

namespace Sys2Proof.Machine

/-! ## Memory and the trace (60_exceptions.md R271) -/

/-- `t` has the memory and the trace of `s`. -/
def State.SameBus (s t : State) : Prop := t.mem = s.mem ∧ t.trace = s.trace

theorem State.SequencerOnly.sameBus {s t : State} (h : s.SequencerOnly t) : s.SameBus t := by
  constructor <;> rw [h.rest]

theorem hostWriteReg_sameBus {s t : State} {r : HostReg} {v : Word} (h : hostWriteReg s r v = .ok t) : s.SameBus t := by
  cases r with
  | cmd => exact (hostWriteCmd_only h).sameBus
  | _ => cases h; exact ⟨rfl, rfl⟩

/-- Of the agents other than the executor another bus master alone changes memory, and none makes an access of the core. -/
theorem takeTurn_sameBus {s t : State} {turn : Turn} (hexec : turn ≠ .executor) (h : takeTurn turn s = .next t) :
    s.SameBus t ∨ (t.trace = s.trace ∧
      ((∃ addr v, turn = .masterWrite addr v) ∨ ∃ addr b, turn = .masterWriteByte addr b)) := by
  cases takeTurn_effect h with
  | executor ht h => exact absurd ht hexec
  | memory m ht h => subst h; exact .inr ⟨rfl, ht⟩
  | sequencer ht h => exact .inl h.sameBus
  | hostWrite off v r ht hr h => exact .inl (hostWriteReg_sameBus h)
  | signalSet m ht h => subst h; exact .inl (signalSet_only s m).sameBus
  | fault ht n r h => subst h; exact .inl ⟨rfl, rfl⟩
  | hostRead ht v n h => subst h; exact .inl ⟨rfl, rfl⟩
  | signalClear m ht h => subst h; exact .inl ⟨rfl, rfl⟩
  | reset ht h => subst h; exact .inl ⟨rfl, rfl⟩

/-! ## The flags (60_exceptions.md R281) -/

/-- Every flag of either scope that is set in `s` is set in `t`. -/
structure State.KeepsFlags (s t : State) : Prop where
  ifReg : ∀ k, s.ifReg.getLsbD k = true → t.ifReg.getLsbD k = true
  seqIf : ∀ k, s.seqIf.getLsbD k = true → t.seqIf.getLsbD k = true

theorem State.KeepsFlags.of_eq {s t : State} (hif : t.ifReg = s.ifReg) (hseqIf : t.seqIf = s.seqIf) : s.KeepsFlags t :=
  ⟨fun _ h => by rw [hif]; exact h, fun _ h => by rw [hseqIf]; exact h⟩

theorem State.KeepsFlags.trans {s t u : State} (h1 : s.KeepsFlags t) (h2 : t.KeepsFlags u) : s.KeepsFlags u :=
  ⟨fun k h => h2.ifReg k (h1.ifReg k h), fun k h => h2.seqIf k (h1.seqIf k h)⟩

theorem State.SequencerOnly.keepsFlags {s t : State} (h : s.SequencerOnly t) : s.KeepsFlags t := ⟨h.ifRises, h.seqIfRises⟩

theorem State.BusOnly.keepsFlags {s t : State} (h : s.BusOnly t) : s.KeepsFlags t := .of_eq (by rw [h]) (by rw [h])

/-- No instruction clears a flag. -/
theorem exec_keepsFlags {i : Instr} {s t : State} (h : exec i s = .next t) : s.KeepsFlags t := by
  obtain ⟨u, hbus, heffect⟩ := exec_effect h
  refine hbus.keepsFlags.trans ?_
  cases heffect with
  | sequencer h => exact h.keepsFlags
  | fault r h => subst h; exact .of_eq rfl rfl
  | trigger op base offset hi v h => exact ⟨h.ifRises, h.seqIfRises⟩

theorem executorStep_keepsFlags {s t : State} (h : executorStep s = .next t) : s.KeepsFlags t := by
  have hlog : ∀ x, s.KeepsFlags (s.logAccess x) := fun x => (State.BusOnly.logAccess s x).keepsFlags
  rcases executorStep_eq_next h with ⟨-, rfl⟩ | ⟨a, -, ⟨-, rfl⟩ | ⟨w, -, ⟨r, -, rfl⟩ | ⟨i, -, h⟩⟩⟩
  · exact .of_eq rfl rfl
  · exact (hlog _).trans (busError_only _ _).keepsFlags
  · exact .of_eq rfl rfl
  · exact (hlog _).trans (exec_keepsFlags h)

/-- A host write of another register than IF clears no bit of it; a write of IF leaves the bits that are set in the value. -/
theorem hostWriteReg_clears_ifReg {s t : State} {r : HostReg} {v : Word} {k : Nat} (h : hostWriteReg s r v = .ok t)
    (hset : s.ifReg.getLsbD k = true) (hclear : t.ifReg.getLsbD k = false) : r = .ifReg ∧ v.getLsbD k = false := by
  have hk : k < 10 := BitVec.lt_of_getLsbD hset
  cases r with
  | cmd => simp [(hostWriteCmd_only h).ifRises k hset] at hclear
  | ifReg => cases h; exact ⟨rfl, by simpa [hk] using hclear⟩
  | _ => cases h; simp [hset] at hclear

theorem hostWriteReg_clears_seqIf {s t : State} {r : HostReg} {v : Word} {k : Nat} (h : hostWriteReg s r v = .ok t)
    (hset : s.seqIf.getLsbD k = true) (hclear : t.seqIf.getLsbD k = false) : r = .seqIf ∧ v.getLsbD k = false := by
  have hk : k < 10 := BitVec.lt_of_getLsbD hset
  cases r with
  | cmd => simp [(hostWriteCmd_only h).seqIfRises k hset] at hclear
  | seqIf => cases h; exact ⟨rfl, by simpa [hk] using hclear⟩
  | _ => cases h; simp [hset] at hclear

/-- A turn that is no reset and no host write keeps every flag that is set. -/
theorem takeTurn_keepsFlags {s t : State} {turn : Turn} (h : takeTurn turn s = .next t) :
    s.KeepsFlags t ∨ turn = .reset ∨
      ∃ off v r, turn = .hostWrite .word off v ∧ s.regAt off = some r ∧ hostWriteReg s r v = .ok t := by
  cases takeTurn_effect h with
  | reset ht h => exact .inr (.inl ht)
  | hostWrite off v r ht hr h => exact .inr (.inr ⟨off, v, r, ht, hr, h⟩)
  | executor ht h => exact .inl (executorStep_keepsFlags h)
  | sequencer ht h => exact .inl h.keepsFlags
  | signalSet m ht h =>
    subst h
    have hsignal := (signalSet_only s m).keepsFlags
    exact .inl ⟨hsignal.ifReg, hsignal.seqIf⟩
  | fault ht n r h => subst h; exact .inl (.of_eq rfl rfl)
  | hostRead ht v n h => subst h; exact .inl (.of_eq rfl rfl)
  | memory m ht h => subst h; exact .inl (.of_eq rfl rfl)
  | signalClear m ht h => subst h; exact .inl (.of_eq rfl rfl)

/-! ## Bus errors (60_exceptions.md R256) -/

/-- The conditions a bus error raises, as bits (10_state.md R40). -/
theorem busErrorConditions_eq (p : Config.Params) :
    busErrorConditions p = if p.busErrorAbortFlags = true then 0x300 else 0x200 := by
  unfold busErrorConditions
  cases p.busErrorAbortFlags <;> rfl

end Sys2Proof.Machine

open Sys2Proof Sys2Proof.Machine

/-- Settles O41: of the turns of other agents only a bus master's write reaches memory, and none the trace. -/
theorem eventsMakeNoBusAccess : Obligations.EventsMakeNoBusAccess := by
  unfold Obligations.EventsMakeNoBusAccess
  intro s t h hexec
  rcases takeTurn_sameBus hexec (step_eq_next h).2 with ⟨hmem, htrace⟩ | ⟨htrace, hmaster⟩
  · exact ⟨htrace, fun hchange => absurd hmem hchange⟩
  · exact ⟨htrace, fun _ => hmaster⟩

/-- Settles O42: a turn that does not keep the flags is a reset or a host write, and the write that clears a bit of a flag
register is one of that register. -/
theorem flagsClearedOnlyByHost : Obligations.FlagsClearedOnlyByHost := by
  unfold Obligations.FlagsClearedOnlyByHost
  intro s t k h clearedBy
  rcases takeTurn_keepsFlags (step_eq_next h).2 with hkeeps | hreset | ⟨off, v, r, ht, hr, hwrite⟩
  · refine ⟨fun hset hclear => ?_, fun hset hclear => ?_⟩
    · cases (hkeeps.ifReg k hset).symm.trans hclear
    · cases (hkeeps.seqIf k hset).symm.trans hclear
  · exact ⟨fun _ _ => .inl hreset, fun _ _ => .inl hreset⟩
  · refine ⟨fun hset hclear => ?_, fun hset hclear => ?_⟩
    · obtain ⟨rfl, hbit⟩ := hostWriteReg_clears_ifReg hwrite hset hclear
      exact .inr ⟨off, v, ht, hr, hbit⟩
    · obtain ⟨rfl, hbit⟩ := hostWriteReg_clears_seqIf hwrite hset hclear
      exact .inr ⟨off, v, ht, hr, hbit⟩

/-- Settles O10: `step` looks at the fault record before it takes a turn. -/
theorem faultStateEnds : Obligations.FaultStateEnds := by
  unfold Obligations.FaultStateEnds
  intro s r hfault t h
  cases (step_of_fault hfault).symm.trans h

/-- Settles O13, field by field. -/
theorem busErrorEffect : Obligations.BusErrorEffect := by
  unfold Obligations.BusErrorEffect
  intro s addr t raised
  have hraised : busErrorConditions s.params = raised := busErrorConditions_eq s.params
  exact ⟨rfl, rfl, s.slot_busError addr, congrArg (s.ifReg ||| ·) hraised, congrArg (s.seqIf ||| ·) hraised,
    lineOf_eq_decide _ _, lineOf_eq_decide _ _, rfl⟩

end

section
/-! SUPPORT. What a tick counts and counts down, case by case, and the counter reset as its flush and what follows it
(60_exceptions.md R261, R264, R267 to R271, R275). -/

namespace Sys2Proof.Machine

/-! ## Ticks (60_exceptions.md R261, R271) -/

theorem eventsCountDown_eq_true {s : State} :
    eventsCountDown s = true ↔ s.params.countdownModel = .eventCounted ∨ s.timer.reason ≠ .delay := by
  unfold eventsCountDown
  split
  · next h => simp [h]
  · next h => simp [h]

/-- A countdown of another source, of no armed timer, or of one that events do not count, changes nothing. -/
theorem countDown_of_not_counts {s : State} {src : TickSource}
    (h : ¬(s.timer.armed = true ∧ s.timer.tb = src ∧ eventsCountDown s = true)) (n : Nat) : countDown s src n = .ok s :=
  if_neg h

/-- The counter after `n` ticks of a source: it counts those of the configured base (60_exceptions.md R267). -/
def State.counted (s : State) (src : TickSource) (n : Nat) : State :=
  { s with absoluteDelayCounter :=
      if s.timeBase.source = some src then s.absoluteDelayCounter + n else s.absoluteDelayCounter }

/-- A tick that the counter has room for, or does not count, goes on to the countdown. -/
theorem tick_of_room {s : State} {src : TickSource} {n : Nat}
    (h : s.timeBase.source = some src → s.absoluteDelayCounter + n ≤ s.params.absCounterLimit) :
    tick s src n = countDown (s.counted src n) src n := by
  unfold State.counted
  by_cases hbase : s.timeBase.source = some src
  · rw [tick_of_fits hbase (h hbase), if_pos hbase]
  · rw [tick, countTick, if_neg hbase, if_neg hbase]

/-- Past the limit a tick faults before it counts anything down (60_exceptions.md R269). -/
theorem tick_of_no_room {s : State} {src : TickSource} {n : Nat} (hbase : s.timeBase.source = some src)
    (h : s.params.absCounterLimit < s.absoluteDelayCounter + n) :
    tick s src n = .error (Raise.ofSlot s .counterOverflow s.activeSlot) := by
  rw [tick, countTick, if_pos hbase, if_neg (Nat.not_le.mpr h)]

/-! ## Where no overflow is outstanding, none is after a tick -/

section NoneOutstanding

variable {s t : State} (hpre : s.preOutstanding = 0)

include hpre

theorem zeroAndRestart_preOutstanding (h : zeroAndRestart s = .ok t) : t.preOutstanding = 0 := by
  rcases zeroAndRestart_eq_ok h with ⟨rfl, -⟩ | ⟨a, tb, -, -, -, -, -, rfl⟩ <;> exact hpre

theorem resetAbsCounterUnarmed_preOutstanding (h : resetAbsCounterUnarmed s = .ok t) : t.preOutstanding = 0 := by
  rw [resetAbsCounterUnarmed, if_pos hpre] at h
  exact zeroAndRestart_preOutstanding (s := { s with preOutstanding := 0 }) rfl h

theorem rearmDelay_preOutstanding {i : SlotId} (h : rearmDelay s i = .ok t) : t.preOutstanding = 0 := by
  obtain ⟨tb, n, -, -, rfl⟩ := rearmDelay_eq_ok h
  exact hpre

theorem postStartAtExpiry_preOutstanding {i : SlotId} (h : postStartAtExpiry s i = .ok t) : t.preOutstanding = 0 := by
  unfold postStartAtExpiry at h
  split at h
  · cases h
  · split at h
    · cases h; exact hpre
    · exact resetAbsCounterUnarmed_preOutstanding hpre h

theorem expire_preOutstanding (h : expire s = .ok t) : t.preOutstanding = 0 := by
  unfold expire at h
  split at h
  · exact postStartAtExpiry_preOutstanding (s := s.disarm) hpre h
  · obtain ⟨-, h | ⟨-, rfl⟩⟩ := expireDelay_eq_ok h
    · exact rearmDelay_preOutstanding (s := s.disarm) hpre h
    · exact hpre
  · obtain ⟨-, rfl⟩ := expirePollRetry_eq_ok h
    exact hpre

theorem countDown_preOutstanding {src : TickSource} {n : Nat} (h : countDown s src n = .ok t) : t.preOutstanding = 0 := by
  rcases countDown_eq_ok h with rfl | ⟨-, -, ⟨-, rfl⟩ | ⟨-, h⟩⟩
  · exact hpre
  · exact hpre
  · exact expire_preOutstanding (s := { s with timer := { s.timer with remaining := 0 } }) hpre h

theorem tick_preOutstanding {src : TickSource} {n : Nat} (h : tick s src n = .ok t) : t.preOutstanding = 0 := by
  obtain ⟨u, hu, h⟩ := tick_eq_ok h
  have hu0 : u.preOutstanding = 0 := by rcases countTick_eq_ok hu with ⟨-, -, rfl⟩ | ⟨-, rfl⟩ <;> exact hpre
  exact countDown_preOutstanding hu0 h

end NoneOutstanding

/-! ## The counter reset (60_exceptions.md R268) -/

/-- The outstanding overflows delivered as one tick, if there are any. -/
def State.flush (s : State) : Except Raise State :=
  if s.preOutstanding = 0 then .ok s else tick { s with preOutstanding := 0 } .preCountOverflow s.preOutstanding

theorem State.setPreOutstanding_eq_self {s : State} (h : s.preOutstanding = 0) : { s with preOutstanding := 0 } = s := by
  cases s
  cases h
  rfl

theorem resetAbsCounter_eq_flush (s : State) : resetAbsCounter s = Except.andThenState s.flush zeroAndRestart := by
  unfold State.flush
  by_cases hpre : s.preOutstanding = 0
  · rw [resetAbsCounter, if_pos hpre, if_pos hpre, State.setPreOutstanding_eq_self hpre]; rfl
  · rw [resetAbsCounter_eq_andThenState hpre, if_neg hpre]

theorem State.flush_preOutstanding {s u : State} (h : s.flush = .ok u) : u.preOutstanding = 0 := by
  unfold State.flush at h
  split at h
  · next hpre => cases h; exact hpre
  · exact tick_preOutstanding (s := { s with preOutstanding := 0 }) rfl h

/-- An absolute Delay of slot `a`, the active one, is in progress. -/
def State.WaitsAbsolute (s : State) (a : SlotId) : Prop :=
  s.activeSlot = some a ∧ (s.slot a).state = .inDelay ∧ (s.slot a).delayIsRelative = false

theorem zeroAndRestart_of_none_waits {s : State} (h : ∀ a, ¬s.WaitsAbsolute a) :
    zeroAndRestart s = .ok { s with absoluteDelayCounter := 0 } := by
  unfold zeroAndRestart
  simp only
  split
  · next a ha => exact if_neg fun hdelay => h a ⟨ha, hdelay⟩
  · rfl

theorem zeroAndRestart_of_waits {s : State} {a : SlotId} (h : s.WaitsAbsolute a) :
    zeroAndRestart s = rearmDelay (State.disarm { s with absoluteDelayCounter := 0 }) a := by
  obtain ⟨ha, hdelay⟩ := h
  have ha0 : ({ s with absoluteDelayCounter := 0 } : State).activeSlot = some a := ha
  simp only [zeroAndRestart, ha0]
  exact if_pos hdelay

/-- Against a counter that has reached its threshold an absolute Delay cannot be armed (60_exceptions.md R264). -/
theorem rearmDelay_of_passed {s : State} {i : SlotId} (htb : s.timeBase ≠ .clock) (habs : (s.slot i).delayIsRelative = false)
    (hpassed : (s.slot i).delayRemainingTicksOrTopValue.toNat ≤ s.absoluteDelayCounter) :
    rearmDelay s i = .error (Raise.ofResume s .delayThresholdPassed i) := by
  rw [rearmDelay, armDelay_of_ticks_error htb (remainingDelayTicks_absolute_passed habs hpassed)]

end Sys2Proof.Machine

open Sys2Proof Sys2Proof.Machine

/-- Settles O53: a counter reset is its flush and then `zeroAndRestart`, which arms an absolute Delay in progress against 0. -/
theorem resetAbsCounterResult : Obligations.ResetAbsCounterResult := by
  unfold Obligations.ResetAbsCounterResult
  intro s flushed
  have hreset : resetAbsCounter s = Except.andThenState flushed zeroAndRestart := resetAbsCounter_eq_flush s
  refine ⟨fun e he => by rw [hreset, he]; rfl, fun u hu => ?flushes, fun t ht => ?answers⟩
  case flushes =>
    intro zeroed waits
    have hpre : u.preOutstanding = 0 := State.flush_preOutstanding (s := s) hu
    have hrestart : resetAbsCounter s = zeroAndRestart u := by rw [hreset, hu]; rfl
    refine ⟨fun hnone => hrestart.trans (zeroAndRestart_of_none_waits hnone), fun a hwaits => ?_⟩
    intro T
    have harms := hrestart.trans (zeroAndRestart_of_waits hwaits)
    obtain ⟨-, -, habs⟩ := hwaits
    refine ⟨fun tb htb hT => ?_, fun tb htb hT => ?_, fun hclock => ?_⟩
    · have hahead : 0 < T.toNat := Nat.pos_of_ne_zero fun h0 => hT (BitVec.eq_of_toNat_eq h0)
      exact harms.trans (rearmDelay_of_ahead (s := zeroed.disarm) htb habs hahead)
    · have htb' : u.timeBase ≠ .clock := fun hclock => by simp [hclock, TimeBase.source] at htb
      rw [harms, rearmDelay_of_passed (s := zeroed.disarm) htb' habs (Nat.le_of_eq (congrArg BitVec.toNat hT)), ← hpre]
      rfl
    · rw [harms, rearmDelay_of_clock (s := zeroed.disarm) hclock, ← hpre]
      rfl
  case answers =>
    rw [hreset] at ht
    obtain ⟨u, hu, hrestart⟩ := Except.andThenState_eq_ok ht
    have hpre := zeroAndRestart_preOutstanding (State.flush_preOutstanding (s := s) hu) hrestart
    rcases zeroAndRestart_eq_ok hrestart with ⟨rfl, hnone⟩ | ⟨a, tb, ha, hstate, habs, htb, -, rfl⟩
    · exact ⟨rfl, hpre, fun a ha hstate habs => absurd ⟨hstate, habs⟩ (hnone a ha)⟩
    · refine ⟨rfl, hpre, fun b hb _ _ => ?_⟩
      cases ha.symm.trans hb
      exact ⟨tb, htb, rfl⟩

/-- Settles O33: the poll's one tick is its timer's last; another timer is not the poll tick's to count. -/
theorem pollTickRetries : Obligations.PollTickRetries := by
  unfold Obligations.PollTickRetries
  intro s i
  refine ⟨fun htimer hstate => ?_, fun hother => ?_⟩
  · have hcounts : eventsCountDown s = true := eventsCountDown_eq_true.mpr (.inr (by simp [htimer]))
    have hexpire : countDown s .pollTick 1 = expire { s with timer := ⟨true, .pollRetry, i, .pollTick, 0⟩ } := by
      rw [countDown_of_le (by rw [htimer]) (by rw [htimer]) hcounts (by rw [htimer]), htimer]
    have hretry := expirePollRetry_of_waiting (s := { s with timer := ⟨false, .pollRetry, i, .pollTick, 0⟩ }) hstate
    rw [takeTurn, hexpire, expire_of_pollRetry rfl]
    exact congrArg s.settle hretry
  · have hnot : ¬(s.timer.armed = true ∧ s.timer.tb = .pollTick ∧ eventsCountDown s = true) := by
      rintro ⟨harmed, htb, -⟩
      rcases hother with hunarmed | hne
      · simp [hunarmed] at harmed
      · exact hne htb
    rw [takeTurn, countDown_of_not_counts hnot]
    rfl

/-- Settles O51: a tick counts and then counts down, and an event of the protocol timer is the tick it delivers. -/
theorem tickCounts : Obligations.TickCounts := by
  unfold Obligations.TickCounts
  intro s src n ofBase counted countsDown delivers
  have hcounts : countsDown ↔ s.timer.armed = true ∧ s.timer.tb = src ∧ eventsCountDown s = true := by
    rw [eventsCountDown_eq_true]
  have hdelivers : ∀ {turn x}, takeTurn turn s = s.settle x → delivers turn x := by
    intro turn x hturn
    simp only [delivers, hturn]
    exact s.settle_answers x
  refine ⟨tick_of_no_room, fun hroom => ?counts, rfl, fun hpre => ?delivered, fun hpre => ?nothing, fun hn => ?events,
    fun hn => ?none⟩
  case counts =>
    rw [tick_of_room hroom, hcounts]
    refine ⟨fun hnot => ?_, fun ⟨harmed, htb, hevents⟩ hlt => ?_, fun ⟨harmed, htb, hevents⟩ hle => ?_⟩
    · exact countDown_of_not_counts (s := counted) hnot n
    · exact countDown_of_lt (s := counted) harmed htb hevents hlt
    · exact countDown_of_le (s := counted) harmed htb hevents hle
  case delivered => exact hdelivers (if_neg (Nat.ne_of_gt hpre))
  case nothing => exact if_pos hpre
  case events => exact ⟨hdelivers (if_neg (Nat.ne_of_gt hn)), hdelivers (if_neg (Nat.ne_of_gt hn))⟩
  case none => exact ⟨if_pos hn, if_pos hn⟩

end

section
/-! SUPPORT. Who moves next (40_execution_cycle.md R119), and the bytes of memory an instruction can change, all sixteen
together (41_transfer.md, 42_logical.md, 43_wait.md, 44_control.md). -/

namespace Sys2Proof.Machine

/-! ## The next turn -/

theorem nextTurn_of_atomicRun {s : State} (hatomic : s.params.atomicRun = true) (he : s.executor ≠ none) :
    nextTurn s = (.executor, s.schedule) := by
  have hmoves : s.executor.isSome = true := Option.isSome_iff_ne_none.mpr he
  rw [nextTurn, hatomic, hmoves, Bool.and_self, if_pos rfl]

/-- With nothing scheduled the executor moves, with ATOMIC_RUN and without (log 1). -/
theorem nextTurn_of_schedule_nil {s : State} (h : s.schedule = []) : nextTurn s = (.executor, []) := by
  rw [nextTurn, h, ite_self]

theorem nextTurn_of_schedule_cons {s : State} {t : Turn} {rest : List Turn}
    (h : s.params.atomicRun = false ∨ s.executor = none) (hs : s.schedule = t :: rest) : nextTurn s = (t, rest) := by
  have hfree : ¬(s.params.atomicRun && s.executor.isSome) = true := by
    rcases h with hatomic | hnone
    · simp [hatomic]
    · simp [hnone]
  rw [nextTurn, hs, if_neg hfree]

/-! ## The bytes an instruction changes -/

theorem State.MemStays.of_mem_eq_right {s t u : State} {S : Word → Prop} (h : s.MemStays S u) (hmem : t.mem = u.mem) :
    s.MemStays S t :=
  h.trans (.of_mem_eq h.1 hmem S)

theorem continueAt_mem {s t : State} {a : SlotId} {next : Word} (h : s.continueAt a next = .next t) : t.mem = s.mem :=
  (continueAt_only h).sameBus.1

/-- An instruction that ends in `k` after its accesses stores what they store, if `k` stores nothing; neither does a bus error
(60_exceptions.md R256). -/
theorem outcome_stays {α : Type} {s t : State} {S : Word → Prop} {addrs : List Word} {x : Access α}
    {k : α → State → Outcome} (hx : x.Run s S addrs) (hw : s.mem.wf = true)
    (hk : ∀ v u, k v u = .next t → t.mem = u.mem) (h : x.outcome k = .next t) : s.MemStays S t := by
  rcases (hx.stays hw).outcome_next h with ⟨v, u, -, hu, h⟩ | ⟨addr, u, hu, rfl⟩
  · exact hu.of_mem_eq_right (hk v u h)
  · exact hu.of_mem_eq_right (busError_only u addr).sameBus.1

/-- Two reads, of which the second may go where the first did not. -/
theorem memRead_memRead_run {α : Type} (s : State) (S : Word → Prop) (addr1 addr2 : Word) (f : Word → Word → State → α) :
    ((memRead s addr1).andThen fun v t => (memRead t addr2).andThen fun d u => .done (f v d u) u).Run s S
      ([addr1] ++ ([addr2] ++ [])) :=
  (memRead_run s S addr1).andThen fun _ t _ => (memRead_run t S addr2).andThen fun _ u _ => .done _ u S

/-- A SkipCond stores nothing, in either variant. -/
theorem skipTest_run (cond : SkipCondition) (inl tgt : Word) (s : State) (S : Word → Prop) :
    ∃ addrs, (skipTest cond inl tgt s).Run s S addrs := by
  cases cond with
  | reg p => exact ⟨_, memRead_memRead_run s S tgt inl fun v d u => u.pred p v d⟩
  | sig p => exact ⟨_, (memRead_run s S inl).andThen fun _ t _ => .done _ t S⟩

/-- An instruction's accesses alone reach memory, and only those of the copy and logical instructions write. -/
theorem exec_stays {i : Instr} {s t : State} {a : SlotId} (hw : s.mem.wf = true) (he : s.executor = some a)
    (h : exec i s = .next t) : s.MemStays (s.StoresAt a i) t := by
  have transfer {base : BaseIndex} {offset n : Nat} (hi : i ∈ transferInstrs base offset n) :
      s.MemStays (s.StoresAt a i) t := by
    rw [exec_eq_transfer he hi] at h
    exact outcome_stays (transfer_run s a i) hw (fun _ _ => continueAt_mem) h
  cases i with
  | write b f n | writeNoInc b f n | mov b f n | movNoInc b f n | moveBlock b f n | and b f n | xor b f n | or b f n =>
    exact transfer (base := b) (offset := f) (n := n) (by simp [transferInstrs])
  | delay mode base offset =>
    obtain ⟨b, -, h⟩ := State.onExecutor_next h
    refine outcome_stays (memRead_run ..) hw (fun T u h => ?_) h
    split at h
    · next w harm => cases h; exact (armDelay_only harm).sameBus.1
    · cases h; rfl
  | waitForReg p base offset =>
    obtain ⟨b, -, h⟩ := State.onExecutor_next h
    refine outcome_stays (memRead_memRead_run ..) hw (fun vd u h => ?_) h
    split at h
    · exact continueAt_mem h
    · cases h; rfl
  | waitForSig p base offset =>
    obtain ⟨b, -, h⟩ := State.onExecutor_next h
    refine outcome_stays (memRead_run ..) hw (fun d u h => ?_) h
    split at h
    · exact continueAt_mem h
    · cases h; rfl
  | jump mode base offset =>
    obtain ⟨b, -, h⟩ := State.onExecutor_next h
    exact outcome_stays (memRead_run ..) hw (fun _ _ => continueAt_mem) h
  | setTrig op base offset =>
    obtain ⟨b, -, h⟩ := State.onExecutor_next h
    refine outcome_stays (memRead_run ..) hw (fun m u h => ?_) h
    exact (continueAt_only h).sameBus.1
  | skipCond cond base offset =>
    obtain ⟨b, -, h⟩ := State.onExecutor_next h
    obtain ⟨addrs, hrun⟩ := skipTest_run cond (s.pc b + 4) (s.target base offset) s (s.StoresAt a (.skipCond cond base offset))
    exact outcome_stays hrun hw (fun _ _ => continueAt_mem) h
  | endSeqOrNop op base offset =>
    obtain ⟨b, -, h⟩ := State.onExecutor_next h
    cases op with
    | nop => exact .of_mem_eq hw (continueAt_mem h) _
    | endSeq => cases h; exact .of_mem_eq hw (complete_only s b).sameBus.1 _
  | reserved payload =>
    obtain ⟨b, -, h⟩ := State.onExecutor_next h
    cases h
    exact .of_mem_eq hw rfl _

end Sys2Proof.Machine

open Sys2Proof Sys2Proof.Machine

/-- Settles O6: the turn of a step from a state without a fault, and the three rules that choose it. -/
theorem stepTakesTurn : Obligations.StepTakesTurn := by
  unfold Obligations.StepTakesTurn
  intro s hnone
  exact ⟨step_of_no_fault hnone, nextTurn_of_atomicRun, nextTurn_of_schedule_nil, fun _ _ => nextTurn_of_schedule_cons⟩

/-- Settles O24, by what each instruction's accesses can change. -/
theorem memoryFrame : Obligations.MemoryFrame := by
  unfold Obligations.MemoryFrame
  intro s t a i x hwf he h hout
  exact (exec_stays hwf he h).2 x hout

end
